-- ==== Sys2Proof/Word.lean ====
section
/-! DEFINITION. The word types of the HUFC core: bytes, 32-bit registers and node indices. -/

namespace Sys2Proof

/-- One byte of IN_MEM or OUT_MEM, and one symbol of the alphabet 0..255 (R3). -/
abbrev Byte := BitVec 8

/-- One register of the REG space: 32 bits (R6). -/
abbrev Word := BitVec 32

/-- A node index: 9 bits, values 0 to 510, one for each entry of the arena NODE[0..510] (R36). -/
abbrev NodeIdx := Fin 511

end Sys2Proof
end

