-- ==== Sys2Proof/Bus.lean ====
section
/-! DEFINITION. What the block is given to decode: a host access as the bus carries it, or what the engine reads from
the compressed buffer in IN_MEM; and the names by which the decoder rejects. -/

namespace Sys2Proof

/-- The width of a REG access.  Only `word` reaches a register (R63). -/
inductive Width where
  | byte
  | half
  | word
  /-- More than 32 bits (R63, D4: "any other access reads 0 and writes nothing"). -/
  | wide
  deriving DecidableEq, Repr

/-- One host access as the bus carries it: the space (R60), the direction, the offset from the space's base and, for
a write, the value (of a REG write that is not a word, no rule reads it).  Buffer accesses are one byte wide (R64), and
their offsets are natural numbers (R8): one at or beyond the space's size reads 0 and writes nothing. -/
inductive Access where
  | regRead (w : Width) (off : Word)
  | regWrite (w : Width) (off : Word) (v : Word)
  | inRead (a : Nat)
  | inWrite (a : Nat) (v : Byte)
  | outRead (a : Nat)
  | outWrite (a : Nat) (v : Byte)
  deriving DecidableEq, Repr

/-- What is decoded.  The place the bits come from fixes their format (the table's column "format"): a host access
(CTRL_WORD, REG_WRITE, REG_READ, BUF_BYTE), the bytes D_HDR reads (HDR64), the bytes D_TREE reads (TREE_TOKEN), or the
bit D_DEC reads (PAYLOAD_BIT). -/
inductive Code where
  | access (a : Access)
  | header (bs : List Byte)
  | token (bs : List Byte)
  | payload (bit : Bool)
  deriving DecidableEq, Repr

/-- Why the decoder gives no instruction. -/
inductive DecodeError where
  /-- A REG access of fewer than 32 bits (R63). -/
  | narrowRegister
  /-- A REG access of more than 32 bits (R63). -/
  | wideRegister
  /-- A REG access at an offset that is no multiple of 4 (R63). -/
  | misalignedRegister
  /-- A REG access at an offset of 0x40 or more (R63). -/
  | noRegister
  /-- Fewer than 8 header bytes (R94). -/
  | truncatedHeader
  /-- No marker byte, or a leaf marker without its symbol byte (R96, R97). -/
  | truncatedToken
  deriving DecidableEq, Repr

end Sys2Proof
end

