-- ==== Sys2Proof/Syntax.lean ====
section
/-! DEFINITION. The instructions: one constructor per row of spec/opcode_table.json. -/

namespace Sys2Proof

/-- The 38 rows of the opcode table.  A command word keeps the bits the block does not decode (R92: "Bits [30:3] are
not decoded") as an operand `ign`, so that no bit of a word is lost; a reserved marker keeps the low bits its row
leaves free. -/
inductive Instr where
  -- CTRL_WORD: a write of a word to CTRL (R90, R91)
  /-- SRST (R135): bits [30:0] of the word are ignored. -/
  | srst (ign : BitVec 31)
  /-- SETOP (R130): store OP, start nothing. -/
  | setop (op : BitVec 2) (ign : BitVec 28)
  /-- START with OP = 0b00 (R134). -/
  | startIllegalOp00 (ign : BitVec 28)
  /-- START with OP = 0b01 (R132). -/
  | startCompress (ign : BitVec 28)
  /-- START with OP = 0b10 (R133). -/
  | startDecompress (ign : BitVec 28)
  /-- START with OP = 0b11 (R134). -/
  | startIllegalOp11 (ign : BitVec 28)
  -- REG_WRITE: a write of v to another register
  /-- Write of v to STATUS at 0x08 (R136). -/
  | clrDone (v : Word)
  /-- Write of v to IN_LEN at 0x0C (R137). -/
  | wrInLen (v : Word)
  /-- Write of v to OUT_CAP at 0x10 (R138). -/
  | wrOutCap (v : Word)
  /-- Write of v to IRQ_EN at 0x24 (R139). -/
  | wrIrqEn (v : Word)
  /-- Write to ID at 0x00 (R141). -/
  | wrRoId (v : Word)
  /-- Write to OUT_LEN at 0x14 (R141). -/
  | wrRoOutLen (v : Word)
  /-- Write to TREE_LEN at 0x18 (R141). -/
  | wrRoTreeLen (v : Word)
  /-- Write to BIT_COUNT at 0x1C (R141). -/
  | wrRoBitCount (v : Word)
  /-- Write to NSYM at 0x20 (R141). -/
  | wrRoNsym (v : Word)
  /-- Write to PARAM_IN_MAX at 0x28 (R141). -/
  | wrRoParamInMax (v : Word)
  /-- Write to PARAM_OUT_MAX at 0x2C (R141). -/
  | wrRoParamOutMax (v : Word)
  /-- Write to the reserved offset 0x30 (R141). -/
  | wrRoReserved30 (v : Word)
  /-- Write to the reserved offset 0x34 (R141). -/
  | wrRoReserved34 (v : Word)
  /-- Write to the reserved offset 0x38 (R141). -/
  | wrRoReserved38 (v : Word)
  /-- Write to the reserved offset 0x3C (R141). -/
  | wrRoReserved3C (v : Word)
  -- REG_READ
  /-- Read of the register at an offset (R140). -/
  | rdReg (off : Word)
  -- BUF_BYTE: one byte of the IN or OUT space (R142)
  /-- HostInWrite(a, v) (R64). -/
  | hostInWrite (a : Nat) (v : Byte)
  /-- HostInRead(a) (R64). -/
  | hostInRead (a : Nat)
  /-- HostOutRead(a) (R64, R65). -/
  | hostOutRead (a : Nat)
  /-- HostOutWrite(a, v) (R64). -/
  | hostOutWrite (a : Nat) (v : Byte)
  -- HDR64
  /-- The header: tree_byte_length T and payload_bit_count B (R94). -/
  | header (t b : Word)
  -- TREE_TOKEN
  /-- Token INTERNAL, the byte 0x00 (R96). -/
  | treeInternal
  /-- Token LEAF, the byte 0x01 and the symbol (R97). -/
  | treeLeaf (sym : Byte)
  /-- Reserved marker 0x02 to 0x03 (R98). -/
  | treeReserved02 (low : BitVec 1)
  /-- Reserved marker 0x04 to 0x07 (R98). -/
  | treeReserved04 (low : BitVec 2)
  /-- Reserved marker 0x08 to 0x0F (R98). -/
  | treeReserved08 (low : BitVec 3)
  /-- Reserved marker 0x10 to 0x1F (R98). -/
  | treeReserved10 (low : BitVec 4)
  /-- Reserved marker 0x20 to 0x3F (R98). -/
  | treeReserved20 (low : BitVec 5)
  /-- Reserved marker 0x40 to 0x7F (R98). -/
  | treeReserved40 (low : BitVec 6)
  /-- Reserved marker 0x80 to 0xFF (R98). -/
  | treeReserved80 (low : BitVec 7)
  -- PAYLOAD_BIT
  /-- A payload bit 0: go left (R237), or one whole code word of a one-leaf tree (R238). -/
  | payloadBit0
  /-- A payload bit 1: go right (R237), or no code word of a one-leaf tree (R238). -/
  | payloadBit1
  deriving DecidableEq, Repr

end Sys2Proof
end

