-- ==== Sys2Proof/WellFormed.lean ====
section
/-! DEFINITION. Which terms of Instr stand for something the bus or the buffer can carry.  The operand types are as wide as
the fields they stand for, so one check is left: a register read names one of the 16 word slots. -/

namespace Sys2Proof

/-- An offset of one of the 16 word slots of REG: a multiple of 4 below 0x40 (R60, R63). -/
def isWordSlot (off : Word) : Bool :=
  off.toNat % 4 == 0 && decide (off.toNat < 0x40)

/-- RD_REG is "any aligned word read" (the table's note): its offset is a word slot.  Every other operand may take any
value of its width. -/
def Instr.wellFormed : Instr → Bool
  | .srst _ => true
  | .setop _ _ => true
  | .startIllegalOp00 _ => true
  | .startCompress _ => true
  | .startDecompress _ => true
  | .startIllegalOp11 _ => true
  | .clrDone _ => true
  | .wrInLen _ => true
  | .wrOutCap _ => true
  | .wrIrqEn _ => true
  | .wrRoId _ => true
  | .wrRoOutLen _ => true
  | .wrRoTreeLen _ => true
  | .wrRoBitCount _ => true
  | .wrRoNsym _ => true
  | .wrRoParamInMax _ => true
  | .wrRoParamOutMax _ => true
  | .wrRoReserved30 _ => true
  | .wrRoReserved34 _ => true
  | .wrRoReserved38 _ => true
  | .wrRoReserved3C _ => true
  | .rdReg off => isWordSlot off
  | .hostInWrite _ _ => true
  | .hostInRead _ => true
  | .hostOutRead _ => true
  | .hostOutWrite _ _ => true
  | .header _ _ => true
  | .treeInternal => true
  | .treeLeaf _ => true
  | .treeReserved02 _ => true
  | .treeReserved04 _ => true
  | .treeReserved08 _ => true
  | .treeReserved10 _ => true
  | .treeReserved20 _ => true
  | .treeReserved40 _ => true
  | .treeReserved80 _ => true
  | .payloadBit0 => true
  | .payloadBit1 => true

end Sys2Proof
end

