-- ==== Sys2Proof/Decode.lean ====
section
/-! DEFINITION. The decoder, total on anything the bus or the buffer can carry and rejecting by name; after it the encoder;
then the opcode table's rows as numbers, and the host's view of a row's word. -/

namespace Sys2Proof

/-! ### Byte order (R8, R67) -/

/-- BE32(b0, b1, b2, b3): the first byte is the most significant (R8). -/
def be32 (b0 b1 b2 b3 : Byte) : Word :=
  b0.setWidth 32 <<< 24 ||| b1.setWidth 32 <<< 16 ||| b2.setWidth 32 <<< 8 ||| b3.setWidth 32

/-- toBE32(v): the four bytes v[31:24], v[23:16], v[15:8], v[7:0] (R8). -/
def toBE32 (v : Word) : List Byte :=
  [v.extractLsb' 24 8, v.extractLsb' 16 8, v.extractLsb' 8 8, v.extractLsb' 0 8]

/-! ### The decoder -/

/-- A CTRL write of v, the fields tested in the order of R91 (whether the block is BUSY is the meaning's question). -/
def decodeCtrl (v : Word) : Instr :=
  if v.getLsbD 31 then
    .srst (v.extractLsb' 0 31)
  else if v.getLsbD 0 then
    match (v.extractLsb' 1 2).toNat with
    | 0 => .startIllegalOp00 (v.extractLsb' 3 28)
    | 1 => .startCompress (v.extractLsb' 3 28)
    | 2 => .startDecompress (v.extractLsb' 3 28)
    | _ => .startIllegalOp11 (v.extractLsb' 3 28)
  else
    .setop (v.extractLsb' 1 2) (v.extractLsb' 3 28)

/-- A word write of v at a REG offset: the register map of R23 to R33. -/
def decodeRegWrite (off : Nat) (v : Word) : Except DecodeError Instr :=
  match off with
  | 0x00 => .ok (.wrRoId v)
  | 0x04 => .ok (decodeCtrl v)
  | 0x08 => .ok (.clrDone v)
  | 0x0C => .ok (.wrInLen v)
  | 0x10 => .ok (.wrOutCap v)
  | 0x14 => .ok (.wrRoOutLen v)
  | 0x18 => .ok (.wrRoTreeLen v)
  | 0x1C => .ok (.wrRoBitCount v)
  | 0x20 => .ok (.wrRoNsym v)
  | 0x24 => .ok (.wrIrqEn v)
  | 0x28 => .ok (.wrRoParamInMax v)
  | 0x2C => .ok (.wrRoParamOutMax v)
  | 0x30 => .ok (.wrRoReserved30 v)
  | 0x34 => .ok (.wrRoReserved34 v)
  | 0x38 => .ok (.wrRoReserved38 v)
  | 0x3C => .ok (.wrRoReserved3C v)
  | _ => .error .noRegister

/-- The check R63 makes of a REG access before it reaches a register. -/
def regAccessError (w : Width) (off : Word) : Option DecodeError :=
  if w = .wide then some .wideRegister
  else if w ≠ .word then some .narrowRegister
  else if off.toNat % 4 ≠ 0 then some .misalignedRegister
  else if 0x40 ≤ off.toNat then some .noRegister
  else none

/-- A host access. -/
def decodeAccess : Access → Except DecodeError Instr
  | .regRead w off =>
    match regAccessError w off with
    | some e => .error e
    | none => .ok (.rdReg off)
  | .regWrite w off v =>
    match regAccessError w off with
    | some e => .error e
    | none => decodeRegWrite off.toNat v
  | .inRead a => .ok (.hostInRead a)
  | .inWrite a v => .ok (.hostInWrite a v)
  | .outRead a => .ok (.hostOutRead a)
  | .outWrite a v => .ok (.hostOutWrite a v)

/-- The header: T in bytes 0 to 3 and B in bytes 4 to 7, big-endian (R94).  Bytes after the eighth are not read. -/
def decodeHeader : List Byte → Except DecodeError Instr
  | b0 :: b1 :: b2 :: b3 :: b4 :: b5 :: b6 :: b7 :: _ => .ok (.header (be32 b0 b1 b2 b3) (be32 b4 b5 b6 b7))
  | _ => .error .truncatedHeader

/-- A reserved marker, 0x02 to 0xFF (R98). -/
def decodeReserved (m : Byte) : Instr :=
  if m.toNat < 0x04 then .treeReserved02 (m.extractLsb' 0 1)
  else if m.toNat < 0x08 then .treeReserved04 (m.extractLsb' 0 2)
  else if m.toNat < 0x10 then .treeReserved08 (m.extractLsb' 0 3)
  else if m.toNat < 0x20 then .treeReserved10 (m.extractLsb' 0 4)
  else if m.toNat < 0x40 then .treeReserved20 (m.extractLsb' 0 5)
  else if m.toNat < 0x80 then .treeReserved40 (m.extractLsb' 0 6)
  else .treeReserved80 (m.extractLsb' 0 7)

/-- A tree token: the marker byte gives its length (R103); a leaf's symbol byte is never read as a marker (R98). -/
def decodeToken : List Byte → Except DecodeError Instr
  | [] => .error .truncatedToken
  | m :: rest =>
    if m = 0x00#8 then .ok .treeInternal
    else if m = 0x01#8 then
      match rest with
      | [] => .error .truncatedToken
      | sym :: _ => .ok (.treeLeaf sym)
    else .ok (decodeReserved m)

/-- The decoder. -/
def decode : Code → Except DecodeError Instr
  | .access a => decodeAccess a
  | .header bs => decodeHeader bs
  | .token bs => decodeToken bs
  | .payload false => .ok .payloadBit0
  | .payload true => .ok .payloadBit1

/-! ### The encoder -/

/-- The word of a CTRL write with SRST = 0: bits [30:3], OP in bits [2:1], START in bit 0 (R90). -/
def ctrlBits (ign : BitVec 28) (op : BitVec 2) (start : BitVec 1) : Word :=
  ign.setWidth 32 <<< 3 ||| op.setWidth 32 <<< 1 ||| start.setWidth 32

/-- A word write of v at a REG offset. -/
def encodeReg (off : Word) (v : Word) : Code :=
  .access (.regWrite .word off v)

/-- A CTRL write. -/
def encodeCtrl (v : Word) : Code :=
  encodeReg 0x04#32 v

/-- The encoder: the access, bytes or bit an instruction stands for. -/
def encode : Instr → Code
  | .srst ign => encodeCtrl (0x80000000#32 ||| ign.setWidth 32)
  | .setop op ign => encodeCtrl (ctrlBits ign op 0#1)
  | .startIllegalOp00 ign => encodeCtrl (ctrlBits ign 0b00#2 1#1)
  | .startCompress ign => encodeCtrl (ctrlBits ign 0b01#2 1#1)
  | .startDecompress ign => encodeCtrl (ctrlBits ign 0b10#2 1#1)
  | .startIllegalOp11 ign => encodeCtrl (ctrlBits ign 0b11#2 1#1)
  | .clrDone v => encodeReg 0x08#32 v
  | .wrInLen v => encodeReg 0x0C#32 v
  | .wrOutCap v => encodeReg 0x10#32 v
  | .wrIrqEn v => encodeReg 0x24#32 v
  | .wrRoId v => encodeReg 0x00#32 v
  | .wrRoOutLen v => encodeReg 0x14#32 v
  | .wrRoTreeLen v => encodeReg 0x18#32 v
  | .wrRoBitCount v => encodeReg 0x1C#32 v
  | .wrRoNsym v => encodeReg 0x20#32 v
  | .wrRoParamInMax v => encodeReg 0x28#32 v
  | .wrRoParamOutMax v => encodeReg 0x2C#32 v
  | .wrRoReserved30 v => encodeReg 0x30#32 v
  | .wrRoReserved34 v => encodeReg 0x34#32 v
  | .wrRoReserved38 v => encodeReg 0x38#32 v
  | .wrRoReserved3C v => encodeReg 0x3C#32 v
  | .rdReg off => .access (.regRead .word off)
  | .hostInWrite a v => .access (.inWrite a v)
  | .hostInRead a => .access (.inRead a)
  | .hostOutRead a => .access (.outRead a)
  | .hostOutWrite a v => .access (.outWrite a v)
  | .header t b => .header (toBE32 t ++ toBE32 b)
  | .treeInternal => .token [0x00#8]
  | .treeLeaf sym => .token [0x01#8, sym]
  | .treeReserved02 low => .token [0x01#7 ++ low]
  | .treeReserved04 low => .token [0x01#6 ++ low]
  | .treeReserved08 low => .token [0x01#5 ++ low]
  | .treeReserved10 low => .token [0x01#4 ++ low]
  | .treeReserved20 low => .token [0x01#3 ++ low]
  | .treeReserved40 low => .token [0x01#2 ++ low]
  | .treeReserved80 low => .token [0x01#1 ++ low]
  | .payloadBit0 => .payload false
  | .payloadBit1 => .payload true

/-! ### The opcode table's numbers -/

/-- The number a row's match and mask apply to: the word written to CTRL, the REG offset of another access, the marker
byte of a token, the payload bit.  Rows of the formats BUF_BYTE and HDR64 fix no bit. -/
def tableBits : Code → Nat
  | .access (.regWrite _ off v) => if off = 0x04#32 then v.toNat else off.toNat
  | .access (.regRead _ off) => off.toNat
  | .token (m :: _) => m.toNat
  | .payload bit => bit.toNat
  | .access (.inRead _) => 0
  | .access (.inWrite _ _) => 0
  | .access (.outRead _) => 0
  | .access (.outWrite _ _) => 0
  | .header _ => 0
  | .token [] => 0

/-- The columns "match" and "mask" of an instruction's row of spec/opcode_table.json. -/
def rowMatchMask : Instr → Nat × Nat
  | .srst _ => (0x80000000, 0x80000000)
  | .setop _ _ => (0x00000000, 0x80000001)
  | .startIllegalOp00 _ => (0x00000001, 0x80000007)
  | .startCompress _ => (0x00000003, 0x80000007)
  | .startDecompress _ => (0x00000005, 0x80000007)
  | .startIllegalOp11 _ => (0x00000007, 0x80000007)
  | .clrDone _ => (0x08, 0x3C)
  | .wrInLen _ => (0x0C, 0x3C)
  | .wrOutCap _ => (0x10, 0x3C)
  | .wrIrqEn _ => (0x24, 0x3C)
  | .wrRoId _ => (0x00, 0x3C)
  | .wrRoOutLen _ => (0x14, 0x3C)
  | .wrRoTreeLen _ => (0x18, 0x3C)
  | .wrRoBitCount _ => (0x1C, 0x3C)
  | .wrRoNsym _ => (0x20, 0x3C)
  | .wrRoParamInMax _ => (0x28, 0x3C)
  | .wrRoParamOutMax _ => (0x2C, 0x3C)
  | .wrRoReserved30 _ => (0x30, 0x3C)
  | .wrRoReserved34 _ => (0x34, 0x3C)
  | .wrRoReserved38 _ => (0x38, 0x3C)
  | .wrRoReserved3C _ => (0x3C, 0x3C)
  | .rdReg _ => (0x00, 0x00)
  | .hostInWrite _ _ => (0, 0)
  | .hostInRead _ => (0, 0)
  | .hostOutRead _ => (0, 0)
  | .hostOutWrite _ _ => (0, 0)
  | .header _ _ => (0, 0)
  | .treeInternal => (0x00, 0xFF)
  | .treeLeaf _ => (0x01, 0xFF)
  | .treeReserved02 _ => (0x02, 0xFE)
  | .treeReserved04 _ => (0x04, 0xFC)
  | .treeReserved08 _ => (0x08, 0xF8)
  | .treeReserved10 _ => (0x10, 0xF0)
  | .treeReserved20 _ => (0x20, 0xE0)
  | .treeReserved40 _ => (0x40, 0xC0)
  | .treeReserved80 _ => (0x80, 0x80)
  | .payloadBit0 => (0, 1)
  | .payloadBit1 => (1, 1)

/-! ### A row's word as the table numbers its bits -/

/-- Byte i of a table word: bits 8i+7 down to 8i. -/
def tableByte (w i : Nat) : Byte :=
  BitVec.ofNat 8 (w / 2 ^ (8 * i))

/-- What a table word of nbits bits is laid out as.  DESIGN CHOICE (log entry 9): the table gives rows of different formats
the same bits (WR_RO_ID, TREE_INTERNAL and PAYLOAD_BIT0 are all the byte 0), and a number does not say which space it came
from; one byte is read as a REG offset where it names a slot other than CTRL, else as a tree marker. -/
def tableCode (nbits w : Nat) : Option Code :=
  if nbits = 0 then some (.access (.regRead .word 0#32))
  else if nbits = 1 then some (.payload (decide (w % 2 = 1)))
  else if nbits ≤ 8 then
    if w % 4 = 0 ∧ w < 0x40 ∧ w ≠ 0x04 then some (encodeReg (BitVec.ofNat 32 w) 0#32)
    else some (.token [tableByte w 0, 0x00#8])
  else if nbits = 16 then some (.token [tableByte w 0, tableByte w 1])
  else if nbits = 32 then some (encodeCtrl (BitVec.ofNat 32 w))
  else if nbits = 40 then some (encodeReg (BitVec.ofNat 32 (w % 256)) (BitVec.ofNat 32 (w / 256)))
  else if nbits = 64 then
    some (.header [tableByte w 0, tableByte w 1, tableByte w 2, tableByte w 3,
      tableByte w 4, tableByte w 5, tableByte w 6, tableByte w 7])
  else none

/-- The instruction the decoder reads from a table word. -/
def decodeTableWord (nbits w : Nat) : Option Instr :=
  match tableCode nbits w with
  | none => none
  | some c =>
    match decode c with
    | .ok i => some i
    | .error _ => none

end Sys2Proof
end

