-- ==== Sys2Proof/Config.lean ====
section
/-! DEFINITION. What the spec leaves open: the values it calls "any value", and the platform's parameters. -/

namespace Sys2Proof

/-- The free byte of draw d at address a: a byte the spec calls unspecified (I15 to I18 of 93_implementation_defined.md).
Nothing constrains it.  Each event that leaves bytes unspecified takes a draw number of its own from State's counter. -/
opaque Config.freeByte (d a : Nat) : Byte

/-- BASE_REG, where a platform places the REG space: OPEN (R60). -/
opaque Config.baseReg : Nat

/-- BASE_IN, where a platform places the IN space: OPEN (R60). -/
opaque Config.baseIn : Nat

/-- BASE_OUT, where a platform places the OUT space: OPEN (R60). -/
opaque Config.baseOut : Nat

/-- IRQ_LINE, the platform's line for the block's interrupt: OPEN (R289). -/
opaque Config.irqLine : Nat

end Sys2Proof
end

