-- ==== Sys2Proof/Machine/Params.lean ====
section
/-! DEFINITION. The two implementation parameters (R5) and the constants of the register map. -/

namespace Sys2Proof.Machine

/-- IN_MAX of the block State.reset stands for.  DESIGN CHOICE (log entry 1): R5 leaves IN_MAX open between 8 and 16843009;
the machine reads it from State, so that every statement over states holds for every value. -/
def resetInMax : Word := 65536#32

/-- OUT_MAX of the block State.reset stands for.  DESIGN CHOICE (log entry 1): R5 leaves OUT_MAX open between 8 and
2^32 - 1. -/
def resetOutMax : Word := 131072#32

/-- The constant of the ID register, "HUF1" (R23). -/
def idConstant : Word := 0x48554631#32

/-- The largest IN_MAX R5 allows; 255 times it is 2^32 - 1. -/
def inMaxBound : Nat := 16843009

end Sys2Proof.Machine
end

