-- ==== Sys2Proof/Machine/State.lean ====
section
/-! DEFINITION. The state of the block, plain data: registers, engine, the two memories, and the inputs that wait. -/

namespace Sys2Proof.Machine

/-- The engine's sequencing state (R34), the analogue of a program counter. -/
inductive Phase where
  | idle
  | check
  | cCount
  | cLeaf
  | cMerge
  | cCode
  | cSize
  | cHdr
  | cTree
  | cEnc
  | dHdr
  | dTree
  | dDec
  | finish
  deriving DecidableEq, Repr

/-- The error kinds a command can end with (R270): codes 1 to 11 are FormatErrors, 12 to 14 HwErrors. -/
inductive ErrorKind where
  | fmtShortHeader
  | fmtShortTree
  | fmtBitcount
  | fmtTreePastEnd
  | fmtTreeBadMarker
  | fmtTreeOverflow
  | fmtTreeDuplicate
  | fmtTreeTrailing
  | fmtEmptyTreeBits
  | fmtBadBit
  | fmtTruncated
  | capacity
  | illegalOp
  | config
  deriving DecidableEq, Repr

/-- A memory of bytes (R61, R62).  `cells` lists the bytes that have been written, at strictly rising addresses.  Every
other address holds a byte the spec calls unspecified: the free byte of the newest layer that covers it, else of the draw
`base`.  A layer (bound, d) says that the bytes below bound were left unspecified by the event with draw number d; the
bounds of the layers strictly rise from the newest to the oldest. -/
structure Memory where
  cells  : List Host.Cell
  layers : List (Nat × Nat)
  base   : Nat
  deriving DecidableEq, Repr

/-- An entry of the node arena (R36).  The fields a node's kind does not use do not exist (I23). -/
inductive Node where
  | leaf (sym : Byte) (freq : Word)
  | internal (freq : Word) (left right : NodeIdx)
  deriving DecidableEq, Repr

/-- The host-visible registers (R24 to R33).  ID and the reserved offsets hold constants and need no storage; CTRL.START
and CTRL.SRST are pulses that read 0; IRQ is computed (R289). -/
structure Regs where
  op       : BitVec 2
  busy     : Bool
  done     : Bool
  err      : Bool
  errCode  : BitVec 4
  inLen    : Word
  outCap   : Word
  outLen   : Word
  treeLen  : Word
  bitCount : Word
  nsym     : BitVec 9
  irqEn    : Bool
  inMax    : Word
  outMax   : Word
  deriving DecidableEq, Repr

/-- The engine: PHASE (R34) and the internal register files (R35 to R42), none of them host-visible (R43). -/
structure Engine where
  phase      : Phase
  /-- The current phase's "on entry" step is still to run. -/
  entering   : Bool
  /-- The error a raise carries to FINISH (R10); none is success. -/
  pending    : Option ErrorKind
  -- tree builder and arena
  freq       : Vector Word 256
  node       : Vector Node 511
  ncount     : BitVec 10
  active     : List NodeIdx
  root       : NodeIdx
  rootValid  : Bool
  /-- The loop variable s of C_LEAF (R163); R35 to R42 list no register for it: DESIGN CHOICE (log entry 23). -/
  leafSym    : BitVec 9
  -- encoder
  /-- The code table (R40): entry s is the bit string code(s); CODE_LEN[s] is its length, 0 where s has no code. -/
  code       : Vector (List Bool) 256
  codeStack  : List (NodeIdx × List Bool)
  /-- The stack C_TREE walks with (R196); R41 lists only the code-generation stack, and no rule says which state holds
  this one: DESIGN CHOICE, a stack of its own (log entry 23). -/
  treeStack  : List NodeIdx
  iptr       : Word
  optr       : Word
  acc        : Byte
  accN       : BitVec 3
  cbit       : Byte
  bits       : Word
  kReg       : BitVec 9
  tReg       : Word
  bReg       : Word
  total      : Word
  -- decoder
  tpos       : Word
  seen       : List Byte
  parseStack : List NodeIdx
  rpos       : Word
  cur        : NodeIdx
  deriving DecidableEq, Repr

/-- What the outside does to the block, one event at a time. -/
inductive HostEvent where
  /-- One host access (R63, R64). -/
  | access (a : Access)
  /-- The notation's poll (R106): read STATUS again and again until DONE = 1. -/
  | poll
  /-- The platform asserts the reset input (R300). -/
  | hardReset
  deriving DecidableEq, Repr

/-- The two agents (R20). -/
inductive Agent where
  | host
  | engine
  deriving DecidableEq, Repr

/-- The outside as the model holds it (the MODEL's own fields): the events still to come in the order the host issues them
(R70), which agent moves when both can, and the value the last host read returned. -/
structure HostSide where
  queue    : List HostEvent
  sched    : List Agent
  readData : Word
  deriving DecidableEq, Repr

/-- The state of the machine.  `draws` counts the free values drawn so far (the MODEL's own field). -/
structure State where
  regs   : Regs
  eng    : Engine
  inMem  : Memory
  outMem : Memory
  host   : HostSide
  draws  : Nat
  deriving DecidableEq, Repr

/-- Reasons to stop with a fault.  There is none: "No behaviour of this hardware is `stuck` or `refuse`"
(93_implementation_defined.md), and an error code is an ordinary completion.  No one raises a fault, which is safe. -/
inductive Fault where
  deriving DecidableEq, Repr

/-- Reasons to refuse an instruction. -/
inductive Refusal where
  /-- Raised by `exec` alone, for an instruction that has no meaning yet; no arm answers so now.  Safe: the machine stops
  where the hardware goes on. -/
  | notModelled (mnemonic : String)
  deriving DecidableEq, Repr

/-- The registers after a reset (R300; the table of 10_state.md section 6) of a block with the given IN_MAX and OUT_MAX. -/
def Regs.atReset (inMax outMax : Word) : Regs where
  op := 0
  busy := false
  done := false
  err := false
  errCode := 0
  inLen := 0
  outCap := 0
  outLen := 0
  treeLen := 0
  bitCount := 0
  nsym := 0
  irqEn := false
  inMax := inMax
  outMax := outMax

/-- The engine after a reset: PHASE = IDLE (R300).  The internal files are unspecified and never read before they are
written (R302: "a model may give them any value"): DESIGN CHOICE, zero, false or empty (log entry 3). -/
def Engine.atReset : Engine where
  phase := .idle
  entering := true
  pending := none
  freq := Vector.replicate 256 0
  node := Vector.replicate 511 (.leaf 0 0)
  ncount := 0
  active := []
  root := 0
  rootValid := false
  leafSym := 0
  code := Vector.replicate 256 []
  codeStack := []
  treeStack := []
  iptr := 0
  optr := 0
  acc := 0
  accN := 0
  cbit := 0
  bits := 0
  kReg := 0
  tReg := 0
  bReg := 0
  total := 0
  tpos := 0
  seen := []
  parseStack := []
  rpos := 0
  cur := 0

/-- The machine right after the hard reset (R300): every register at its reset value, the engine idle, the contents of the
two memories unspecified (draw 0 for IN_MEM and draw 1 for OUT_MEM), and no event waiting. -/
def State.reset : State where
  regs := Regs.atReset resetInMax resetOutMax
  eng := Engine.atReset
  inMem := { cells := [], layers := [], base := 0 }
  outMem := { cells := [], layers := [], base := 1 }
  host := { queue := [], sched := [], readData := 0 }
  draws := 2

end Sys2Proof.Machine
end

