-- ==== Sys2Proof/Machine/Operands.lean ====
section
/-! DEFINITION. Operand forms: bytes of a memory, entries of the internal files, bits of the payload stream. -/

namespace Sys2Proof.Machine

/-! ### Bytes of a memory -/

/-- The draw number that gives the unlisted byte at address a: the newest layer covering a, else the base draw. -/
def Memory.drawAt (m : Memory) (a : Nat) : Nat :=
  match m.layers.find? (fun l => decide (a < l.1)) with
  | some l => l.2
  | none => m.base

/-- What an unlisted address reads as: a free byte, because the spec calls its contents unspecified (I15, I16, I18;
log entry 2). -/
def Memory.unlisted (m : Memory) (a : Nat) : Byte :=
  Config.freeByte (m.drawAt a) a

/-- The listed byte at address a. -/
def lookupCell : List Host.Cell → Nat → Option Byte
  | [], _ => none
  | c :: cs, a => if c.1 = a then some c.2 else lookupCell cs a

/-- The byte at address a. -/
def Memory.read (m : Memory) (a : Nat) : Byte :=
  match lookupCell m.cells a with
  | some v => v
  | none => m.unlisted a

/-- List v at address a, keeping the addresses strictly rising. -/
def insertCell : List Host.Cell → Nat → Byte → List Host.Cell
  | [], a, v => [(a, v)]
  | c :: cs, a, v =>
    if a < c.1 then (a, v) :: c :: cs
    else if a = c.1 then (a, v) :: cs
    else c :: insertCell cs a v

/-- Write v at address a. -/
def Memory.write (m : Memory) (a : Nat) (v : Byte) : Memory :=
  { m with cells := insertCell m.cells a v }

/-- Write the bytes of a list from address a on, in ascending address order. -/
def Memory.writeList (m : Memory) (a : Nat) : List Byte → Memory
  | [] => m
  | v :: vs => (m.write a v).writeList (a + 1) vs

/-- Leave every byte below bound unspecified: they take the free bytes of draw d.  Layers the new one covers are dropped. -/
def Memory.scramble (m : Memory) (bound d : Nat) : Memory :=
  if bound = 0 then m
  else
    { m with
      cells := m.cells.filter (fun c => decide (bound ≤ c.1))
      layers := (bound, d) :: m.layers.filter (fun l => decide (bound < l.1)) }

/-- A memory whose every byte is unspecified, of draw d (R300). -/
def Memory.blank (d : Nat) : Memory where
  cells := []
  layers := []
  base := d

/-- The n bytes from address a on. -/
def Memory.readList (m : Memory) (a n : Nat) : List Byte :=
  (List.range n).map (fun i => m.read (a + i))

/-- Strictly rising numbers. -/
def rising : List Nat → Bool
  | [] => true
  | [_] => true
  | a :: b :: rest => decide (a < b) && rising (b :: rest)

/-- The canonical form: the listed addresses strictly rise and so do the layers' bounds, the least of them above 0.  An
unlisted byte is a free value, so no listed byte is known to equal it. -/
def Memory.wf (m : Memory) : Bool :=
  rising (m.cells.map Prod.fst) && rising (0 :: m.layers.map Prod.fst)

/-! ### Engine memory primitives (R9) -/

/-- MemRead(a, 1). -/
def State.memRead (s : State) (a : Nat) : Byte :=
  s.inMem.read a

/-- MemWrite(a, 1, v). -/
def State.memWrite (s : State) (a : Nat) (v : Byte) : State :=
  { s with outMem := s.outMem.write a v }

/-- MemWrite(a, 4, v): the four bytes of toBE32(v) in ascending address order. -/
def State.memWrite4 (s : State) (a : Nat) (v : Word) : State :=
  { s with outMem := s.outMem.writeList a (toBE32 v) }

/-! ### Internal register files -/

/-- The index of a byte value in FREQ and in the code table. -/
def byteIdx (b : Byte) : Fin 256 :=
  ⟨b.toNat, b.isLt⟩

/-- The node index a counter value stands for.  NCOUNT is below 511 wherever an entry is allocated (R166, R232); in a
state where it is not, which no command reaches, the index is taken modulo 511 (log entry 10). -/
def nodeIdx (n : Nat) : NodeIdx :=
  Fin.ofNat 511 n

/-- Is the node a leaf? -/
def Node.isLeaf : Node → Bool
  | .leaf _ _ => true
  | .internal _ _ _ => false

/-- The symbol of a leaf; an internal node has none, and no rule reads it there (R36, log entry 10). -/
def Node.sym : Node → Byte
  | .leaf sym _ => sym
  | .internal _ _ _ => 0

/-- The frequency of a node (R36). -/
def Node.freq : Node → Word
  | .leaf _ freq => freq
  | .internal freq _ _ => freq

/-- The child reached by a bit: 0 is left, 1 is right (R102).  A leaf has none, and no rule reads it there (R237: "CUR is
always an internal node between steps"; log entry 10). -/
def Node.child : Node → Bool → NodeIdx
  | .leaf _ _, _ => 0
  | .internal _ left right, bit => if bit then right else left

/-- Set the child reached by a bit. -/
def Node.setChild : Node → Bool → NodeIdx → Node
  | .leaf sym freq, _, _ => .leaf sym freq
  | .internal freq left right, bit, i => if bit then .internal freq left i else .internal freq i right

/-- NODE[i]. -/
def Engine.nodeAt (e : Engine) (i : NodeIdx) : Node :=
  e.node.get i

/-- NODE[i] <- n. -/
def Engine.setNode (e : Engine) (i : NodeIdx) (n : Node) : Engine :=
  { e with node := e.node.set i.val n i.isLt }

/-- FREQ[s]. -/
def Engine.freqAt (e : Engine) (sym : Byte) : Word :=
  e.freq.get (byteIdx sym)

/-- code(s). -/
def Engine.codeAt (e : Engine) (sym : Byte) : List Bool :=
  e.code.get (byteIdx sym)

/-- CODE_LEN[s] <- |p|; CODE_BITS[s][0 .. |p|-1] <- p. -/
def Engine.setCode (e : Engine) (sym : Byte) (p : List Bool) : Engine :=
  { e with code := e.code.set (byteIdx sym).val p (byteIdx sym).isLt }

/-! ### The payload stream (R7, R68) -/

/-- Stream position j of a region is bit 7 - (j mod 8) of its byte j div 8: the bit taken from that byte. -/
def streamBit (y : Byte) (j : Nat) : Bool :=
  y.getLsbD (7 - j % 8)

/-- ceil(a / 8) (R8). -/
def ceilDiv8 (a : Nat) : Nat :=
  (a + 7) / 8

/-- v with bit 7 - n set to b (R197: ACC[7 - ACC_N] <- bit). -/
def setStreamBit (v : Byte) (n : Nat) (b : Bool) : Byte :=
  let mask := 0x80#8 >>> n
  if b then v ||| mask else v &&& ~~~mask

end Sys2Proof.Machine
end

