-- ==== Sys2Proof/Machine/Flags.lean ====
section
/-! DEFINITION. The status flags: error codes, the STATUS and CTRL words, the IRQ output, and what sets and clears the flags. -/

namespace Sys2Proof.Machine

/-- The error codes (R270). -/
def ErrorKind.code : ErrorKind → BitVec 4
  | .fmtShortHeader => 1
  | .fmtShortTree => 2
  | .fmtBitcount => 3
  | .fmtTreePastEnd => 4
  | .fmtTreeBadMarker => 5
  | .fmtTreeOverflow => 6
  | .fmtTreeDuplicate => 7
  | .fmtTreeTrailing => 8
  | .fmtEmptyTreeBits => 9
  | .fmtBadBit => 10
  | .fmtTruncated => 11
  | .capacity => 12
  | .illegalOp => 13
  | .config => 14

/-- OP = 0b01, COMPRESS (R92). -/
def opCompress : BitVec 2 := 0b01#2

/-- OP = 0b10, DECOMPRESS (R92). -/
def opDecompress : BitVec 2 := 0b10#2

/-- A flag as bit 0 of a word. -/
def bitOf (b : Bool) : Word :=
  if b then 1 else 0

/-- What a read of STATUS gives: ERR_CODE in [7:4], ERR in [2], DONE in [1], BUSY in [0] (R25). -/
def Regs.statusWord (r : Regs) : Word :=
  r.errCode.setWidth 32 <<< 4 ||| bitOf r.err <<< 2 ||| bitOf r.done <<< 1 ||| bitOf r.busy

/-- What a read of CTRL gives: zext_32(OP) << 1 (R24). -/
def Regs.ctrlWord (r : Regs) : Word :=
  r.op.setWidth 32 <<< 1

/-- What a read of IRQ_EN gives: EN in [0] (R32). -/
def Regs.irqEnWord (r : Regs) : Word :=
  bitOf r.irqEn

/-- The interrupt output: STATUS.DONE AND IRQ_EN.EN (R289). -/
def Regs.irq (r : Regs) : Bool :=
  r.done && r.irqEn

/-- The flags a START acceptance writes: BUSY set; DONE, ERR and ERR_CODE cleared (R131). -/
def Regs.acceptFlags (r : Regs) : Regs :=
  { r with busy := true, done := false, err := false, errCode := 0 }

/-- The flags FINISH writes: BUSY cleared, DONE set, ERR and ERR_CODE by the error or its absence (R147, R148). -/
def Regs.finishFlags (r : Regs) : Option ErrorKind → Regs
  | none => { r with busy := false, done := true, err := false, errCode := 0 }
  | some k => { r with busy := false, done := true, err := true, errCode := k.code }

/-- The result registers FINISH writes (R147, R148). -/
def Regs.setResults (r : Regs) (outLen treeLen bitCount : Word) (nsym : BitVec 9) : Regs :=
  { r with outLen := outLen, treeLen := treeLen, bitCount := bitCount, nsym := nsym }

/-- Clear STATUS.DONE alone: ERR and ERR_CODE keep their values (R136). -/
def Regs.clearDone (r : Regs) : Regs :=
  { r with done := false }

/-- The value of the register at a REG offset: R23 to R33; a reserved, misaligned or absent offset reads 0 (R33, R63). -/
def Regs.read (r : Regs) (off : Nat) : Word :=
  match off with
  | 0x00 => idConstant
  | 0x04 => r.ctrlWord
  | 0x08 => r.statusWord
  | 0x0C => r.inLen
  | 0x10 => r.outCap
  | 0x14 => r.outLen
  | 0x18 => r.treeLen
  | 0x1C => r.bitCount
  | 0x20 => r.nsym.setWidth 32
  | 0x24 => r.irqEnWord
  | 0x28 => r.inMax
  | 0x2C => r.outMax
  | _ => 0

end Sys2Proof.Machine
end

