-- ==== Sys2Proof/Machine/Ops.lean ====
section
/-! DEFINITION. The named operations the meanings share: moving between phases, raising an error (the analogue of taking an
exception) and finishing, accepting a START, the two resets, the host's accesses to the spaces, and the node arena. -/

namespace Sys2Proof.Machine

/-! ### Sequencing (R34, R150) -/

/-- phase <- p: the next step is p's entry step. -/
def State.goto (s : State) (p : Phase) : State :=
  { s with eng := { s.eng with phase := p, entering := true } }

/-- raise (R10): no later step of the command runs; the next step is FINISH with this error (R286). -/
def State.raise (s : State) (k : ErrorKind) : State :=
  { s with eng := { s.eng with phase := .finish, entering := true, pending := some k } }

/-- The command's work is done: the next step is FINISH after success. -/
def State.succeed (s : State) : State :=
  { s with eng := { s.eng with phase := .finish, entering := true, pending := none } }

/-! ### Completion (R147, R148, R286, R287) -/

/-- Was the error found after bytes may have been written?  Codes 10 and 11, and CAPACITY in DECOMPRESS (R287). -/
def leavesOutputOpen (op : BitVec 2) : Option ErrorKind → Bool
  | some .fmtBadBit => true
  | some .fmtTruncated => true
  | some .capacity => decide (op = opDecompress)
  | _ => false

/-- The number of bytes a successful command wrote: TOTAL for COMPRESS (R200), OPTR for DECOMPRESS (R240). -/
def State.resultLen (s : State) : Word :=
  if s.regs.op = opCompress then s.eng.total else s.eng.optr

/-- The number of leaves: K_REG for COMPRESS (R200), |SEEN| for DECOMPRESS (R241). -/
def State.resultNsym (s : State) : BitVec 9 :=
  if s.regs.op = opCompress then s.eng.kReg else BitVec.ofNat 9 s.eng.seen.length

/-- The result registers FINISH writes: the results after success (R147), 0 after an error (R148). -/
def State.publish (s : State) : Regs :=
  match s.eng.pending with
  | none => s.regs.setResults s.resultLen s.eng.tReg s.eng.bReg s.resultNsym
  | some _ => s.regs.setResults 0 0 0 0

/-- Leave OUT_MEM[0 .. OUT_CAP-1] unspecified: a fresh draw (I15, I16). -/
def State.scrambleOut (s : State) : State :=
  { s with outMem := s.outMem.scramble s.regs.outCap.toNat s.draws, draws := s.draws + 1 }

/-- FINISH, one atomic step: publish the results, set the flags, return to IDLE (R147, R148); after an error found in D_DEC
the output is unspecified below OUT_CAP (R287). -/
def State.finish (s : State) : State :=
  let t := if leavesOutputOpen s.regs.op s.eng.pending then s.scrambleOut else s
  { t with regs := s.publish.finishFlags s.eng.pending, eng := { s.eng with phase := .idle, entering := true } }

/-! ### Commands -/

/-- START acceptance (R131): ignored while BUSY (R308). -/
def State.start (s : State) (op : BitVec 2) : State :=
  if s.regs.busy then s
  else
    { s with
      regs := { s.regs.acceptFlags with op := op }
      eng := { s.eng with phase := .check, entering := true, pending := none } }

/-- Soft reset (R301): registers, PHASE and IRQ as after a hard reset; IN_MEM is kept; OUT_MEM is kept if the block was not
BUSY, else it is unspecified below the old OUT_CAP. -/
def State.softReset (s : State) : State :=
  let t := if s.regs.busy then s.scrambleOut else s
  { t with regs := Regs.atReset s.regs.inMax s.regs.outMax, eng := Engine.atReset }

/-- Hard reset (R300): registers and PHASE at their reset values, both memories unspecified.  What waits outside the block
(the host's events) is no part of it and stays. -/
def State.hardReset (s : State) : State :=
  { s with
    regs := Regs.atReset s.regs.inMax s.regs.outMax
    eng := Engine.atReset
    inMem := Memory.blank s.draws
    outMem := Memory.blank (s.draws + 1)
    draws := s.draws + 2 }

/-! ### Host accesses -/

/-- A host read returns v to the host. -/
def State.answer (s : State) (v : Word) : State :=
  { s with host := { s.host with readData := v } }

/-- The value HostRegRead(off) returns (R63, R140). -/
def State.regRead (s : State) (off : Nat) : Word :=
  s.regs.read off

/-- A register write that is ignored while BUSY (R305). -/
def State.writeIdle (s : State) (r : Regs) : State :=
  if s.regs.busy then s else { s with regs := r }

/-- HostInWrite(a, v) (R64, R65): dropped while BUSY and out of range. -/
def State.hostInWrite (s : State) (a : Nat) (v : Byte) : State :=
  { s with
    inMem := if decide (a < s.regs.inMax.toNat) && !s.regs.busy then s.inMem.write a v else s.inMem }

/-- The value HostInRead(a) returns (R64): 0 out of range. -/
def State.hostInRead (s : State) (a : Nat) : Byte :=
  if a < s.regs.inMax.toNat then s.inMem.read a else 0

/-- The value HostOutRead(a) returns: 0 out of range (R64); while BUSY a fresh free byte (R65, I17). -/
def State.hostOutRead (s : State) (a : Nat) : Byte :=
  if a < s.regs.outMax.toNat then
    if s.regs.busy then Config.freeByte s.draws a else s.outMem.read a
  else 0

/-- A read of OUT while BUSY uses up a draw, so that each read is a fresh one (R65). -/
def State.spendOutDraw (s : State) (a : Nat) : State :=
  { s with draws := if decide (a < s.regs.outMax.toNat) && s.regs.busy then s.draws + 1 else s.draws }

/-- A host access that reaches no register: a read returns 0, a write has no effect (R63). -/
def State.nullAccess (s : State) : Access → State
  | .regRead _ _ => s.answer 0
  | .inRead _ => s.answer 0
  | .outRead _ => s.answer 0
  | .regWrite _ _ _ => s
  | .inWrite _ _ => s
  | .outWrite _ _ => s

/-! ### The node arena -/

/-- Allocate the next entry of the arena and put n there (R163, R165, R232): the engine afterwards.  The entry's index is
`e.nextIdx`. -/
def Engine.nextIdx (e : Engine) : NodeIdx :=
  nodeIdx e.ncount.toNat

/-- NODE[NCOUNT] <- n; NCOUNT <- NCOUNT + 1. -/
def Engine.alloc (e : Engine) (n : Node) : Engine :=
  { e.setNode e.nextIdx n with ncount := e.ncount + 1 }

/-- Hang the entry i, just allocated, under the internal node on top of the deserialisation stack.  Tokens come in
pre-order (R95), so the left child is the entry right after its parent; any other entry is the right child, and the parent
is then complete. -/
def Engine.attach (e : Engine) (i : NodeIdx) : Engine :=
  match e.parseStack with
  | [] => e
  | p :: rest =>
    if i.val = p.val + 1 then e.setNode p ((e.nodeAt p).setChild false i)
    else { e.setNode p ((e.nodeAt p).setChild true i) with parseStack := rest }

/-- The root's subtree is complete: a node exists and no internal node waits for a child. -/
def Engine.parsed (e : Engine) : Bool :=
  decide (e.ncount ≠ 0) && e.parseStack.isEmpty

/-- The next output byte would lie at or beyond OUT_CAP (R239). -/
def State.outFull (s : State) : Bool :=
  decide (s.regs.outCap.toNat ≤ s.eng.optr.toNat)

/-- Emit(s) (R239): CAPACITY when the byte would lie at or beyond OUT_CAP. -/
def State.emit (s : State) (sym : Byte) : State :=
  if s.outFull then s.raise .capacity
  else
    let t := s.memWrite s.eng.optr.toNat sym
    { t with eng := { t.eng with optr := t.eng.optr + 1 } }

end Sys2Proof.Machine
end

