-- ==== Sys2Proof/Machine/Buffers.lean ====
section
/-! DEFINITION. The meanings of the BUF_BYTE rows: host accesses to the IN and OUT spaces (R64, R65, R142). -/

namespace Sys2Proof.Machine

/-- HostInWrite(a, v): IN_MEM[a] <- v where a < IN_MAX and the block is not BUSY (R64, R65). -/
def execHostInWrite (a : Nat) (v : Byte) (s : State) : Host.Outcome State Fault Refusal :=
  .next (s.hostInWrite a v)

/-- HostInRead(a): IN_MEM[a], BUSY or not; 0 out of range (R64, R65). -/
def execHostInRead (a : Nat) (s : State) : Host.Outcome State Fault Refusal :=
  .next (s.answer ((s.hostInRead a).setWidth 32))

/-- HostOutRead(a): OUT_MEM[a]; any value while BUSY; 0 out of range (R64, R65). -/
def execHostOutRead (a : Nat) (s : State) : Host.Outcome State Fault Refusal :=
  .next ((s.spendOutDraw a).answer ((s.hostOutRead a).setWidth 32))

/-- HostOutWrite(a, v): no effect (R64). -/
def execHostOutWrite (_a : Nat) (_v : Byte) (s : State) : Host.Outcome State Fault Refusal :=
  .next s

end Sys2Proof.Machine
end

