-- ==== Sys2Proof/Machine/Commands.lean ====
section
/-! DEFINITION. The meanings of the CTRL_WORD rows: writes to CTRL (R130 to R135). -/

namespace Sys2Proof.Machine

/-- SRST (R135): the soft reset, at any time; every other bit of the word is ignored. -/
def execSrst (_ign : BitVec 31) (s : State) : Host.Outcome State Fault Refusal :=
  .next s.softReset

/-- SETOP (R130): CTRL.OP <- v[2:1] unless BUSY. -/
def execSetop (op : BitVec 2) (_ign : BitVec 28) (s : State) : Host.Outcome State Fault Refusal :=
  .next (s.writeIdle { s.regs with op := op })

/-- START with OP = 0b00 (R134): accepted like any START (R131); CHECK then reports ILLEGAL_OP. -/
def execStartIllegalOp00 (_ign : BitVec 28) (s : State) : Host.Outcome State Fault Refusal :=
  .next (s.start 0b00#2)

/-- COMPRESS (R132): START acceptance (R131); the engine then runs the command. -/
def execStartCompress (_ign : BitVec 28) (s : State) : Host.Outcome State Fault Refusal :=
  .next (s.start opCompress)

/-- DECOMPRESS (R133): START acceptance (R131); the engine then runs the command. -/
def execStartDecompress (_ign : BitVec 28) (s : State) : Host.Outcome State Fault Refusal :=
  .next (s.start opDecompress)

/-- START with OP = 0b11 (R134): accepted like any START (R131); CHECK then reports ILLEGAL_OP. -/
def execStartIllegalOp11 (_ign : BitVec 28) (s : State) : Host.Outcome State Fault Refusal :=
  .next (s.start 0b11#2)

end Sys2Proof.Machine
end

