-- ==== Sys2Proof/Machine/Stream.lean ====
section
/-! DEFINITION. The meanings of the rows the engine itself reads from the compressed buffer: the header in D_HDR (R230), a
tree token in D_TREE (R232, R233), a payload bit in D_DEC (R236 to R239).  Machine/Decoder.lean says when each is read. -/

namespace Sys2Proof.Machine

/-! ### HDR64 -/

/-- The part of D_HDR after the read of the header: T_REG and B_REG are loaded, then checks 2 and 3, exact over the
naturals (R230). -/
def State.header (s : State) (t b : Word) : State :=
  let u := { s with eng := { s.eng with tReg := t, bReg := b } }
  if s.regs.inLen.toNat - 8 < t.toNat then u.raise .fmtShortTree
  else if 8 * (s.regs.inLen.toNat - 8 - t.toNat) < b.toNat then u.raise .fmtBitcount
  else u.goto .dTree

/-- HEADER (R94, R230). -/
def execHeader (t b : Word) (s : State) : Host.Outcome State Fault Refusal :=
  .next (s.header t b)

/-! ### TREE_TOKEN -/

/-- What ParseNode does with a token that passes its checks (R232): allocate the next entry, hang it under its parent, and
pass the marker byte. -/
def State.openNode (s : State) (n : Node) : State :=
  let e := s.eng.attach s.eng.nextIdx
  { s with eng := { e.alloc n with tpos := s.eng.tpos + 1 } }

/-- The part of ParseNode before a leaf's symbol byte: NCOUNT and TPOS pass the marker; no entry is written yet (R232). -/
def State.passMarker (s : State) : State :=
  { s with eng := { s.eng with ncount := s.eng.ncount + 1, tpos := s.eng.tpos + 1 } }

/-- Token INTERNAL (R96, R232): its two children are parsed next.  The entry's frequency is 0 and so are its children until
they are parsed: DESIGN CHOICE (log entry 21); R36 gives freq to COMPRESS only. -/
def State.tokenInternal (s : State) : State :=
  if s.eng.ncount = 511 then s.raise .fmtTreeOverflow
  else
    let t := s.openNode (.internal 0 0 0)
    { t with eng := { t.eng with parseStack := s.eng.nextIdx :: t.eng.parseStack } }

/-- The symbol byte of a leaf whose marker is at TPOS would lie at or beyond T. -/
def State.symbolOutside (s : State) : Bool :=
  decide (s.eng.tReg.toNat ≤ s.eng.tpos.toNat + 1)

/-- A leaf marker whose symbol byte would lie at or beyond T: the byte is not read (R232; R285: code 6 before code 4). -/
def State.leafPastEnd (s : State) : State :=
  if s.eng.ncount = 511 then s.raise .fmtTreeOverflow else s.passMarker.raise .fmtTreePastEnd

/-- Token LEAF (R97, R232): after the marker the symbol byte must lie below T (code 4) and be new (code 7).  The entry's
frequency is 0: DESIGN CHOICE (log entry 21); R36 gives freq to COMPRESS only. -/
def State.tokenLeaf (s : State) (sym : Byte) : State :=
  if s.symbolOutside then s.leafPastEnd
  else if s.eng.ncount = 511 then s.raise .fmtTreeOverflow
  else if sym ∈ s.eng.seen then
    let t := s.passMarker
    { t with eng := { t.eng with tpos := t.eng.tpos + 1 } }.raise .fmtTreeDuplicate
  else
    let t := s.openNode (.leaf sym 0)
    { t with eng := { t.eng with tpos := t.eng.tpos + 1, seen := sym :: t.eng.seen } }

/-- A marker that is neither 0x00 nor 0x01: FMT_TREE_BAD_MARKER (R98, R232). -/
def State.tokenReserved (s : State) : State :=
  s.raise .fmtTreeBadMarker

/-- TREE_INTERNAL. -/
def execTreeInternal (s : State) : Host.Outcome State Fault Refusal :=
  .next s.tokenInternal

/-- TREE_LEAF. -/
def execTreeLeaf (sym : Byte) (s : State) : Host.Outcome State Fault Refusal :=
  .next (s.tokenLeaf sym)

/-- TREE_RESERVED_02_03. -/
def execTreeReserved02 (_low : BitVec 1) (s : State) : Host.Outcome State Fault Refusal :=
  .next s.tokenReserved

/-- TREE_RESERVED_04_07. -/
def execTreeReserved04 (_low : BitVec 2) (s : State) : Host.Outcome State Fault Refusal :=
  .next s.tokenReserved

/-- TREE_RESERVED_08_0F. -/
def execTreeReserved08 (_low : BitVec 3) (s : State) : Host.Outcome State Fault Refusal :=
  .next s.tokenReserved

/-- TREE_RESERVED_10_1F. -/
def execTreeReserved10 (_low : BitVec 4) (s : State) : Host.Outcome State Fault Refusal :=
  .next s.tokenReserved

/-- TREE_RESERVED_20_3F. -/
def execTreeReserved20 (_low : BitVec 5) (s : State) : Host.Outcome State Fault Refusal :=
  .next s.tokenReserved

/-- TREE_RESERVED_40_7F. -/
def execTreeReserved40 (_low : BitVec 6) (s : State) : Host.Outcome State Fault Refusal :=
  .next s.tokenReserved

/-- TREE_RESERVED_80_FF. -/
def execTreeReserved80 (_low : BitVec 7) (s : State) : Host.Outcome State Fault Refusal :=
  .next s.tokenReserved

/-! ### PAYLOAD_BIT -/

/-- DecodeStep(bit) (R237): descend; at a leaf emit its symbol and then, unless Emit raised, go back to the root. -/
def State.decodeStep (s : State) (bit : Bool) : State :=
  let c := (s.eng.nodeAt s.eng.cur).child bit
  let t := { s with eng := { s.eng with cur := c } }
  match s.eng.nodeAt c with
  | .leaf sym _ =>
    let u := t.emit sym
    if t.outFull then u else { u with eng := { u.eng with cur := s.eng.root } }
  | .internal _ _ _ => t

/-- DecodeOneLeaf(bit) (R238): the root is a leaf; 0 is its whole code, 1 is no code. -/
def State.decodeOneLeaf (s : State) (bit : Bool) : State :=
  if bit then s.raise .fmtBadBit else s.emit (s.eng.nodeAt s.eng.root).sym

/-- What D_DEC does with a payload bit it has read (R236). -/
def State.payloadBit (s : State) (bit : Bool) : State :=
  let t := { s with eng := { s.eng with rpos := s.eng.rpos + 1 } }
  if (s.eng.nodeAt s.eng.root).isLeaf then t.decodeOneLeaf bit else t.decodeStep bit

/-- PAYLOAD_BIT0. -/
def execPayloadBit0 (s : State) : Host.Outcome State Fault Refusal :=
  .next (s.payloadBit false)

/-- PAYLOAD_BIT1. -/
def execPayloadBit1 (s : State) : Host.Outcome State Fault Refusal :=
  .next (s.payloadBit true)

end Sys2Proof.Machine
end

