-- ==== Sys2Proof/Machine/Decoder.lean ====
section
/-! DEFINITION. The decoder's phases D_HDR, D_TREE and D_DEC (R230, R232, R236): what each step reads from IN_MEM, and the
entry and end steps that read nothing.  What a header, a token or a payload bit does is in Machine/Stream.lean. -/

namespace Sys2Proof.Machine

/-- The eight header bytes IN_MEM[0..7] (R230). -/
def State.headerCode (s : State) : Code :=
  .header (s.inMem.readList 0 8)

/-- The marker byte at tree offset TPOS (R232). -/
def State.markerByte (s : State) : Byte :=
  s.memRead (8 + s.eng.tpos.toNat)

/-- The marker is a leaf's and its symbol byte would lie at or beyond T. -/
def State.leafCut (s : State) : Bool :=
  decide (s.markerByte = 0x01#8) && s.symbolOutside

/-- The token at tree offset TPOS: its marker byte and, after a leaf's marker alone, the symbol byte (R103, R232). -/
def State.tokenCode (s : State) : Code :=
  .token (s.markerByte ::
    if s.markerByte = 0x01#8 then [s.memRead (8 + s.eng.tpos.toNat + 1)] else [])

/-- The payload bit at stream position RPOS (R236). -/
def State.bitCode (s : State) : Code :=
  .payload (streamBit (s.memRead (8 + s.eng.tReg.toNat + s.eng.rpos.toNat / 8)) s.eng.rpos.toNat)

/-- D_TREE's entry (R232): T = 0 is the empty tree (R235). -/
def State.parseEntry (s : State) : State :=
  let t := { s with eng := { s.eng with
    entering := false, tpos := 0, ncount := 0, seen := [], parseStack := [] } }
  if s.eng.tReg = 0 then { t with eng := { t.eng with rootValid := false } }.goto .dDec else t

/-- D_TREE's end, once the root's subtree is complete (R232, R234): ParseNode returned index 0.
DESIGN CHOICE (log entry 4): the end is a step of its own after the last token's, the leaving step of R311. -/
def State.parseEnd (s : State) : State :=
  let t := { s with eng := { s.eng with root := 0, rootValid := true } }
  if s.eng.tpos = s.eng.tReg then t.goto .dDec else t.raise .fmtTreeTrailing

/-- D_DEC's entry (R236): the empty tree is legal only without payload bits (R235). -/
def State.decEntry (s : State) : State :=
  let t := { s with eng := { s.eng with entering := false, rpos := 0, optr := 0 } }
  if s.eng.rootValid then { t with eng := { t.eng with cur := s.eng.root } }
  else if s.eng.bReg = 0 then t.succeed
  else t.raise .fmtEmptyTreeBits

/-- D_DEC's end (R240). -/
def State.decEnd (s : State) : State :=
  if s.eng.cur = s.eng.root then s.succeed else s.raise .fmtTruncated

end Sys2Proof.Machine
end

