-- ==== Sys2Proof/Machine/Encoder.lean ====
section
/-! DEFINITION. The encoder's phases C_CODE, C_SIZE, C_HDR, C_TREE and C_ENC (R190 to R197). -/

namespace Sys2Proof.Machine

/-- C_CODE's entry (R190): clear the code table; no tree and a one-leaf tree end the phase at once (R191). -/
def State.codeEntry (s : State) : State :=
  let t := { s with eng := { s.eng with entering := false, code := Vector.replicate 256 [] } }
  if s.eng.rootValid then
    match s.eng.nodeAt s.eng.root with
    | .leaf sym _ => { t with eng := t.eng.setCode sym [false] }.goto .cSize
    | .internal _ _ _ => { t with eng := { t.eng with codeStack := [(s.eng.root, [])] } }
  else t.goto .cSize

/-- C_CODE (R190), one node a step: 'go left' appends a 0 bit and 'go right' a 1 bit. -/
def State.codeStep (s : State) : State :=
  if s.eng.entering then s.codeEntry
  else
    match s.eng.codeStack with
    | [] => s.goto .cSize
    | (n, p) :: rest =>
      match s.eng.nodeAt n with
      | .leaf sym _ => { s with eng := { s.eng.setCode sym p with codeStack := rest } }
      | .internal _ left right =>
        { s with eng := { s.eng with codeStack := (left, p ++ [false]) :: (right, p ++ [true]) :: rest } }

/-- The sum over all byte values of FREQ[s] * CODE_LEN[s], exact (R194). -/
def Engine.payloadBits (e : Engine) : Nat :=
  ((List.range 256).map (fun n =>
    (e.freqAt (BitVec.ofNat 8 n)).toNat * (e.codeAt (BitVec.ofNat 8 n)).length)).sum

/-- The length of the serialized tree of k leaves (R99, R194). -/
def treeLenOf (k : Nat) : Nat :=
  if k = 0 then 0 else 3 * k - 1

/-- C_SIZE (R194), one step: B_REG, T_REG, TOTAL, and the capacity check before any write. -/
def State.sizeStep (s : State) : State :=
  let b := s.eng.payloadBits
  let t := treeLenOf s.eng.kReg.toNat
  let total := 8 + t + ceilDiv8 b
  let u := { s with eng := { s.eng with
    bReg := BitVec.ofNat 32 b, tReg := BitVec.ofNat 32 t, total := BitVec.ofNat 32 total } }
  if s.regs.outCap.toNat < total then u.raise .capacity else u.goto .cHdr

/-- C_HDR (R195), one step: the two header fields, big-endian. -/
def State.hdrStep (s : State) : State :=
  ((s.memWrite4 0 s.eng.tReg).memWrite4 4 s.eng.bReg).goto .cTree

/-- C_TREE (R196), one node a step: the tokens of the tree in pre-order, walked with a stack of its own (log entry 23). -/
def State.treeStep (s : State) : State :=
  if s.eng.entering then
    let t := { s with eng := { s.eng with entering := false, optr := 8 } }
    if s.eng.rootValid then { t with eng := { t.eng with treeStack := [s.eng.root] } } else t.goto .cEnc
  else
    match s.eng.treeStack with
    | [] => s.goto .cEnc
    | n :: rest =>
      match s.eng.nodeAt n with
      | .leaf sym _ =>
        let t := (s.memWrite s.eng.optr.toNat 0x01#8).memWrite (s.eng.optr.toNat + 1) sym
        { t with eng := { s.eng with optr := s.eng.optr + 2, treeStack := rest } }
      | .internal _ left right =>
        let t := s.memWrite s.eng.optr.toNat 0x00#8
        { t with eng := { s.eng with optr := s.eng.optr + 1, treeStack := left :: right :: rest } }

/-- CODE_BITS[s][CBIT].  Bits at and beyond CODE_LEN[s] are never read (R40, R192; log entry 10). -/
def Engine.codeBit (e : Engine) (sym : Byte) : Bool :=
  (e.codeAt sym).getD e.cbit.toNat false

/-- The code bit pointer after a bit of sym's code: the next bit, or the first bit of the next input byte (R197). -/
def Engine.nextCodeBit (e : Engine) (sym : Byte) : Engine :=
  if e.cbit.toNat + 1 = (e.codeAt sym).length then { e with cbit := 0, iptr := e.iptr + 1 }
  else { e with cbit := e.cbit + 1 }

/-- Write the accumulator at OPTR and move OPTR on; ACC and ACC_N keep their values (R197). -/
def State.writeAcc (s : State) : State :=
  let t := s.memWrite s.eng.optr.toNat s.eng.acc
  { t with eng := { s.eng with optr := s.eng.optr + 1 } }

/-- Write a full accumulator and empty it (R197). -/
def State.flushAcc (s : State) : State :=
  let t := s.writeAcc
  { t with eng := { t.eng with acc := 0, accN := 0 } }

/-- One bit into the accumulator, MSB first; a full byte is written (R197). -/
def State.packBit (s : State) (bit : Bool) : State :=
  let t := { s with eng := { s.eng with
    acc := setStreamBit s.eng.acc s.eng.accN.toNat bit, bits := s.eng.bits + 1 } }
  if s.eng.accN = 7 then t.flushAcc
  else { t with eng := { t.eng with accN := s.eng.accN + 1 } }

/-- C_ENC (R197), one payload bit a step, then one flush step, which leaves ACC and ACC_N alone (V-C17, row "flush"). -/
def State.encStep (s : State) : State :=
  if s.eng.entering then
    { s with eng := { s.eng with
      entering := false, iptr := 0, cbit := 0, acc := 0, accN := 0, bits := 0, optr := 8 + s.eng.tReg } }
  else if s.eng.iptr.toNat < s.regs.inLen.toNat then
    let sym := s.memRead s.eng.iptr.toNat
    let t := s.packBit (s.eng.codeBit sym)
    { t with eng := t.eng.nextCodeBit sym }
  else (if s.eng.accN = 0 then s else s.writeAcc).succeed

end Sys2Proof.Machine
end

