-- ==== Sys2Proof/Machine/Registers.lean ====
section
/-! DEFINITION. The meanings of the REG_WRITE and REG_READ rows (R136 to R141). -/

namespace Sys2Proof.Machine

/-- CLRDONE, a write to STATUS (R136): STATUS.DONE <- 0 where v[1] = 1, unless BUSY. -/
def execClrDone (v : Word) (s : State) : Host.Outcome State Fault Refusal :=
  .next (s.writeIdle (if v.getLsbD 1 then s.regs.clearDone else s.regs))

/-- WRITE IN_LEN (R137): any 32-bit value, unless BUSY. -/
def execWrInLen (v : Word) (s : State) : Host.Outcome State Fault Refusal :=
  .next (s.writeIdle { s.regs with inLen := v })

/-- WRITE OUT_CAP (R138): any 32-bit value, unless BUSY. -/
def execWrOutCap (v : Word) (s : State) : Host.Outcome State Fault Refusal :=
  .next (s.writeIdle { s.regs with outCap := v })

/-- WRITE IRQ_EN (R139): IRQ_EN.EN <- v[0], at any time. -/
def execWrIrqEn (v : Word) (s : State) : Host.Outcome State Fault Refusal :=
  .next { s with regs := { s.regs with irqEn := v.getLsbD 0 } }

/-- Write to ID: no effect (R141). -/
def execWrRoId (_v : Word) (s : State) : Host.Outcome State Fault Refusal :=
  .next s

/-- Write to OUT_LEN: no effect (R141). -/
def execWrRoOutLen (_v : Word) (s : State) : Host.Outcome State Fault Refusal :=
  .next s

/-- Write to TREE_LEN: no effect (R141). -/
def execWrRoTreeLen (_v : Word) (s : State) : Host.Outcome State Fault Refusal :=
  .next s

/-- Write to BIT_COUNT: no effect (R141). -/
def execWrRoBitCount (_v : Word) (s : State) : Host.Outcome State Fault Refusal :=
  .next s

/-- Write to NSYM: no effect (R141). -/
def execWrRoNsym (_v : Word) (s : State) : Host.Outcome State Fault Refusal :=
  .next s

/-- Write to PARAM_IN_MAX: no effect (R141). -/
def execWrRoParamInMax (_v : Word) (s : State) : Host.Outcome State Fault Refusal :=
  .next s

/-- Write to PARAM_OUT_MAX: no effect (R141). -/
def execWrRoParamOutMax (_v : Word) (s : State) : Host.Outcome State Fault Refusal :=
  .next s

/-- Write to the reserved offset 0x30: no effect (R141). -/
def execWrRoReserved30 (_v : Word) (s : State) : Host.Outcome State Fault Refusal :=
  .next s

/-- Write to the reserved offset 0x34: no effect (R141). -/
def execWrRoReserved34 (_v : Word) (s : State) : Host.Outcome State Fault Refusal :=
  .next s

/-- Write to the reserved offset 0x38: no effect (R141). -/
def execWrRoReserved38 (_v : Word) (s : State) : Host.Outcome State Fault Refusal :=
  .next s

/-- Write to the reserved offset 0x3C: no effect (R141). -/
def execWrRoReserved3C (_v : Word) (s : State) : Host.Outcome State Fault Refusal :=
  .next s

/-- REGISTER READ (R140): the register's value goes to the host; no side effect. -/
def execRdReg (off : Word) (s : State) : Host.Outcome State Fault Refusal :=
  .next (s.answer (s.regRead off.toNat))

end Sys2Proof.Machine
end

