-- ==== Sys2Proof/Machine/TreeBuilder.lean ====
section
/-! DEFINITION. The engine's phases CHECK (R146) and the tree builder's C_COUNT, C_LEAF and C_MERGE (R160 to R168). -/

namespace Sys2Proof.Machine

/-- CHECK (R146): ILLEGAL_OP first, then CONFIG, then the command's first phase. -/
def State.checkStep (s : State) : State :=
  if s.regs.op ≠ opCompress ∧ s.regs.op ≠ opDecompress then s.raise .illegalOp
  else if s.regs.inMax.toNat < s.regs.inLen.toNat ∨ s.regs.outMax.toNat < s.regs.outCap.toNat then s.raise .config
  else s.goto (if s.regs.op = opCompress then .cCount else .dHdr)

/-- FREQ[s] <- FREQ[s] + 1. -/
def Engine.countSym (e : Engine) (sym : Byte) : Engine :=
  { e with freq := e.freq.set (byteIdx sym).val (e.freqAt sym + 1) (byteIdx sym).isLt }

/-- C_COUNT (R160): on entry clear FREQ; then count one input byte a step. -/
def State.countStep (s : State) : State :=
  if s.eng.entering then
    { s with eng := { s.eng with entering := false, freq := Vector.replicate 256 0, iptr := 0 } }
  else if s.eng.iptr.toNat < s.regs.inLen.toNat then
    { s with eng := { s.eng.countSym (s.memRead s.eng.iptr.toNat) with iptr := s.eng.iptr + 1 } }
  else s.goto .cLeaf

/-- One leaf, put into ACTIVE (R163). -/
def Engine.addLeaf (e : Engine) (sym : Byte) : Engine :=
  { e.alloc (.leaf sym (e.freqAt sym)) with active := e.active ++ [e.nextIdx] }

/-- C_LEAF (R163): on entry empty the arena; then one byte value a step, in ascending order; at the end K_REG <- NCOUNT. -/
def State.leafStep (s : State) : State :=
  if s.eng.entering then
    { s with eng := { s.eng with entering := false, ncount := 0, active := [], leafSym := 0 } }
  else if s.eng.leafSym.toNat < 256 then
    let sym := s.eng.leafSym.setWidth 8
    let e := if s.eng.freqAt sym = 0 then s.eng else s.eng.addLeaf sym
    { s with eng := { e with leafSym := s.eng.leafSym + 1 } }
  else { s with eng := { s.eng with kReg := s.eng.ncount.setWidth 9 } }.goto .cMerge

/-- The key order of R164: the lower frequency first, between equal frequencies the lower index. -/
def Engine.keyLt (e : Engine) (i j : NodeIdx) : Bool :=
  let fi := (e.nodeAt i).freq.toNat
  let fj := (e.nodeAt j).freq.toNat
  decide (fi < fj) || (decide (fi = fj) && decide (i.val < j.val))

/-- The index with the least key (R164). -/
def Engine.leastKey (e : Engine) : List NodeIdx → Option NodeIdx
  | [] => none
  | i :: rest =>
    match e.leastKey rest with
    | none => some i
    | some j => if e.keyLt j i then some j else some i

/-- Merge a (left) and b (right), the two extracted from ACTIVE, which then holds `rest` (R165). -/
def Engine.merge (e : Engine) (a b : NodeIdx) (rest : List NodeIdx) : Engine :=
  { e.alloc (.internal ((e.nodeAt a).freq + (e.nodeAt b).freq) a b) with active := rest ++ [e.nextIdx] }

/-- C_MERGE (R165), one merge a step; with one node left it is the root, with none there is no tree. -/
def State.mergeStep (s : State) : State :=
  match s.eng.leastKey s.eng.active with
  | none => { s with eng := { s.eng with rootValid := false } }.goto .cCode
  | some a =>
    match s.eng.leastKey (s.eng.active.erase a) with
    | none => { s with eng := { s.eng with root := a, rootValid := true } }.goto .cCode
    | some b => { s with eng := s.eng.merge a b ((s.eng.active.erase a).erase b) }

end Sys2Proof.Machine
end

