-- ==== Sys2Proof/Machine/Fetch.lean ====
section
/-! DEFINITION. Which agent moves, and what its step is: an instruction to run, or a step that runs none. -/

namespace Sys2Proof.Machine

/-- What a step turns out to be. -/
inductive Fetched where
  /-- A step that runs no row of the opcode table: the state after it. -/
  | plain (s : State)
  /-- An access, bytes or a bit to decode and run, in the state in which it runs. -/
  | instr (c : Code) (s : State)
  deriving DecidableEq, Repr

/-! ### Scheduling (R20, R70, R149) -/

/-- The agent that moves next: the engine has a step exactly when PHASE is not IDLE (R149), the host when an event waits.
When both have one the schedule's head decides; an exhausted schedule gives the engine its step, so that it is weakly fair
(log entry 7). -/
def State.nextAgent (s : State) : Option Agent :=
  match s.host.queue, s.eng.phase with
  | [], .idle => none
  | [], _ => some .engine
  | _ :: _, .idle => some .host
  | _ :: _, _ =>
    match s.host.sched with
    | [] => some .engine
    | a :: _ => some a

/-- Both agents have a step: the schedule is consulted. -/
def State.contended (s : State) : Bool :=
  !s.host.queue.isEmpty && decide (s.eng.phase ≠ .idle)

/-- The schedule's entry is used up by a step in which both agents could have moved. -/
def State.spendTurn (s : State) : State :=
  if s.contended then { s with host := { s.host with sched := s.host.sched.tail } } else s

/-! ### The host's step -/

/-- The event at the head of the queue is over. -/
def State.popEvent (s : State) : State :=
  { s with host := { s.host with queue := s.host.queue.tail } }

/-- One read of a poll loop (R106): STATUS goes to the host; the loop ends at the first read with DONE = 1. -/
def State.pollStep (s : State) : State :=
  let t := s.answer (s.regRead 0x08)
  if s.regs.done then t.popEvent else t

/-- A host access: an instruction, or an access that reaches nothing (R63). -/
def State.accessStep (s : State) (a : Access) : Fetched :=
  match decode (.access a) with
  | .ok _ => .instr (.access a) s.popEvent
  | .error _ => .plain (s.popEvent.nullAccess a)

/-- The host's (or the platform's) step.  DESIGN CHOICE (log entry 22): the reset input's assertion and release are one event,
so no access falls between them. -/
def State.hostStep (s : State) : Fetched :=
  match s.host.queue with
  | [] => .plain s
  | .access a :: _ => s.accessStep a
  | .poll :: _ => .plain s.pollStep
  | .hardReset :: _ => .plain s.popEvent.hardReset

/-! ### The engine's step -/

/-- One iteration of the current phase (R34, R149, R150). -/
def State.engineStep (s : State) : Fetched :=
  match s.eng.phase with
  | .idle => .plain s
  | .check => .plain s.checkStep
  | .cCount => .plain s.countStep
  | .cLeaf => .plain s.leafStep
  | .cMerge => .plain s.mergeStep
  | .cCode => .plain s.codeStep
  | .cSize => .plain s.sizeStep
  | .cHdr => .plain s.hdrStep
  | .cTree => .plain s.treeStep
  | .cEnc => .plain s.encStep
  | .dHdr => if s.regs.inLen.toNat < 8 then .plain (s.raise .fmtShortHeader) else .instr s.headerCode s
  | .dTree =>
    if s.eng.entering then .plain s.parseEntry
    else if s.eng.parsed then .plain s.parseEnd
    else if s.eng.tReg.toNat ≤ s.eng.tpos.toNat then .plain (s.raise .fmtTreePastEnd)
    else if s.leafCut then .plain s.leafPastEnd
    else .instr s.tokenCode s
  | .dDec =>
    if s.eng.entering then .plain s.decEntry
    else if s.eng.rpos.toNat < s.eng.bReg.toNat then .instr s.bitCode s
    else .plain s.decEnd
  | .finish => .plain s.finish

/-- What the machine's next step is.  With no event waiting and the engine idle nothing happens (R300: "after reset the
block is idle until the host starts a command"). -/
def fetch (s : State) : Fetched :=
  match s.nextAgent with
  | none => .plain s
  | some .host => s.spendTurn.hostStep
  | some .engine => s.spendTurn.engineStep

/-! ### Placing an instruction where the next step reads it -/

/-- Put a host access at the head of the queue and make the next step the host's. -/
def State.placeAccess (s : State) (a : Access) : State :=
  { s with host := { s.host with
    queue := .access a :: s.host.queue
    sched := if s.eng.phase = .idle then s.host.sched else .host :: s.host.sched } }

/-- Make the next step the engine's, in phase p past its entry step. -/
def State.placeEngine (s : State) (p : Phase) : State :=
  { s with
    regs := { s.regs with busy := true, done := false }
    eng := { s.eng with phase := p, entering := false }
    host := { s.host with sched := if s.host.queue.isEmpty then s.host.sched else .engine :: s.host.sched } }

/-- Put bytes into IN_MEM. -/
def State.placeBytes (s : State) (a : Nat) (bs : List Byte) : State :=
  { s with inMem := s.inMem.writeList a bs }

/-- Place a code where the next step reads it: an access in the host's queue; a header in IN_MEM[0..7] with D_HDR next; a
token at the start of a tree region long enough to hold it, with D_TREE next; a payload bit at stream position 0 of a
payload of one bit, with D_DEC next. -/
def State.place (s : State) : Code → State
  | .access a => s.placeAccess a
  | .header bs =>
    let t := (s.placeEngine .dHdr).placeBytes 0 bs
    { t with regs := { t.regs with inLen := if s.regs.inLen.toNat < 8 then 8 else s.regs.inLen } }
  | .token bs =>
    let t := (s.placeEngine .dTree).placeBytes 8 bs
    { t with eng := { t.eng with tpos := 0, ncount := 0, seen := [], parseStack := [], tReg := BitVec.ofNat 32 bs.length } }
  | .payload bit =>
    let t := (s.placeEngine .dDec).placeBytes (8 + s.eng.tReg.toNat) [if bit then 0x80#8 else 0x00#8]
    { t with eng := { t.eng with rpos := 0, bReg := 1 } }

end Sys2Proof.Machine
end

