-- ==== Sys2Proof/Machine/Dispatch.lean ====
section
/-! DEFINITION. The dispatch: one arm per instruction, each a call of its meaning. -/

namespace Sys2Proof.Machine

def exec (i : Instr) (s : State) : Host.Outcome State Fault Refusal :=
  match i with
  | .srst ign => Sys2Proof.Machine.execSrst ign s
  | .setop op ign => Sys2Proof.Machine.execSetop op ign s
  | .startIllegalOp00 ign => Sys2Proof.Machine.execStartIllegalOp00 ign s
  | .startCompress ign => Sys2Proof.Machine.execStartCompress ign s
  | .startDecompress ign => Sys2Proof.Machine.execStartDecompress ign s
  | .startIllegalOp11 ign => Sys2Proof.Machine.execStartIllegalOp11 ign s
  | .clrDone v => Sys2Proof.Machine.execClrDone v s
  | .wrInLen v => Sys2Proof.Machine.execWrInLen v s
  | .wrOutCap v => Sys2Proof.Machine.execWrOutCap v s
  | .wrIrqEn v => Sys2Proof.Machine.execWrIrqEn v s
  | .wrRoId v => Sys2Proof.Machine.execWrRoId v s
  | .wrRoOutLen v => Sys2Proof.Machine.execWrRoOutLen v s
  | .wrRoTreeLen v => Sys2Proof.Machine.execWrRoTreeLen v s
  | .wrRoBitCount v => Sys2Proof.Machine.execWrRoBitCount v s
  | .wrRoNsym v => Sys2Proof.Machine.execWrRoNsym v s
  | .wrRoParamInMax v => Sys2Proof.Machine.execWrRoParamInMax v s
  | .wrRoParamOutMax v => Sys2Proof.Machine.execWrRoParamOutMax v s
  | .wrRoReserved30 v => Sys2Proof.Machine.execWrRoReserved30 v s
  | .wrRoReserved34 v => Sys2Proof.Machine.execWrRoReserved34 v s
  | .wrRoReserved38 v => Sys2Proof.Machine.execWrRoReserved38 v s
  | .wrRoReserved3C v => Sys2Proof.Machine.execWrRoReserved3C v s
  | .rdReg off => Sys2Proof.Machine.execRdReg off s
  | .hostInWrite a v => Sys2Proof.Machine.execHostInWrite a v s
  | .hostInRead a => Sys2Proof.Machine.execHostInRead a s
  | .hostOutRead a => Sys2Proof.Machine.execHostOutRead a s
  | .hostOutWrite a v => Sys2Proof.Machine.execHostOutWrite a v s
  | .header t b => Sys2Proof.Machine.execHeader t b s
  | .treeInternal => Sys2Proof.Machine.execTreeInternal s
  | .treeLeaf sym => Sys2Proof.Machine.execTreeLeaf sym s
  | .treeReserved02 low => Sys2Proof.Machine.execTreeReserved02 low s
  | .treeReserved04 low => Sys2Proof.Machine.execTreeReserved04 low s
  | .treeReserved08 low => Sys2Proof.Machine.execTreeReserved08 low s
  | .treeReserved10 low => Sys2Proof.Machine.execTreeReserved10 low s
  | .treeReserved20 low => Sys2Proof.Machine.execTreeReserved20 low s
  | .treeReserved40 low => Sys2Proof.Machine.execTreeReserved40 low s
  | .treeReserved80 low => Sys2Proof.Machine.execTreeReserved80 low s
  | .payloadBit0 => Sys2Proof.Machine.execPayloadBit0 s
  | .payloadBit1 => Sys2Proof.Machine.execPayloadBit1 s

end Sys2Proof.Machine
end

