-- ==== Sys2Proof/Machine/Step.lean ====
section
/-! DEFINITION. One step of the machine, and the placing of an instruction for the next step. -/

namespace Sys2Proof.Machine

/-- One step: one host access, one platform event or one engine step (R66: "an engine step happens wholly before or wholly
after it").  What the decoder rejects in a host access never comes here (`State.accessStep`); what the engine reads always
decodes (Laws/Step.lean), so the state stays in a case no step reaches. -/
def step (s : State) : Host.Outcome State Fault Refusal :=
  match fetch s with
  | .plain t => .next t
  | .instr c t =>
    match decode c with
    | .ok i => exec i t
    | .error _ => .next t

/-- s with the instruction of a table word placed where the next step reads it; unchanged where the word is no
instruction. -/
def State.withFetchWord (s : State) (nbits w : Nat) : State :=
  match tableCode nbits w with
  | some c => s.place c
  | none => s

end Sys2Proof.Machine
end

