-- ==== Sys2Proof/Machine/Functional.lean ====
section
/-! DEFINITION. The functional definitions the phases compute: BuildTree (R169), Pack (R198), Compress (R199) and
Decompress (R242), over lists and natural numbers.  The machine does not use them; statements compare it with them. -/

namespace Sys2Proof.Machine

/-! ### Prefix trees -/

/-- A prefix tree: a leaf holds a symbol, an internal node has exactly a left and a right child (R36, R170). -/
inductive PTree where
  | leaf (sym : Byte)
  | node (left right : PTree)
  deriving DecidableEq, Repr

/-- Ser(n), the pre-order tokens of a tree (R196). -/
def PTree.ser : PTree → List Byte
  | .leaf sym => [0x01#8, sym]
  | .node left right => 0x00#8 :: (left.ser ++ right.ser)

/-- The symbols of the leaves, in pre-order. -/
def PTree.syms : PTree → List Byte
  | .leaf sym => [sym]
  | .node left right => left.syms ++ right.syms

/-- The path from the root to the leaf of s, 0 = left and 1 = right (R199); none where s has no leaf. -/
def PTree.path : PTree → Byte → Option (List Bool)
  | .leaf sym, s => if sym = s then some [] else none
  | .node left right, s =>
    match left.path s with
    | some p => some (false :: p)
    | none =>
      match right.path s with
      | some p => some (true :: p)
      | none => none

/-- code(s): "0" in a one-leaf tree (R191), else the path to the leaf of s (R190); empty where s has no code (R192). -/
def PTree.codeOf : PTree → Byte → List Bool
  | .leaf sym, s => if sym = s then [false] else []
  | .node left right, s => ((PTree.node left right).path s).getD []

/-! ### BuildTree (R169) -/

/-- An element of ACTIVE: a node's frequency and index, its key (R164), with the subtree below it. -/
structure Entry where
  freq : Nat
  idx  : Nat
  tree : PTree
  deriving DecidableEq, Repr

/-- The key order of R164. -/
def Entry.lt (a b : Entry) : Bool :=
  decide (a.freq < b.freq) || (decide (a.freq = b.freq) && decide (a.idx < b.idx))

/-- The entry with the least key. -/
def leastEntry : List Entry → Option Entry
  | [] => none
  | a :: rest =>
    match leastEntry rest with
    | none => some a
    | some b => if b.lt a then some b else some a

/-- The leaves of the present byte values among syms, with ascending indices from n on (R163). -/
def leafEntries (F : Byte → Nat) : List Byte → Nat → List Entry
  | [], _ => []
  | s :: rest, n => if F s = 0 then leafEntries F rest n else ⟨F s, n, .leaf s⟩ :: leafEntries F rest (n + 1)

/-- The greedy merge (R165): fuel bounds the number of merges, next is the index of the next node. -/
def mergeEntries : Nat → Nat → List Entry → Option PTree
  | 0, _, _ => none
  | fuel + 1, next, act =>
    match leastEntry act with
    | none => none
    | some a =>
      match leastEntry (act.erase a) with
      | none => some a.tree
      | some b =>
        mergeEntries fuel (next + 1)
          (((act.erase a).erase b) ++ [⟨a.freq + b.freq, next, .node a.tree b.tree⟩])

/-- All byte values in ascending order. -/
def allBytes : List Byte :=
  (List.range 256).map (BitVec.ofNat 8)

/-- BuildTree(F): the tree of the greedy merge, none where no byte value is present (R168, R169). -/
def buildTree (F : Byte → Nat) : Option PTree :=
  let leaves := leafEntries F allBytes 0
  mergeEntries leaves.length leaves.length leaves

/-! ### Compress (R199) -/

/-- The bit at position i of a bit string, 0 beyond its end (R198: the pad bits). -/
def bitAt (p : List Bool) (i : Nat) : Nat :=
  if p.getD i false then 1 else 0

/-- The byte of eight stream positions from i on (R198). -/
def packByte (p : List Bool) (i : Nat) : Byte :=
  BitVec.ofNat 8 (((List.range 8).map (fun t => bitAt p (i + t) * 2 ^ (7 - t))).sum)

/-- Pack(P) (R198). -/
def pack (p : List Bool) : List Byte :=
  (List.range (ceilDiv8 p.length)).map (fun i => packByte p (8 * i))

/-- What a command publishes: its output bytes, T, B and the number of leaves k. -/
structure Result where
  out : List Byte
  T   : Nat
  B   : Nat
  k   : Nat
  deriving DecidableEq, Repr

/-- F(s), the number of occurrences of s in the input (R199). -/
def occurrences (input : List Byte) (s : Byte) : Nat :=
  input.count s

/-- P, the codes of the input bytes in input order (R199). -/
def payloadOf (tree : PTree) (input : List Byte) : List Bool :=
  input.flatMap tree.codeOf

/-- Compress(in) (R199). -/
def compress (input : List Byte) : Result :=
  match buildTree (occurrences input) with
  | none => { out := toBE32 0 ++ toBE32 0, T := 0, B := 0, k := 0 }
  | some tree =>
    let P := payloadOf tree input
    { out := toBE32 (BitVec.ofNat 32 tree.ser.length) ++ toBE32 (BitVec.ofNat 32 P.length) ++ tree.ser ++ pack P
      T := tree.ser.length
      B := P.length
      k := tree.syms.length }

/-! ### Decompress (R242) -/

/-- What parsing has still to read and has seen so far. -/
structure ParseState where
  rest  : List Byte
  seen  : List Byte
  count : Nat
  deriving DecidableEq, Repr

/-- ParseNode (R232) on the bytes of the tree region that are left.  Every call allocates a node or raises, so 512 calls
deep is deep enough: at fuel 0 the 512th node would be created. -/
def parseNode : Nat → ParseState → Except ErrorKind (PTree × ParseState)
  | 0, _ => .error .fmtTreeOverflow
  | fuel + 1, ps =>
    match ps.rest with
    | [] => .error .fmtTreePastEnd
    | m :: rest =>
      if m ≠ 0x00#8 ∧ m ≠ 0x01#8 then .error .fmtTreeBadMarker
      else if ps.count = 511 then .error .fmtTreeOverflow
      else if m = 0x01#8 then
        match rest with
        | [] => .error .fmtTreePastEnd
        | sym :: rest' =>
          if sym ∈ ps.seen then .error .fmtTreeDuplicate
          else .ok (.leaf sym, ⟨rest', sym :: ps.seen, ps.count + 1⟩)
      else
        match parseNode fuel ⟨rest, ps.seen, ps.count + 1⟩ with
        | .error k => .error k
        | .ok (left, ps1) =>
          match parseNode fuel ps1 with
          | .error k => .error k
          | .ok (right, ps2) => .ok (.node left right, ps2)

/-- Deser of the tree region (R232, R234): the whole region is one tree. -/
def deser (region : List Byte) : Except ErrorKind PTree :=
  match parseNode 512 ⟨region, [], 0⟩ with
  | .error k => .error k
  | .ok (tree, ps) => if ps.rest = [] then .ok tree else .error .fmtTreeTrailing

/-- One payload bit in a tree whose root is internal (R237): the position after it and the symbol it emits. -/
def PTree.descend (root : PTree) : PTree → Bool → PTree × Option Byte
  | .leaf _, _ => (root, none)
  | .node left right, bit =>
    match (if bit then right else left) with
    | .leaf sym => (root, some sym)
    | .node l r => (.node l r, none)

/-- Add a symbol to the output (R239): CAPACITY when it is full.  The output is kept newest first. -/
def emitTo (cap : Nat) (out : List Byte) (sym : Byte) : Except ErrorKind (List Byte) :=
  if out.length = cap then .error .capacity else .ok (sym :: out)

/-- The payload of a one-leaf tree (R238). -/
def decodeOneLeaf (cap : Nat) (sym : Byte) : List Bool → List Byte → Except ErrorKind (List Byte)
  | [], out => .ok out
  | bit :: bits, out =>
    if bit then .error .fmtBadBit
    else
      match emitTo cap out sym with
      | .error k => .error k
      | .ok out' => decodeOneLeaf cap sym bits out'

/-- The payload of a tree whose root is internal (R236, R237, R240). -/
def decodeTree (cap : Nat) (root : PTree) : List Bool → PTree → List Byte → Except ErrorKind (List Byte)
  | [], cur, out => if cur = root then .ok out else .error .fmtTruncated
  | bit :: bits, cur, out =>
    match root.descend cur bit with
    | (cur', none) => decodeTree cap root bits cur' out
    | (cur', some sym) =>
      match emitTo cap out sym with
      | .error k => .error k
      | .ok out' => decodeTree cap root bits cur' out'

/-- The whole payload (R236). -/
def decodePayload (cap : Nat) (tree : PTree) (bits : List Bool) : Except ErrorKind (List Byte) :=
  match tree with
  | .leaf sym => decodeOneLeaf cap sym bits []
  | .node l r => decodeTree cap (.node l r) bits (.node l r) []

/-- The big-endian number in bytes o to o+3 of a buffer (R67). -/
def be32At (buf : List Byte) (o : Nat) : Nat :=
  (be32 (buf.getD o 0) (buf.getD (o + 1) 0) (buf.getD (o + 2) 0) (buf.getD (o + 3) 0)).toNat

/-- The B payload bits from buffer byte base on (R100). -/
def payloadBitsOf (buf : List Byte) (base B : Nat) : List Bool :=
  (List.range B).map (fun j => streamBit (buf.getD (base + j / 8) 0) j)

/-- Decompress(buf, cap) (R242). -/
def decompress (buf : List Byte) (cap : Nat) : Except ErrorKind Result :=
  let n := buf.length
  let T := be32At buf 0
  let B := be32At buf 4
  if n < 8 then .error .fmtShortHeader
  else if n - 8 < T then .error .fmtShortTree
  else if 8 * (n - 8 - T) < B then .error .fmtBitcount
  else if T = 0 then
    if 0 < B then .error .fmtEmptyTreeBits else .ok { out := [], T := 0, B := 0, k := 0 }
  else
    match deser ((buf.drop 8).take T) with
    | .error k => .error k
    | .ok tree =>
      match decodePayload cap tree (payloadBitsOf buf (8 + T) B) with
      | .error k => .error k
      | .ok out => .ok { out := out.reverse, T := T, B := B, k := tree.syms.length }

end Sys2Proof.Machine
end

