-- ==== Sys2Proof/Machine/HostProgram.lean ====
section
/-! DEFINITION. The host program lines of R106 as the events they stand for. -/

namespace Sys2Proof.Machine

/-- `wr REG, v`: HostRegWrite(off, v). -/
def lineWr (off : Word) (v : Word) : List HostEvent :=
  [.access (.regWrite .word off v)]

/-- `rd REG`: HostRegRead(off). -/
def lineRd (off : Word) : List HostEvent :=
  [.access (.regRead .word off)]

/-- `wrin a, b0 b1 ...`: HostInWrite(a, b0), HostInWrite(a + 1, b1), ...; a + 1 is exact (R8). -/
def lineWrin (a : Nat) : List Byte → List HostEvent
  | [] => []
  | b :: bs => .access (.inWrite a b) :: lineWrin (a + 1) bs

/-- `rdout a, n`: HostOutRead(a), ..., HostOutRead(a + n - 1); the sums are exact (R8). -/
def lineRdout (a : Nat) : Nat → List HostEvent
  | 0 => []
  | n + 1 => .access (.outRead a) :: lineRdout (a + 1) n

/-- `poll`. -/
def linePoll : List HostEvent :=
  [.poll]

/-- `compress`: `wr CTRL, 0x00000003`. -/
def lineCompress : List HostEvent :=
  lineWr 0x04#32 0x00000003#32

/-- `decompress`: `wr CTRL, 0x00000005`. -/
def lineDecompress : List HostEvent :=
  lineWr 0x04#32 0x00000005#32

/-- `srst`: `wr CTRL, 0x80000000`. -/
def lineSrst : List HostEvent :=
  lineWr 0x04#32 0x80000000#32

/-- `clrdone`: `wr STATUS, 0x00000002`. -/
def lineClrDone : List HostEvent :=
  lineWr 0x08#32 0x00000002#32

/-- The outside with the lines of a program after everything already waiting. -/
def State.load (s : State) (lines : List (List HostEvent)) : State :=
  { s with host := { s.host with queue := s.host.queue ++ lines.flatten } }

end Sys2Proof.Machine
end

