-- ==== Sys2Proof/Safety.lean ====
section
/-! DEFINITION. What counts as a safe state and a safe run, and the relations between a state and a later one in which the
statements are written. -/

namespace Sys2Proof.Machine

/-- The state after n steps, if none of them stops. -/
def runFor : Nat → State → Option State
  | 0, s => some s
  | n + 1, s =>
    match step s with
    | .next t => runFor n t
    | .fault _ => none
    | .refused _ => none

/-- The flags agree with each other and with PHASE: BUSY = 1 exactly when PHASE is not IDLE (R34); BUSY and DONE are never
both 1 (R25); ERR equals (ERR_CODE != 0) (R25); code 15 is never produced (R270); while BUSY, ERR_CODE is 0 (R306). -/
structure State.FlagsOk (s : State) : Prop where
  busy_iff : s.regs.busy = true ↔ s.eng.phase ≠ .idle
  not_both : ¬ (s.regs.busy = true ∧ s.regs.done = true)
  err_iff  : s.regs.err = true ↔ s.regs.errCode ≠ 0
  not_15   : s.regs.errCode ≠ 15
  quiet    : s.regs.busy = true → s.regs.errCode = 0

/-- Both memories are in canonical form. -/
def State.MemOk (s : State) : Prop :=
  s.inMem.wf = true ∧ s.outMem.wf = true

/-- The arena's bookkeeping (R166, R232, R233).  In C_LEAF the leaves made so far are the entries below NCOUNT, at most one
for each byte value seen; in C_MERGE the active nodes are distinct entries below NCOUNT, with an index left for each merge;
in D_TREE the open nodes are internal entries below NCOUNT. -/
structure State.ArenaOk (s : State) : Prop where
  active  : (s.eng.phase = .cLeaf ∧ s.eng.entering = false) ∨ s.eng.phase = .cMerge →
    s.eng.active.Nodup ∧ ∀ x, x ∈ s.eng.active → x.val < s.eng.ncount.toNat
  leaves  : s.eng.phase = .cLeaf → s.eng.entering = false →
    s.eng.active.length = s.eng.ncount.toNat ∧ s.eng.ncount.toNat ≤ s.eng.leafSym.toNat ∧ s.eng.leafSym.toNat ≤ 256
  merges  : s.eng.phase = .cMerge → s.eng.ncount.toNat + s.eng.active.length ≤ 512
  parsing : s.eng.phase = .dTree → s.eng.entering = false → s.eng.ncount.toNat ≤ 511 ∧
    ∀ p, p ∈ s.eng.parseStack → p.val < s.eng.ncount.toNat ∧ (s.eng.nodeAt p).isLeaf = false

/-- IN_MAX and OUT_MAX are in the ranges of R5. -/
def State.ParamsOk (s : State) : Prop :=
  8 ≤ s.regs.inMax.toNat ∧ s.regs.inMax.toNat ≤ inMaxBound ∧ 8 ≤ s.regs.outMax.toNat

/-- Every byte of a memory reads as before. -/
def BytesKept (m m' : Memory) : Prop :=
  ∀ a, m'.read a = m.read a

/-- Every byte from bound on reads as before. -/
def BytesKeptFrom (bound : Nat) (m m' : Memory) : Prop :=
  ∀ a, bound ≤ a → m'.read a = m.read a

/-- Every byte but the one at address x reads as before. -/
def BytesKeptBut (x : Nat) (m m' : Memory) : Prop :=
  ∀ a, a ≠ x → m'.read a = m.read a

/-- Every byte of both memories reads as before, and no free value was drawn. -/
def MemKept (s t : State) : Prop :=
  BytesKept s.inMem t.inMem ∧ BytesKept s.outMem t.outMem ∧ t.draws = s.draws

/-- Both memories and everything outside the block are as before. -/
def OutsideKept (s t : State) : Prop :=
  MemKept s t ∧ t.host = s.host

/-- Every REG offset but x reads as before. -/
def RegsKeptBut (x : Nat) (s t : State) : Prop :=
  ∀ off, off ≠ x → t.regRead off = s.regRead off

/-- The internal register files are as before; only the engine's sequencing may have moved. -/
def FilesKept (s t : State) : Prop :=
  t.eng = { s.eng with phase := t.eng.phase, entering := t.eng.entering, pending := t.eng.pending }

/-- k was raised: the command goes to FINISH with it; no register and no byte of memory changes. -/
def Raised (k : ErrorKind) (s t : State) : Prop :=
  t.eng.phase = .finish ∧ t.eng.pending = some k ∧ t.regs = s.regs ∧ MemKept s t

/-- The next step is the engine's. -/
def EngineMoves (s : State) : Prop :=
  s.nextAgent = some .engine

/-- What waits outside after a step of the engine: the schedule loses its head if the host could have moved too. -/
def HostAfterEngine (s t : State) : Prop :=
  t.host = { s.host with sched := if s.contended then s.host.sched.tail else s.host.sched }

/-- A step of the engine that leaves the registers and the memories alone. -/
def QuietStep (s t : State) : Prop :=
  step s = .next t ∧ HostAfterEngine s t ∧ t.regs = s.regs ∧ MemKept s t

/-- A step of the engine that leaves the registers and IN_MEM alone (it may write OUT_MEM). -/
def WritingStep (s t : State) : Prop :=
  step s = .next t ∧ HostAfterEngine s t ∧ t.regs = s.regs ∧ BytesKept s.inMem t.inMem ∧ t.draws = s.draws

/-- The command goes on in phase p, at its entry. -/
def GoesTo (p : Phase) (t : State) : Prop :=
  t.eng.phase = p ∧ t.eng.entering = true

/-- The command's phase loop goes on: same phase, past its entry. -/
def StaysIn (s t : State) : Prop :=
  t.eng.phase = s.eng.phase ∧ t.eng.entering = false

/-- The key order of R164, as a relation. -/
def KeyLess (e : Engine) (i j : NodeIdx) : Prop :=
  (e.nodeAt i).freq.toNat < (e.nodeAt j).freq.toNat ∨
    ((e.nodeAt i).freq.toNat = (e.nodeAt j).freq.toNat ∧ i.val < j.val)

/-- Node i was created by a tree token and hangs where the pre-order puts it (R232): it is the left child of the innermost
open node if it comes right after it, else its right child, which closes that node.  `below` are the nodes still open. -/
def HangsInPreOrder (s t : State) (i : NodeIdx) (below : List NodeIdx) : Prop :=
  match s.eng.parseStack with
  | [] => below = [] ∧ ∀ j, j ≠ i → t.eng.nodeAt j = s.eng.nodeAt j
  | p :: rest =>
    (∀ j, j ≠ i → j ≠ p → t.eng.nodeAt j = s.eng.nodeAt j) ∧
    (t.eng.nodeAt p).isLeaf = false ∧
    (if i.val = p.val + 1 then
      below = p :: rest ∧ (t.eng.nodeAt p).child false = i ∧
        (t.eng.nodeAt p).child true = (s.eng.nodeAt p).child true
    else
      below = rest ∧ (t.eng.nodeAt p).child true = i ∧
        (t.eng.nodeAt p).child false = (s.eng.nodeAt p).child false)

/-- The innermost open node, if there is one, is an internal node allocated before i. -/
def OpenNodeBefore (s : State) (i : NodeIdx) : Prop :=
  ∀ p rest, s.eng.parseStack = p :: rest → p.val < i.val ∧ (s.eng.nodeAt p).isLeaf = false

/-- The payload bit of a value (rows PAYLOAD_BIT0 and PAYLOAD_BIT1). -/
def bitInstr (bit : Bool) : Instr :=
  if bit then .payloadBit1 else .payloadBit0

/-- The four START rows with the OP each stores (R92), for given ignored bits. -/
def startRows (ign : BitVec 28) : List (Instr × BitVec 2) :=
  [(.startIllegalOp00 ign, 0b00#2), (.startCompress ign, 0b01#2), (.startDecompress ign, 0b10#2),
    (.startIllegalOp11 ign, 0b11#2)]

/-- An event that resets the block: the platform's reset input, or a CTRL write with bit 31 set (R300, R301). -/
def ResetEvent : HostEvent → Prop
  | .hardReset => True
  | .access (.regWrite .word off v) => off = 0x04#32 ∧ v.getLsbD 31 = true
  | .access _ => False
  | .poll => False

end Sys2Proof.Machine
end

