-- ==== Sys2Proof/Certificates/Slice0/Obligations.lean ====
section
/-! DEFINITION. The statements for the provers, from the numbered rules of spec/.  No statement rests on the value of a free
byte: where one names `Config.freeByte` it says which draw a byte is, for every value that draw may have. -/

open Sys2Proof Sys2Proof.Machine

/-! ### Encoding (30_encoding.md) -/

/-- Decoding an encoded well-formed instruction gives it back, for all 38 constructors and every operand. -/
def Obligations.DecodeEncodeRoundTrip : Prop :=
  ∀ i : Instr, i.wellFormed = true → decode (encode i) = .ok i

/-- A host access has one meaning: what it decodes to is well-formed and encodes to it again, so no two accesses decode to
one instruction and no bit of an access is lost. -/
def Obligations.EncodeDecodeAccess : Prop :=
  ∀ (a : Access) (i : Instr), decode (.access a) = .ok i → i.wellFormed = true ∧ encode i = .access a

/-- R91, R92: a word written to CTRL is told apart by the masks of the opcode table, SRST first. -/
def Obligations.CtrlWordsByMask : Prop :=
  ∀ v : Word,
    (v &&& 0x80000000#32 = 0x80000000#32 →
      ∃ ign, decode (.access (.regWrite .word 0x04#32 v)) = .ok (.srst ign)) ∧
    (v &&& 0x80000001#32 = 0x00000000#32 →
      ∃ ign, decode (.access (.regWrite .word 0x04#32 v)) = .ok (.setop (v.extractLsb' 1 2) ign)) ∧
    (v &&& 0x80000007#32 = 0x00000001#32 →
      ∃ ign, decode (.access (.regWrite .word 0x04#32 v)) = .ok (.startIllegalOp00 ign)) ∧
    (v &&& 0x80000007#32 = 0x00000003#32 →
      ∃ ign, decode (.access (.regWrite .word 0x04#32 v)) = .ok (.startCompress ign)) ∧
    (v &&& 0x80000007#32 = 0x00000005#32 →
      ∃ ign, decode (.access (.regWrite .word 0x04#32 v)) = .ok (.startDecompress ign)) ∧
    (v &&& 0x80000007#32 = 0x00000007#32 →
      ∃ ign, decode (.access (.regWrite .word 0x04#32 v)) = .ok (.startIllegalOp11 ign))

/-- R94, R8: the header's two fields are the big-endian numbers in bytes 0 to 3 and 4 to 7. -/
def Obligations.HeaderIsBigEndian : Prop :=
  ∀ (b0 b1 b2 b3 b4 b5 b6 b7 : Byte) (rest : List Byte), ∃ t b : Word,
    decode (.header (b0 :: b1 :: b2 :: b3 :: b4 :: b5 :: b6 :: b7 :: rest)) = .ok (.header t b) ∧
    t.toNat = b0.toNat * 2 ^ 24 + b1.toNat * 2 ^ 16 + b2.toNat * 2 ^ 8 + b3.toNat ∧
    b.toNat = b4.toNat * 2 ^ 24 + b5.toNat * 2 ^ 16 + b6.toNat * 2 ^ 8 + b7.toNat

/-- R96, R97, R98, R275: the marker 0x00 is INTERNAL, 0x01 is LEAF with the next byte, whatever it is, as its symbol; every
other marker decodes to an instruction that raises FMT_TREE_BAD_MARKER (5) in every state. -/
def Obligations.MarkerBytesDecode : Prop :=
  ErrorKind.code .fmtTreeBadMarker = 5 ∧
  ∀ (m v : Byte) (rest : List Byte),
    (m = 0x00#8 → decode (.token (m :: v :: rest)) = .ok .treeInternal) ∧
    (m = 0x01#8 → decode (.token (m :: v :: rest)) = .ok (.treeLeaf v)) ∧
    (m ≠ 0x00#8 → m ≠ 0x01#8 → ∃ i, decode (.token (m :: v :: rest)) = .ok i ∧
      ∀ s : State, ∃ t, exec i s = .next t ∧ Raised .fmtTreeBadMarker s t)

/-- Words the spec writes out: the CTRL and STATUS writes of R106, the IN_LEN write of P1 (line 2), the header, INTERNAL
token and LEAF token of V-L1, and the reserved marker 0x05 of V-D3k (R98). -/
def Obligations.SpecWordsDecode : Prop :=
  decode (.access (.regWrite .word 0x04#32 0x80000000#32)) = .ok (.srst 0) ∧
  decode (.access (.regWrite .word 0x04#32 0x00000003#32)) = .ok (.startCompress 0) ∧
  decode (.access (.regWrite .word 0x04#32 0x00000005#32)) = .ok (.startDecompress 0) ∧
  decode (.access (.regWrite .word 0x08#32 0x00000002#32)) = .ok (.clrDone 2) ∧
  decode (.access (.regWrite .word 0x0C#32 0x0000000C#32)) = .ok (.wrInLen 12) ∧
  decode (.header [0x00#8, 0x00#8, 0x00#8, 0x08#8, 0x00#8, 0x00#8, 0x00#8, 0x12#8]) = .ok (.header 8 18) ∧
  decode (.token [0x00#8, 0x01#8]) = .ok .treeInternal ∧
  decode (.token [0x01#8, 0x61#8]) = .ok (.treeLeaf 0x61#8) ∧
  decode (.token [0x05#8, 0x41#8]) = .ok (.treeReserved04 1)

/-! ### A step runs what is decoded -/

/-- When the host moves and its next access decodes to i, the step is exec of i with the access gone from the queue and,
if the engine could have moved too, the schedule's entry used up.  What waits outside (the queue and the schedule) is
the model's own, log entries 6 and 7. -/
def Obligations.HostAccessRunsInstruction : Prop :=
  ∀ (s : State) (a : Access) (rest : List HostEvent) (i : Instr),
    s.host.queue = .access a :: rest → s.nextAgent = some .host → decode (.access a) = .ok i →
    step s = exec i { s with host := { s.host with
      queue := rest
      sched := if s.eng.phase = .idle then s.host.sched else s.host.sched.tail } }

/-- When the engine moves in D_HDR, D_TREE or D_DEC and there is something to read, the step is exec of what the bytes
of IN_MEM at the place R230, R232 and R236 name decode to.  In D_TREE a leaf's symbol byte must lie below T; without a
leaf's marker the second byte named here does not matter (TreeRegionBounds says what a leaf without a symbol byte does).
That the entry of D_TREE and D_DEC is a step of its own, which reads nothing, is the model's choice (log entry 4).  The
schedule is the model's own, log entry 7. -/
def Obligations.EngineReadRunsInstruction : Prop :=
  ∀ (s u : State) (i : Instr), EngineMoves s →
    u = { s with host := { s.host with sched := if s.contended then s.host.sched.tail else s.host.sched } } →
    (s.eng.phase = .dHdr → 8 ≤ s.regs.inLen.toNat →
      decode (.header (s.inMem.readList 0 8)) = .ok i → step s = exec i u) ∧
    (s.eng.phase = .dTree → s.eng.entering = false → (s.eng.ncount = 0 ∨ s.eng.parseStack ≠ []) →
      s.eng.tpos.toNat < s.eng.tReg.toNat →
      (s.inMem.read (8 + s.eng.tpos.toNat) = 0x01#8 → s.eng.tpos.toNat + 1 < s.eng.tReg.toNat) →
      decode (.token [s.inMem.read (8 + s.eng.tpos.toNat), s.inMem.read (8 + s.eng.tpos.toNat + 1)]) = .ok i →
      step s = exec i u) ∧
    (s.eng.phase = .dDec → s.eng.entering = false → s.eng.rpos.toNat < s.eng.bReg.toNat →
      i = bitInstr ((s.inMem.read (8 + s.eng.tReg.toNat + s.eng.rpos.toNat / 8)).getLsbD
        (7 - s.eng.rpos.toNat % 8)) →
      step s = exec i u)

/-- R63: a REG access that is narrower or wider than a word, misaligned, or at 0x40 or beyond reads 0 and writes nothing. -/
def Obligations.BadRegisterAccess : Prop :=
  ∀ (s : State) (w : Width) (off v : Word) (rest : List HostEvent),
    (w ≠ .word ∨ off.toNat % 4 ≠ 0 ∨ 0x40 ≤ off.toNat) → s.nextAgent = some .host →
    (s.host.queue = .access (.regRead w off) :: rest →
      ∃ t, step s = .next t ∧ t.host.readData = 0 ∧ t.host.queue = rest ∧
        t.regs = s.regs ∧ t.eng = s.eng ∧ MemKept s t) ∧
    (s.host.queue = .access (.regWrite w off v) :: rest →
      ∃ t, step s = .next t ∧ t.host.readData = s.host.readData ∧ t.host.queue = rest ∧
        t.regs = s.regs ∧ t.eng = s.eng ∧ MemKept s t)

/-- 93_implementation_defined.md: no behaviour is stuck or refused; every step answers a next state. -/
def Obligations.StepNeverStops : Prop :=
  ∀ s : State, ∃ t, step s = .next t

/-! ### CTRL writes (40_commands.md section 1) -/

/-- R130: a CTRL write with v[31] = 0 and v[0] = 0 is SETOP, which stores OP = v[2:1], unless BUSY; it starts nothing and
changes nothing else. -/
def Obligations.SetOpStoresOp : Prop :=
  (∀ v : Word, v &&& 0x80000001#32 = 0x00000000#32 →
    ∃ ign, decode (.access (.regWrite .word 0x04#32 v)) = .ok (.setop (v.extractLsb' 1 2) ign)) ∧
  ∀ (s : State) (op : BitVec 2) (ign : BitVec 28), ∃ t, exec (.setop op ign) s = .next t ∧
    (s.regs.busy = true → t = s) ∧
    (s.regs.busy = false →
      t.regs.op = op ∧ t.regRead 0x04 = op.setWidth 32 <<< 1 ∧ RegsKeptBut 0x04 s t ∧
      t.regs.irq = s.regs.irq ∧ t.eng = s.eng ∧ OutsideKept s t)

/-- R131: a CTRL write with v[31] = 0 and v[0] = 1 is a START with OP = v[2:1].  While BUSY it has no effect; else it stores
OP, sets BUSY, clears DONE, ERR and ERR_CODE, drops IRQ and goes to CHECK; the result registers and everything else stay.
All four START rows. -/
def Obligations.StartAccepted : Prop :=
  (∀ v : Word, v &&& 0x80000001#32 = 0x00000001#32 →
    ∃ ign i, decode (.access (.regWrite .word 0x04#32 v)) = .ok i ∧ (i, v.extractLsb' 1 2) ∈ startRows ign) ∧
  ∀ (s : State) (ign : BitVec 28) (i : Instr) (op : BitVec 2), (i, op) ∈ startRows ign →
    (s.regs.busy = true → exec i s = .next s) ∧
    (s.regs.busy = false →
      ∃ t, exec i s = .next t ∧
        t.regs.op = op ∧ t.regs.busy = true ∧ t.regs.done = false ∧ t.regs.err = false ∧ t.regs.errCode = 0 ∧
        t.regRead 0x08 = 0x00000001#32 ∧ t.regs.irq = false ∧ GoesTo .check t ∧
        (∀ off, off ≠ 0x04 → off ≠ 0x08 → t.regRead off = s.regRead off) ∧ FilesKept s t ∧ OutsideKept s t)

/-- R308: a START while BUSY neither queues a command nor restarts the running one: it changes nothing, for all four START
rows. -/
def Obligations.StartWhileBusyIgnored : Prop :=
  ∀ (s : State) (ign : BitVec 28) (i : Instr) (op : BitVec 2), s.regs.busy = true → (i, op) ∈ startRows ign →
    exec i s = .next s

/-- R135, R301: SRST at any time puts every register at its reset value and the engine at IDLE, with IRQ low; IN_MEM is
kept; OUT_MEM is kept if the block was not BUSY, else kept from the old OUT_CAP on and unspecified (a fresh draw) below
it.  How an unspecified byte is written (a fresh draw of a free value) is the model's choice, log entry 2. -/
def Obligations.SoftResetResets : Prop :=
  ∀ (s : State) (ign : BitVec 31), ∃ t, exec (.srst ign) s = .next t ∧
    (∀ off, off ∈ [0x04, 0x08, 0x0C, 0x10, 0x14, 0x18, 0x1C, 0x20, 0x24] → t.regRead off = 0) ∧
    t.regRead 0x00 = 0x48554631#32 ∧ t.regRead 0x28 = s.regRead 0x28 ∧ t.regRead 0x2C = s.regRead 0x2C ∧
    t.regs.irq = false ∧ t.eng.phase = .idle ∧ t.host = s.host ∧
    BytesKept s.inMem t.inMem ∧
    (s.regs.busy = false → BytesKept s.outMem t.outMem ∧ t.draws = s.draws) ∧
    (s.regs.busy = true → BytesKeptFrom s.regs.outCap.toNat s.outMem t.outMem ∧ t.draws = s.draws + 1 ∧
      ∀ a, a < s.regs.outCap.toNat → t.outMem.read a = Config.freeByte s.draws a)

/-- R300: the reset input puts every register at its reset value, abandons a command, and leaves every byte of both
memories unspecified (two fresh draws).  How an unspecified byte is written (a fresh draw of a free value) is the
model's choice, log entry 2. -/
def Obligations.HardResetResets : Prop :=
  ∀ (s : State) (rest : List HostEvent), s.host.queue = .hardReset :: rest → s.nextAgent = some .host →
    ∃ t, step s = .next t ∧
      (∀ off, off ∈ [0x04, 0x08, 0x0C, 0x10, 0x14, 0x18, 0x1C, 0x20, 0x24] → t.regRead off = 0) ∧
      t.regRead 0x00 = 0x48554631#32 ∧ t.regRead 0x28 = s.regRead 0x28 ∧ t.regRead 0x2C = s.regRead 0x2C ∧
      t.regs.irq = false ∧ t.eng.phase = .idle ∧ t.host.queue = rest ∧
      (∀ a, t.inMem.read a = Config.freeByte s.draws a) ∧
      (∀ a, t.outMem.read a = Config.freeByte (s.draws + 1) a) ∧ t.draws = s.draws + 2

/-! ### Other register accesses (40_commands.md section 2) -/

/-- R136: a write to STATUS (REG offset 0x08) clears DONE where v[1] = 1 and the block is not BUSY; ERR and ERR_CODE keep their values, IRQ
falls with DONE, and nothing else changes. -/
def Obligations.ClrDoneClearsDone : Prop :=
  ∀ (s : State) (v : Word), decode (.access (.regWrite .word 0x08#32 v)) = .ok (.clrDone v) ∧
    ∃ t, exec (.clrDone v) s = .next t ∧
    t.regs = (if s.regs.busy = false ∧ v.getLsbD 1 = true then { s.regs with done := false } else s.regs) ∧
    (s.regs.busy = false → v.getLsbD 1 = true → t.regs.irq = false) ∧ t.eng = s.eng ∧ OutsideKept s t

/-- R137, R138: a write to IN_LEN (REG offset 0x0C) or OUT_CAP (0x10) stores any 32-bit value, unless BUSY; the flags and everything else stay. -/
def Obligations.LengthWritesStore : Prop :=
  ∀ (s : State) (v : Word),
    decode (.access (.regWrite .word 0x0C#32 v)) = .ok (.wrInLen v) ∧
    decode (.access (.regWrite .word 0x10#32 v)) = .ok (.wrOutCap v) ∧
    (∃ t, exec (.wrInLen v) s = .next t ∧
      t.regRead 0x0C = (if s.regs.busy then s.regRead 0x0C else v) ∧ RegsKeptBut 0x0C s t ∧
      t.regs.irq = s.regs.irq ∧ t.eng = s.eng ∧ OutsideKept s t) ∧
    (∃ t, exec (.wrOutCap v) s = .next t ∧
      t.regRead 0x10 = (if s.regs.busy then s.regRead 0x10 else v) ∧ RegsKeptBut 0x10 s t ∧
      t.regs.irq = s.regs.irq ∧ t.eng = s.eng ∧ OutsideKept s t)

/-- R139: a write to IRQ_EN (REG offset 0x24) takes effect at any time, and IRQ becomes DONE AND EN at once. -/
def Obligations.IrqEnableAnyTime : Prop :=
  ∀ (s : State) (v : Word), decode (.access (.regWrite .word 0x24#32 v)) = .ok (.wrIrqEn v) ∧
    ∃ t, exec (.wrIrqEn v) s = .next t ∧
    t.regs.irqEn = v.getLsbD 0 ∧ t.regs.irq = (s.regs.done && v.getLsbD 0) ∧
    t.regRead 0x24 = (if v.getLsbD 0 then 1 else 0) ∧ RegsKeptBut 0x24 s t ∧ t.eng = s.eng ∧ OutsideKept s t

/-- R141: a write to a read-only or reserved register, by its REG offset, has no effect at all; nor has a host write to OUT
(R64). -/
def Obligations.WritesWithoutEffect : Prop :=
  ∀ (s : State) (v : Word),
    (∀ (off : Word) (i : Instr),
      (off, i) ∈ [(0x00#32, Instr.wrRoId v), (0x14#32, .wrRoOutLen v), (0x18#32, .wrRoTreeLen v),
        (0x1C#32, .wrRoBitCount v), (0x20#32, .wrRoNsym v), (0x28#32, .wrRoParamInMax v),
        (0x2C#32, .wrRoParamOutMax v), (0x30#32, .wrRoReserved30 v), (0x34#32, .wrRoReserved34 v),
        (0x38#32, .wrRoReserved38 v), (0x3C#32, .wrRoReserved3C v)] →
      decode (.access (.regWrite .word off v)) = .ok i ∧ exec i s = .next s) ∧
    ∀ (a : Nat) (b : Byte), exec (.hostOutWrite a b) s = .next s

/-- R140: a word read of a word slot of REG is a register read; it gives the host the value R23 to R33 lay out, with reserved bits and offsets as 0, and has no side
effect. -/
def Obligations.RegisterReadAnswers : Prop :=
  ∀ (s : State) (off : Word), (isWordSlot off = true → decode (.access (.regRead .word off)) = .ok (.rdReg off)) ∧
    ∃ t, exec (.rdReg off) s = .next t ∧
    (off = 0x00#32 → t.host.readData = 0x48554631#32) ∧
    (off = 0x04#32 → t.host.readData = s.regs.op.setWidth 32 <<< 1) ∧
    (off = 0x08#32 →
      t.host.readData.getLsbD 0 = s.regs.busy ∧ t.host.readData.getLsbD 1 = s.regs.done ∧
      t.host.readData.getLsbD 2 = s.regs.err ∧ t.host.readData.getLsbD 3 = false ∧
      t.host.readData.extractLsb' 4 4 = s.regs.errCode ∧ t.host.readData.extractLsb' 8 24 = 0) ∧
    (off = 0x0C#32 → t.host.readData = s.regs.inLen) ∧
    (off = 0x10#32 → t.host.readData = s.regs.outCap) ∧
    (off = 0x14#32 → t.host.readData = s.regs.outLen) ∧
    (off = 0x18#32 → t.host.readData = s.regs.treeLen) ∧
    (off = 0x1C#32 → t.host.readData = s.regs.bitCount) ∧
    (off = 0x20#32 → t.host.readData = s.regs.nsym.setWidth 32) ∧
    (off = 0x24#32 → t.host.readData = if s.regs.irqEn then 1 else 0) ∧
    (off = 0x28#32 → t.host.readData = s.regs.inMax) ∧
    (off = 0x2C#32 → t.host.readData = s.regs.outMax) ∧
    (off ∈ [0x30#32, 0x34#32, 0x38#32, 0x3C#32] → t.host.readData = 0) ∧
    t.regs = s.regs ∧ t.eng = s.eng ∧ MemKept s t ∧
    t.host.queue = s.host.queue ∧ t.host.sched = s.host.sched

/-! ### Buffer accesses (20_memory.md section 2) -/

/-- R64, R65: HostInWrite writes one byte below IN_MAX while the block is not BUSY, and else nothing. -/
def Obligations.HostInWriteStores : Prop :=
  ∀ (s : State) (a : Nat) (v : Byte), ∃ t, exec (.hostInWrite a v) s = .next t ∧
    (if a < s.regs.inMax.toNat ∧ s.regs.busy = false then
      t.inMem.read a = v ∧ BytesKeptBut a s.inMem t.inMem
    else BytesKept s.inMem t.inMem) ∧
    BytesKept s.outMem t.outMem ∧ t.regs = s.regs ∧ t.eng = s.eng ∧ t.host = s.host ∧ t.draws = s.draws

/-- R64, R65: HostInRead gives IN_MEM[a], BUSY or not, and 0 from IN_MAX on.  HostOutRead gives OUT_MEM[a] while the
block is not BUSY, a fresh free byte while it is, and 0 from OUT_MAX on.  Neither has a side effect.  That a read while
BUSY is the free value of a fresh draw is the model's way to write "any value", log entry 2. -/
def Obligations.HostReadsAnswer : Prop :=
  ∀ (s : State) (a : Nat),
    (∃ t, exec (.hostInRead a) s = .next t ∧
      t.host.readData.toNat = (if a < s.regs.inMax.toNat then (s.inMem.read a).toNat else 0) ∧
      t.regs = s.regs ∧ t.eng = s.eng ∧ MemKept s t ∧
      t.host.queue = s.host.queue ∧ t.host.sched = s.host.sched) ∧
    (∃ t, exec (.hostOutRead a) s = .next t ∧
      (s.regs.outMax.toNat ≤ a → t.host.readData = 0 ∧ t.draws = s.draws) ∧
      (a < s.regs.outMax.toNat → s.regs.busy = false →
        t.host.readData.toNat = (s.outMem.read a).toNat ∧ t.draws = s.draws) ∧
      (a < s.regs.outMax.toNat → s.regs.busy = true →
        t.host.readData.toNat = (Config.freeByte s.draws a).toNat ∧ t.draws = s.draws + 1) ∧
      t.regs = s.regs ∧ t.eng = s.eng ∧ BytesKept s.inMem t.inMem ∧ BytesKept s.outMem t.outMem ∧
      t.host.queue = s.host.queue ∧ t.host.sched = s.host.sched)

/-! ### The decoder (43_decoder.md) -/

/-- R230: a header whose lengths fit loads T_REG and B_REG and goes to D_TREE. -/
def Obligations.HeaderAccepted : Prop :=
  ∀ (s : State) (t b : Word), 8 ≤ s.regs.inLen.toNat → t.toNat ≤ s.regs.inLen.toNat - 8 →
    b.toNat ≤ 8 * (s.regs.inLen.toNat - 8 - t.toNat) →
    ∃ u, exec (.header t b) s = .next u ∧ GoesTo .dTree u ∧ u.regs = s.regs ∧ OutsideKept s u ∧
      u.eng = { s.eng with phase := .dTree, entering := true, tReg := t, bReg := b }

/-- R230, R271, R272, R273: D_HDR's three checks in their order.  IN_LEN < 8 is FMT_SHORT_HEADER (1) whatever the buffer
holds; a tree longer than the rest of the buffer is FMT_SHORT_TREE (2); only then a bit count above the bits that are left
is FMT_BITCOUNT (3).  The comparisons are exact. -/
def Obligations.HeaderRejected : Prop :=
  ErrorKind.code .fmtShortHeader = 1 ∧ ErrorKind.code .fmtShortTree = 2 ∧ ErrorKind.code .fmtBitcount = 3 ∧
  ∀ (s : State) (t b : Word),
    (EngineMoves s → s.eng.phase = .dHdr → s.regs.inLen.toNat < 8 →
      ∃ u, step s = .next u ∧ Raised .fmtShortHeader s u ∧ HostAfterEngine s u) ∧
    (8 ≤ s.regs.inLen.toNat → s.regs.inLen.toNat - 8 < t.toNat →
      ∃ u, exec (.header t b) s = .next u ∧ Raised .fmtShortTree s u ∧ u.host = s.host) ∧
    (8 ≤ s.regs.inLen.toNat → t.toNat ≤ s.regs.inLen.toNat - 8 →
      8 * (s.regs.inLen.toNat - 8 - t.toNat) < b.toNat →
      ∃ u, exec (.header t b) s = .next u ∧ Raised .fmtBitcount s u ∧ u.host = s.host)

/-- R232: an INTERNAL token takes the next node index i, hangs node i where the pre-order puts it, opens it, and moves
TPOS on by one; the symbols seen and everything outside the arena stay.  The premise on the open node is part of the
invariant of ArenaInvariant.  When a node is linked to its children is the model's order, log entry 11, hidden from the
host. -/
def Obligations.InternalTokenOpensNode : Prop :=
  ∀ (s : State) (i : NodeIdx), i.val = s.eng.ncount.toNat → OpenNodeBefore s i →
    ∃ t below, exec .treeInternal s = .next t ∧ (t.eng.nodeAt i).isLeaf = false ∧
      HangsInPreOrder s t i below ∧ t.eng.parseStack = i :: below ∧
      t.eng = { s.eng with
        node := t.eng.node
        parseStack := t.eng.parseStack
        ncount := s.eng.ncount + 1
        tpos := s.eng.tpos + 1 } ∧
      t.regs = s.regs ∧ OutsideKept s t

/-- R232: a LEAF token with room for its symbol byte and a new symbol takes the next node index i, hangs the leaf where
the pre-order puts it, adds the symbol to SEEN, and moves TPOS on by two.  When a node is linked to its parent is the
model's order, log entry 11, hidden from the host. -/
def Obligations.LeafTokenPlacesSymbol : Prop :=
  ∀ (s : State) (sym : Byte) (i : NodeIdx), i.val = s.eng.ncount.toNat → OpenNodeBefore s i →
    s.eng.tpos.toNat + 1 < s.eng.tReg.toNat → sym ∉ s.eng.seen →
    ∃ t below f, exec (.treeLeaf sym) s = .next t ∧ t.eng.nodeAt i = .leaf sym f ∧
      HangsInPreOrder s t i below ∧ t.eng.parseStack = below ∧
      (∀ x, x ∈ t.eng.seen ↔ x = sym ∨ x ∈ s.eng.seen) ∧ t.eng.seen.length = s.eng.seen.length + 1 ∧
      t.eng = { s.eng with
        node := t.eng.node
        parseStack := t.eng.parseStack
        seen := t.eng.seen
        ncount := s.eng.ncount + 1
        tpos := s.eng.tpos + 2 } ∧
      t.regs = s.regs ∧ OutsideKept s t

/-- R233, R285: a 512th node is FMT_TREE_OVERFLOW (6), checked first; then a leaf without a symbol byte below T is
FMT_TREE_PAST_END (4); then a symbol seen before is FMT_TREE_DUPLICATE (7). -/
def Obligations.TreeTokenErrors : Prop :=
  ErrorKind.code .fmtTreePastEnd = 4 ∧ ErrorKind.code .fmtTreeOverflow = 6 ∧
  ErrorKind.code .fmtTreeDuplicate = 7 ∧
  ∀ (s : State) (sym : Byte),
    (s.eng.ncount = 511 →
      (∃ t, exec .treeInternal s = .next t ∧ Raised .fmtTreeOverflow s t ∧ t.host = s.host) ∧
      (∃ t, exec (.treeLeaf sym) s = .next t ∧ Raised .fmtTreeOverflow s t ∧ t.host = s.host)) ∧
    (s.eng.ncount.toNat < 511 → s.eng.tpos.toNat + 1 = s.eng.tReg.toNat →
      ∃ t, exec (.treeLeaf sym) s = .next t ∧ Raised .fmtTreePastEnd s t ∧ t.host = s.host) ∧
    (s.eng.ncount.toNat < 511 → s.eng.tpos.toNat + 1 < s.eng.tReg.toNat → sym ∈ s.eng.seen →
      ∃ t, exec (.treeLeaf sym) s = .next t ∧ Raised .fmtTreeDuplicate s t ∧ t.host = s.host)

/-- R98, R275: each of the seven rows of reserved markers raises FMT_TREE_BAD_MARKER in every state, before any node is
counted. -/
def Obligations.ReservedMarkersRaise : Prop :=
  ∀ s : State, ∀ i : Instr,
    ((∃ low, i = .treeReserved02 low) ∨ (∃ low, i = .treeReserved04 low) ∨ (∃ low, i = .treeReserved08 low) ∨
      (∃ low, i = .treeReserved10 low) ∨ (∃ low, i = .treeReserved20 low) ∨ (∃ low, i = .treeReserved40 low) ∨
      (∃ low, i = .treeReserved80 low)) →
    ∃ t, exec i s = .next t ∧ Raised .fmtTreeBadMarker s t ∧ FilesKept s t ∧ t.host = s.host

/-- R232, R234, R274: D_TREE's steps that read no whole token.  On entry the parse is emptied and T = 0 is the empty
tree; a token needed at or beyond T is FMT_TREE_PAST_END, and so is a leaf's marker in the last byte below T, unless it
is the 512th node's (FMT_TREE_OVERFLOW); a complete tree is rooted at index 0, and its length must be exactly T, else
FMT_TREE_TRAILING (8).  That the entry is a step of its own, which reads no token, and that the end is one
more step after the last token are the model's choices (log entry 4; R311 allows an entry and a leaving step); the stack of open nodes and its emptying on entry are deduced (log entry 11). -/
def Obligations.TreeRegionBounds : Prop :=
  ErrorKind.code .fmtTreeTrailing = 8 ∧
  ∀ s : State, EngineMoves s → s.eng.phase = .dTree →
    (s.eng.entering = true →
      ∃ t, QuietStep s t ∧ t.eng.tpos = 0 ∧ t.eng.ncount = 0 ∧ t.eng.seen = [] ∧ t.eng.parseStack = [] ∧
        t.eng.tReg = s.eng.tReg ∧ t.eng.bReg = s.eng.bReg ∧
        (if s.eng.tReg = 0 then t.eng.rootValid = false ∧ GoesTo .dDec t else StaysIn s t)) ∧
    (s.eng.entering = false → (s.eng.ncount = 0 ∨ s.eng.parseStack ≠ []) →
      s.eng.tReg.toNat ≤ s.eng.tpos.toNat →
      ∃ t, step s = .next t ∧ Raised .fmtTreePastEnd s t ∧ HostAfterEngine s t) ∧
    (s.eng.entering = false → (s.eng.ncount = 0 ∨ s.eng.parseStack ≠ []) →
      s.eng.tpos.toNat + 1 = s.eng.tReg.toNat → s.inMem.read (8 + s.eng.tpos.toNat) = 0x01#8 →
      ∃ t, step s = .next t ∧ HostAfterEngine s t ∧
        Raised (if s.eng.ncount = 511 then .fmtTreeOverflow else .fmtTreePastEnd) s t) ∧
    (s.eng.entering = false → s.eng.ncount ≠ 0 → s.eng.parseStack = [] → s.eng.tpos = s.eng.tReg →
      ∃ t, QuietStep s t ∧ GoesTo .dDec t ∧ t.eng.root = 0 ∧ t.eng.rootValid = true ∧
        t.eng.node = s.eng.node ∧ t.eng.seen = s.eng.seen ∧ t.eng.tReg = s.eng.tReg ∧ t.eng.bReg = s.eng.bReg) ∧
    (s.eng.entering = false → s.eng.ncount ≠ 0 → s.eng.parseStack = [] → s.eng.tpos ≠ s.eng.tReg →
      ∃ t, step s = .next t ∧ Raised .fmtTreeTrailing s t ∧ HostAfterEngine s t)

/-- R237, R239: with an internal root, a payload bit (either) moves CUR to the child on that bit.  If that is an internal
node nothing is emitted; if it is a leaf its symbol is emitted at OPTR and CUR goes back to the root; with OPTR at or beyond
OUT_CAP emitting is CAPACITY (12) instead and no byte is written. -/
def Obligations.PayloadBitWalksTree : Prop :=
  ErrorKind.code .capacity = 12 ∧
  ∀ (s : State) (bit : Bool) (c : NodeIdx), (s.eng.nodeAt s.eng.root).isLeaf = false →
    c = (s.eng.nodeAt s.eng.cur).child bit →
    ((s.eng.nodeAt c).isLeaf = false →
      ∃ t, exec (bitInstr bit) s = .next t ∧ t.eng = { s.eng with rpos := s.eng.rpos + 1, cur := c } ∧
        t.regs = s.regs ∧ OutsideKept s t) ∧
    ∀ (sym : Byte) (f : Word), s.eng.nodeAt c = .leaf sym f →
      (s.eng.optr.toNat < s.regs.outCap.toNat →
        ∃ t, exec (bitInstr bit) s = .next t ∧ t.outMem.read s.eng.optr.toNat = sym ∧
          BytesKeptBut s.eng.optr.toNat s.outMem t.outMem ∧
          t.eng = { s.eng with rpos := s.eng.rpos + 1, optr := s.eng.optr + 1, cur := s.eng.root } ∧
          t.regs = s.regs ∧ BytesKept s.inMem t.inMem ∧ t.host = s.host ∧ t.draws = s.draws) ∧
      (s.regs.outCap.toNat ≤ s.eng.optr.toNat →
        ∃ t, exec (bitInstr bit) s = .next t ∧ Raised .capacity s t ∧ t.host = s.host)

/-- R238, R280, R285: in a one-leaf tree a 1 bit is FMT_BAD_BIT (10) before any capacity check, and a 0 bit emits the
leaf's symbol, or is CAPACITY. -/
def Obligations.OneLeafBits : Prop :=
  ErrorKind.code .fmtBadBit = 10 ∧
  ∀ (s : State) (sym : Byte) (f : Word), s.eng.nodeAt s.eng.root = .leaf sym f →
    (∃ t, exec .payloadBit1 s = .next t ∧ Raised .fmtBadBit s t ∧ t.host = s.host) ∧
    (s.eng.optr.toNat < s.regs.outCap.toNat →
      ∃ t, exec .payloadBit0 s = .next t ∧ t.outMem.read s.eng.optr.toNat = sym ∧
        BytesKeptBut s.eng.optr.toNat s.outMem t.outMem ∧
        t.eng = { s.eng with rpos := s.eng.rpos + 1, optr := s.eng.optr + 1 } ∧
        t.regs = s.regs ∧ BytesKept s.inMem t.inMem ∧ t.host = s.host ∧ t.draws = s.draws) ∧
    (s.regs.outCap.toNat ≤ s.eng.optr.toNat →
      ∃ t, exec .payloadBit0 s = .next t ∧ Raised .capacity s t ∧ t.host = s.host)

/-- R236, R240, R279, R281: D_DEC's steps that read no bit.  On entry RPOS and OPTR are 0 and CUR is the root; the empty
tree succeeds without payload bits and is FMT_EMPTY_TREE_BITS (9) with any; after B bits the command succeeds at the
root and is FMT_TRUNCATED (11) elsewhere.  That the entry is a step of its own, which reads no bit, is the model's
choice (log entry 4; R311 allows an entry step). -/
def Obligations.DecodeEntryAndEnd : Prop :=
  ErrorKind.code .fmtEmptyTreeBits = 9 ∧ ErrorKind.code .fmtTruncated = 11 ∧
  ∀ s : State, EngineMoves s → s.eng.phase = .dDec →
    (s.eng.entering = true → s.eng.rootValid = true →
      ∃ t, QuietStep s t ∧ StaysIn s t ∧
        t.eng = { s.eng with entering := false, rpos := 0, optr := 0, cur := s.eng.root }) ∧
    (s.eng.entering = true → s.eng.rootValid = false → s.eng.bReg = 0 →
      ∃ t, QuietStep s t ∧ GoesTo .finish t ∧ t.eng.pending = none ∧ t.eng.optr = 0) ∧
    (s.eng.entering = true → s.eng.rootValid = false → s.eng.bReg ≠ 0 →
      ∃ t, step s = .next t ∧ Raised .fmtEmptyTreeBits s t ∧ HostAfterEngine s t) ∧
    (s.eng.entering = false → s.eng.bReg.toNat ≤ s.eng.rpos.toNat → s.eng.cur = s.eng.root →
      ∃ t, QuietStep s t ∧ GoesTo .finish t ∧ t.eng.pending = none ∧ t.eng.optr = s.eng.optr) ∧
    (s.eng.entering = false → s.eng.bReg.toNat ≤ s.eng.rpos.toNat → s.eng.cur ≠ s.eng.root →
      ∃ t, step s = .next t ∧ Raised .fmtTruncated s t ∧ HostAfterEngine s t)

/-! ### Sequencing (40_commands.md section 3, 60_exceptions.md) -/

/-- R146, R283, R284: CHECK raises ILLEGAL_OP (13) first, then CONFIG (14), else goes to the command's first phase. -/
def Obligations.CheckPhaseOrder : Prop :=
  ErrorKind.code .illegalOp = 13 ∧ ErrorKind.code .config = 14 ∧
  ∀ s : State, EngineMoves s → s.eng.phase = .check →
    ∃ t, QuietStep s t ∧ FilesKept s t ∧
      (if s.regs.op ≠ 0b01#2 ∧ s.regs.op ≠ 0b10#2 then
        GoesTo .finish t ∧ t.eng.pending = some .illegalOp
      else if s.regs.inMax.toNat < s.regs.inLen.toNat ∨ s.regs.outMax.toNat < s.regs.outCap.toNat then
        GoesTo .finish t ∧ t.eng.pending = some .config
      else if s.regs.op = 0b01#2 then GoesTo .cCount t
      else GoesTo .dHdr t)

/-- R147: FINISH after success publishes the four results, clears BUSY, sets DONE with no error, raises IRQ if enabled, and
returns to IDLE, in one step; both memories and the host's registers stay. -/
def Obligations.FinishAfterSuccess : Prop :=
  ∀ s : State, EngineMoves s → s.eng.phase = .finish → s.eng.pending = none →
    ∃ t, step s = .next t ∧ HostAfterEngine s t ∧ MemKept s t ∧ t.eng.phase = .idle ∧
      t.regs = { s.regs with
        outLen := if s.regs.op = 0b01#2 then s.eng.total else s.eng.optr
        treeLen := s.eng.tReg
        bitCount := s.eng.bReg
        nsym := if s.regs.op = 0b01#2 then s.eng.kReg else BitVec.ofNat 9 s.eng.seen.length
        err := false
        errCode := 0
        busy := false
        done := true } ∧
      t.regs.irq = s.regs.irqEn

/-- R148: FINISH after an error with code c clears the four results and BUSY, sets DONE and ERR with ERR_CODE = c, raises
IRQ if enabled, and returns to IDLE, in one step. -/
def Obligations.FinishAfterError : Prop :=
  ∀ (s : State) (k : ErrorKind), EngineMoves s → s.eng.phase = .finish → s.eng.pending = some k →
    ∃ t, step s = .next t ∧ HostAfterEngine s t ∧ BytesKept s.inMem t.inMem ∧ t.eng.phase = .idle ∧
      t.regs = { s.regs with
        outLen := 0
        treeLen := 0
        bitCount := 0
        nsym := 0
        err := true
        errCode := k.code
        busy := false
        done := true } ∧
      t.regs.irq = s.regs.irqEn

/-- R287: what FINISH does to OUT_MEM after an error: nothing after codes 1 to 9, 13, 14 and after CAPACITY in COMPRESS;
after codes 10 and 11 and CAPACITY in DECOMPRESS the bytes below OUT_CAP are unspecified (a fresh draw) and those from
OUT_CAP on are kept.  How an unspecified byte is written (a fresh draw of a free value) is the model's choice, log entry
2. -/
def Obligations.OutputAfterError : Prop :=
  ∀ (s t : State) (k : ErrorKind), EngineMoves s → s.eng.phase = .finish → s.eng.pending = some k →
    step s = .next t →
    (if k = .fmtBadBit ∨ k = .fmtTruncated ∨ (k = .capacity ∧ s.regs.op = 0b10#2) then
      BytesKeptFrom s.regs.outCap.toNat s.outMem t.outMem ∧ t.draws = s.draws + 1 ∧
        ∀ a, a < s.regs.outCap.toNat → t.outMem.read a = Config.freeByte s.draws a
    else BytesKept s.outMem t.outMem ∧ t.draws = s.draws)

/-! ### The tree builder (41_tree_builder.md) -/

/-- R160: C_COUNT clears FREQ on entry, counts the byte at IPTR a step, and after IN_LEN bytes goes to C_LEAF.  That the entry
is a step of its own, which counts nothing, is the model's choice (log entry 4): "a model may merge the entry with the first
iteration". -/
def Obligations.CountPhase : Prop :=
  ∀ s : State, EngineMoves s → s.eng.phase = .cCount →
    (s.eng.entering = true →
      ∃ t, QuietStep s t ∧ StaysIn s t ∧ (∀ b, t.eng.freqAt b = 0) ∧ t.eng.iptr = 0) ∧
    (s.eng.entering = false → s.eng.iptr.toNat < s.regs.inLen.toNat →
      ∃ t, QuietStep s t ∧ StaysIn s t ∧ t.eng.iptr = s.eng.iptr + 1 ∧
        ∀ b, t.eng.freqAt b =
          if b = s.inMem.read s.eng.iptr.toNat then s.eng.freqAt b + 1 else s.eng.freqAt b) ∧
    (s.eng.entering = false → s.regs.inLen.toNat ≤ s.eng.iptr.toNat →
      ∃ t, QuietStep s t ∧ GoesTo .cLeaf t ∧ FilesKept s t)

/-- R163: C_LEAF empties the arena on entry, takes the byte values in ascending order, makes a leaf of each with a
nonzero count at the next index and puts it into ACTIVE, and after 255 sets K_REG and goes to C_MERGE.  That the entry
examines no byte value and that leaving after 255 is one more step is the model's choice (log entry 4; R311 allows an
entry and a leaving step). -/
def Obligations.LeafPhase : Prop :=
  ∀ s : State, EngineMoves s → s.eng.phase = .cLeaf →
    (s.eng.entering = true →
      ∃ t, QuietStep s t ∧ StaysIn s t ∧ t.eng.freq = s.eng.freq ∧
        t.eng.ncount = 0 ∧ t.eng.active = [] ∧ t.eng.leafSym = 0) ∧
    (∀ (b : Byte) (i : NodeIdx), s.eng.entering = false → s.eng.leafSym.toNat = b.toNat →
      i.val = s.eng.ncount.toNat →
      ∃ t, QuietStep s t ∧ StaysIn s t ∧ t.eng.freq = s.eng.freq ∧ t.eng.leafSym.toNat = b.toNat + 1 ∧
        (if s.eng.freqAt b = 0 then
          t.eng.ncount = s.eng.ncount ∧ t.eng.active = s.eng.active ∧ t.eng.node = s.eng.node
        else
          t.eng.ncount = s.eng.ncount + 1 ∧ (∀ x, x ∈ t.eng.active ↔ x ∈ s.eng.active ∨ x = i) ∧
          t.eng.nodeAt i = .leaf b (s.eng.freqAt b) ∧ ∀ j, j ≠ i → t.eng.nodeAt j = s.eng.nodeAt j)) ∧
    (s.eng.entering = false → 256 ≤ s.eng.leafSym.toNat →
      ∃ t, QuietStep s t ∧ GoesTo .cMerge t ∧ t.eng.kReg = s.eng.ncount.setWidth 9 ∧
        t.eng.active = s.eng.active ∧ t.eng.node = s.eng.node ∧ t.eng.ncount = s.eng.ncount)

/-- R164, R165: with two or more active nodes C_MERGE takes the least, then the next least by the key (freq, index), and
merges them as left and right into the next index, whose frequency is the sum; with one it becomes the root; with none
there is no tree.  The premises on ACTIVE and NCOUNT are part of the invariant of ArenaInvariant. -/
def Obligations.MergePhase : Prop :=
  ∀ s : State, EngineMoves s → s.eng.phase = .cMerge →
    (∀ i : NodeIdx, i.val = s.eng.ncount.toNat → 2 ≤ s.eng.active.length → s.eng.active.Nodup →
      (∀ x, x ∈ s.eng.active → x.val < i.val) →
      ∃ t a b, QuietStep s t ∧ t.eng.phase = .cMerge ∧
        a ∈ s.eng.active ∧ b ∈ s.eng.active ∧ a ≠ b ∧ KeyLess s.eng a b ∧
        (∀ x, x ∈ s.eng.active → x ≠ a → x ≠ b → KeyLess s.eng b x) ∧
        t.eng.nodeAt i = .internal ((s.eng.nodeAt a).freq + (s.eng.nodeAt b).freq) a b ∧
        (∀ j, j ≠ i → t.eng.nodeAt j = s.eng.nodeAt j) ∧
        (∀ x, x ∈ t.eng.active ↔ (x ∈ s.eng.active ∧ x ≠ a ∧ x ≠ b) ∨ x = i) ∧ t.eng.active.Nodup ∧
        t.eng.ncount = s.eng.ncount + 1) ∧
    (∀ a, s.eng.active = [a] →
      ∃ t, QuietStep s t ∧ GoesTo .cCode t ∧ t.eng.root = a ∧ t.eng.rootValid = true ∧ t.eng.node = s.eng.node) ∧
    (s.eng.active = [] → ∃ t, QuietStep s t ∧ GoesTo .cCode t ∧ t.eng.rootValid = false)

/-! ### The encoder (42_encoder.md) -/

/-- R190, R191: C_CODE's entry clears the code table and ends at once without a tree or, with the code "0", at a
one-leaf tree; else the walk gives each leaf the path to it, 0 for left and 1 for right.  That the entry is a step of
its own, which visits no node, is the model's choice (log entry 4; R311 allows an entry step). -/
def Obligations.CodePhase : Prop :=
  ∀ s : State, EngineMoves s → s.eng.phase = .cCode →
    (s.eng.entering = true → s.eng.rootValid = false →
      ∃ t, QuietStep s t ∧ GoesTo .cSize t ∧ ∀ b, t.eng.codeAt b = []) ∧
    (∀ sym f, s.eng.entering = true → s.eng.rootValid = true → s.eng.nodeAt s.eng.root = .leaf sym f →
      ∃ t, QuietStep s t ∧ GoesTo .cSize t ∧ ∀ b, t.eng.codeAt b = if b = sym then [false] else []) ∧
    (s.eng.entering = true → s.eng.rootValid = true → (s.eng.nodeAt s.eng.root).isLeaf = false →
      ∃ t, QuietStep s t ∧ StaysIn s t ∧ t.eng.codeStack = [(s.eng.root, [])] ∧ ∀ b, t.eng.codeAt b = []) ∧
    (s.eng.entering = false → s.eng.codeStack = [] →
      ∃ t, QuietStep s t ∧ GoesTo .cSize t ∧ FilesKept s t) ∧
    (∀ n p rest sym f, s.eng.entering = false → s.eng.codeStack = (n, p) :: rest → s.eng.nodeAt n = .leaf sym f →
      ∃ t, QuietStep s t ∧ StaysIn s t ∧ t.eng.codeStack = rest ∧
        ∀ b, t.eng.codeAt b = if b = sym then p else s.eng.codeAt b) ∧
    (∀ n p rest f left right, s.eng.entering = false → s.eng.codeStack = (n, p) :: rest →
      s.eng.nodeAt n = .internal f left right →
      ∃ t, QuietStep s t ∧ StaysIn s t ∧ t.eng.code = s.eng.code ∧
        t.eng.codeStack = (left, p ++ [false]) :: (right, p ++ [true]) :: rest)

/-- R194: C_SIZE stores B, T and TOTAL in registers of 32 bits, and where TOTAL exceeds OUT_CAP raises CAPACITY with no byte
of OUT_MEM written. -/
def Obligations.SizePhase : Prop :=
  ∀ s : State, EngineMoves s → s.eng.phase = .cSize →
    ∀ b t total : Nat,
      b = ((List.range 256).map (fun n =>
        (s.eng.freqAt (BitVec.ofNat 8 n)).toNat * (s.eng.codeAt (BitVec.ofNat 8 n)).length)).sum →
      t = (if s.eng.kReg = 0 then 0 else 3 * s.eng.kReg.toNat - 1) →
      total = 8 + t + (b + 7) / 8 →
      ∃ u, QuietStep s u ∧ u.eng.bReg = BitVec.ofNat 32 b ∧ u.eng.tReg = BitVec.ofNat 32 t ∧
        u.eng.total = BitVec.ofNat 32 total ∧
        (if s.regs.outCap.toNat < total then GoesTo .finish u ∧ u.eng.pending = some .capacity
        else GoesTo .cHdr u)

/-- R195: C_HDR writes T_REG to OUT_MEM[0..3] and B_REG to OUT_MEM[4..7], most significant byte first, and nothing
else. -/
def Obligations.HeaderPhase : Prop :=
  ∀ s : State, EngineMoves s → s.eng.phase = .cHdr →
    ∃ t, WritingStep s t ∧ GoesTo .cTree t ∧ FilesKept s t ∧
      (∀ k, k < 4 → t.outMem.read k = s.eng.tReg.extractLsb' (24 - 8 * k) 8 ∧
        t.outMem.read (4 + k) = s.eng.bReg.extractLsb' (24 - 8 * k) 8) ∧
      BytesKeptFrom 8 s.outMem t.outMem

/-- R196: C_TREE starts at OPTR = 8 with the root; an internal node writes 0x00 and puts its left, then its right child
on the stack; a leaf writes 0x01 and its symbol; nothing else is written.  That the entry is a step of its own, which
writes no token, and that the stack is C_TREE's own are the model's choices (log entries 4 and 23; R311 allows an entry
step). -/
def Obligations.TreePhase : Prop :=
  ∀ s : State, EngineMoves s → s.eng.phase = .cTree →
    (s.eng.entering = true →
      ∃ t, QuietStep s t ∧ t.eng.optr = 8 ∧ t.eng.node = s.eng.node ∧
        (if s.eng.rootValid then StaysIn s t ∧ t.eng.treeStack = [s.eng.root] else GoesTo .cEnc t)) ∧
    (s.eng.entering = false → s.eng.treeStack = [] → ∃ t, QuietStep s t ∧ GoesTo .cEnc t ∧ FilesKept s t) ∧
    (∀ n rest sym f, s.eng.entering = false → s.eng.treeStack = n :: rest → s.eng.nodeAt n = .leaf sym f →
      ∃ t, WritingStep s t ∧ t.outMem.read s.eng.optr.toNat = 0x01#8 ∧
        t.outMem.read (s.eng.optr.toNat + 1) = sym ∧
        (∀ a, a ≠ s.eng.optr.toNat → a ≠ s.eng.optr.toNat + 1 → t.outMem.read a = s.outMem.read a) ∧
        t.eng = { s.eng with optr := s.eng.optr + 2, treeStack := rest }) ∧
    (∀ n rest f left right, s.eng.entering = false → s.eng.treeStack = n :: rest →
      s.eng.nodeAt n = .internal f left right →
      ∃ t, WritingStep s t ∧ t.outMem.read s.eng.optr.toNat = 0x00#8 ∧
        BytesKeptBut s.eng.optr.toNat s.outMem t.outMem ∧
        t.eng = { s.eng with optr := s.eng.optr + 1, treeStack := left :: right :: rest })

/-- R197: C_ENC starts after the tree; each step puts one code bit of the byte at IPTR into the accumulator, MSB first,
and writes a full accumulator at OPTR; after the last byte a part-filled accumulator is written and the command
succeeds.  That the entry is a step of its own, which packs no bit, is the model's choice (log entry 4; R311 allows an
entry step). -/
def Obligations.EncodePhase : Prop :=
  ∀ s : State, EngineMoves s → s.eng.phase = .cEnc →
    (s.eng.entering = true →
      ∃ t, QuietStep s t ∧ StaysIn s t ∧ t.eng.iptr = 0 ∧ t.eng.cbit = 0 ∧ t.eng.acc = 0 ∧ t.eng.accN = 0 ∧
        t.eng.bits = 0 ∧ t.eng.optr = 8 + s.eng.tReg) ∧
    (∀ (sym : Byte) (bit : Bool), s.eng.entering = false → s.eng.iptr.toNat < s.regs.inLen.toNat →
      sym = s.inMem.read s.eng.iptr.toNat → (s.eng.codeAt sym)[s.eng.cbit.toNat]? = some bit →
      ∃ t, WritingStep s t ∧ StaysIn s t ∧ t.eng.bits = s.eng.bits + 1 ∧
        (if s.eng.cbit.toNat + 1 = (s.eng.codeAt sym).length then t.eng.cbit = 0 ∧ t.eng.iptr = s.eng.iptr + 1
        else t.eng.cbit = s.eng.cbit + 1 ∧ t.eng.iptr = s.eng.iptr) ∧
        (if s.eng.accN.toNat = 7 then
          t.eng.acc = 0 ∧ t.eng.accN = 0 ∧ t.eng.optr = s.eng.optr + 1 ∧
          (∀ k, k < 8 → (t.outMem.read s.eng.optr.toNat).getLsbD k = if k = 0 then bit else s.eng.acc.getLsbD k) ∧
          BytesKeptBut s.eng.optr.toNat s.outMem t.outMem
        else
          t.eng.accN = s.eng.accN + 1 ∧ t.eng.optr = s.eng.optr ∧
          (∀ k, k < 8 → t.eng.acc.getLsbD k =
            if k = 7 - s.eng.accN.toNat then bit else s.eng.acc.getLsbD k) ∧
          BytesKept s.outMem t.outMem)) ∧
    (s.eng.entering = false → s.regs.inLen.toNat ≤ s.eng.iptr.toNat →
      ∃ t, WritingStep s t ∧ GoesTo .finish t ∧ t.eng.pending = none ∧
        (if s.eng.accN = 0 then BytesKept s.outMem t.outMem
        else t.outMem.read s.eng.optr.toNat = s.eng.acc ∧ BytesKeptBut s.eng.optr.toNat s.outMem t.outMem))

/-! ### Invariants and whole-machine rules -/

/-- R25, R34, R270, R306: every step keeps the flags in agreement with each other and with PHASE. -/
def Obligations.FlagsInvariant : Prop :=
  ∀ s t : State, s.FlagsOk → step s = .next t → t.FlagsOk

/-- Every step keeps both memories in canonical form.  The canonical form is the model's own, log entry 2. -/
def Obligations.MemoryInvariant : Prop :=
  ∀ s t : State, s.MemOk → step s = .next t → t.MemOk

/-- R166, R232, R233: every step keeps the arena's bookkeeping: while leaves are made and merged, the active nodes are distinct
and allocated and an index is free for every merge to come; while a tree is parsed, the open nodes are allocated internal
nodes and at most 511 nodes exist.  That an open node is already an internal entry is deduced (log entry 11), that C_LEAF's
variable is a register of its own is the model's choice (log entry 23), and so are the entry steps (log entry 4). -/
def Obligations.ArenaInvariant : Prop :=
  ∀ s t : State, s.ArenaOk → step s = .next t → t.ArenaOk

/-- R300, 10_state.md section 6: what reset leaves, and that the invariants hold there.  The values of PARAM_IN_MAX and
PARAM_OUT_MAX are the model's choice (log entry 1); the statement says only that they are legal. -/
def Obligations.ResetState : Prop :=
  (∀ off, off ∈ [0x04, 0x08, 0x0C, 0x10, 0x14, 0x18, 0x1C, 0x20, 0x24, 0x30, 0x34, 0x38, 0x3C] →
    State.reset.regRead off = 0) ∧
  State.reset.regRead 0x00 = 0x48554631#32 ∧ State.reset.regs.irq = false ∧ State.reset.eng.phase = .idle ∧
  State.reset.FlagsOk ∧ State.reset.MemOk ∧ State.reset.ArenaOk ∧ State.reset.ParamsOk

/-- R33, R23: no step changes what PARAM_IN_MAX, PARAM_OUT_MAX or ID read as. -/
def Obligations.ParametersConstant : Prop :=
  ∀ s t : State, step s = .next t →
    t.regRead 0x28 = s.regRead 0x28 ∧ t.regRead 0x2C = s.regRead 0x2C ∧ t.regRead 0x00 = s.regRead 0x00

/-- R61, R62: the engine never writes IN_MEM; the host's step never changes OUT_MEM unless it resets the block. -/
def Obligations.BuffersHaveOneWriter : Prop :=
  ∀ s t : State, step s = .next t →
    (EngineMoves s → BytesKept s.inMem t.inMem) ∧
    (s.nextAgent = some .host → (∀ e rest, s.host.queue = e :: rest → ¬ ResetEvent e) →
      BytesKept s.outMem t.outMem)

/-- R28 to R31: the four result registers change only at FINISH and at a reset. -/
def Obligations.ResultsHoldUntilFinish : Prop :=
  ∀ s t : State, step s = .next t →
    (EngineMoves s → s.eng.phase ≠ .finish) →
    (s.nextAgent = some .host → ∀ e rest, s.host.queue = e :: rest → ¬ ResetEvent e) →
    t.regs.outLen = s.regs.outLen ∧ t.regs.treeLen = s.regs.treeLen ∧
      t.regs.bitCount = s.regs.bitCount ∧ t.regs.nsym = s.regs.nsym

/-- R305: while BUSY no host step but a reset changes the running command's input, configuration, flags or progress, or the
output; only IRQ_EN can be written, and a write to it takes effect. -/
def Obligations.BusyBlocksHost : Prop :=
  ∀ (s t : State) (e : HostEvent) (rest : List HostEvent), s.regs.busy = true → s.nextAgent = some .host →
    s.host.queue = e :: rest → ¬ ResetEvent e → step s = .next t →
    t.regs = { s.regs with irqEn := t.regs.irqEn } ∧ t.eng = s.eng ∧
      BytesKept s.inMem t.inMem ∧ BytesKept s.outMem t.outMem ∧
      ∀ v, e = .access (.regWrite .word 0x24#32 v) → t.regs.irqEn = v.getLsbD 0

/-! ### The functional definitions (41, 42, 43) -/

/-- R99: the tree region of a tree with k leaves is 3k - 1 bytes long. -/
def Obligations.TreeLengthByLeaves : Prop :=
  ∀ tree : PTree, 1 ≤ tree.syms.length ∧ tree.ser.length = 3 * tree.syms.length - 1

/-- R172: the header and the tree COMPRESS writes depend only on the multiset of input bytes, not on their order. -/
def Obligations.TreeDependsOnFrequencies : Prop :=
  ∀ a b : List Byte, a.Perm b →
    (compress a).T = (compress b).T ∧ (compress a).B = (compress b).B ∧ (compress a).k = (compress b).k ∧
    (compress a).out.take (8 + (compress a).T) = (compress b).out.take (8 + (compress b).T)

/-- R170: the leaves of the tree COMPRESS builds hold exactly the byte values of the input, each once. -/
def Obligations.LeavesArePresentBytes : Prop :=
  ∀ input : List Byte, match buildTree (occurrences input) with
    | none => input = []
    | some tree => tree.syms.Nodup ∧ ∀ b, b ∈ tree.syms ↔ b ∈ input

/-- R193, R192: in a tree whose leaves are distinct no code is a prefix of another and every code has a bit; a one-leaf tree
has the one code "0"; a byte value without a leaf has no code. -/
def Obligations.CodesArePrefixFree : Prop :=
  ∀ tree : PTree, tree.syms.Nodup →
    (∀ a b, a ∈ tree.syms → b ∈ tree.syms → a ≠ b → ¬ tree.codeOf a <+: tree.codeOf b) ∧
    (∀ a, a ∈ tree.syms → 1 ≤ (tree.codeOf a).length) ∧
    (∀ a, tree = .leaf a → tree.codeOf a = [false]) ∧
    (∀ a, a ∉ tree.syms → tree.codeOf a = [])

/-- R243: decompressing what COMPRESS produced gives the input back, for every input of at most the largest legal IN_MAX
and every capacity that holds it. -/
def Obligations.RoundTrip : Prop :=
  ∀ (input : List Byte) (cap : Nat), input.length ≤ inMaxBound → input.length ≤ cap →
    decompress (compress input).out cap =
      .ok { out := input, T := (compress input).T, B := (compress input).B, k := (compress input).k }

/-- R199, R200, R132, R311: from CHECK of a COMPRESS with a legal configuration the engine, left alone, reaches IDLE within
R311's number of steps and has computed Compress of its input: with room for the output, OUT_MEM holds it from offset 0 on,
every other byte is unchanged and the four results are published without error; without room it ends with CAPACITY (12) and
OUT_MEM is unchanged.  IN_MEM is unchanged. -/
def Obligations.CompressRunsToItsFunction : Prop :=
  ∀ (s : State) (r : Result), s.eng.phase = .check → s.host.queue = [] → s.regs.op = 0b01#2 → s.ParamsOk →
    s.regs.inLen.toNat ≤ s.regs.inMax.toNat → s.regs.outCap.toNat ≤ s.regs.outMax.toNat →
    r = compress (s.inMem.readList 0 s.regs.inLen.toNat) →
    ∃ n t, n ≤ s.regs.inLen.toNat + 5 * r.k + r.B + 269 ∧ runFor n s = some t ∧
      t.eng.phase = .idle ∧ t.regs.busy = false ∧ t.regs.done = true ∧ BytesKept s.inMem t.inMem ∧
      (if r.out.length ≤ s.regs.outCap.toNat then
        t.regs.err = false ∧ t.regs.errCode = 0 ∧ t.regs.outLen.toNat = r.out.length ∧
        t.regs.treeLen.toNat = r.T ∧ t.regs.bitCount.toNat = r.B ∧ t.regs.nsym.toNat = r.k ∧
        t.outMem.readList 0 r.out.length = r.out ∧ BytesKeptFrom r.out.length s.outMem t.outMem
      else
        t.regs.err = true ∧ t.regs.errCode = 12 ∧ t.regs.outLen = 0 ∧ t.regs.treeLen = 0 ∧
        t.regs.bitCount = 0 ∧ t.regs.nsym = 0 ∧ BytesKept s.outMem t.outMem)

/-- R242, R133, R287, R311: from CHECK of a DECOMPRESS with a legal configuration the engine, left alone, reaches IDLE
within R311's number of steps and has computed Decompress of its input: on success OUT_MEM holds the output, every other
byte is unchanged and the four results are published; on an error its code is reported with all results 0, OUT_MEM is
unchanged from OUT_CAP on, and unchanged everywhere unless the error was found in D_DEC (10, 11, 12). -/
def Obligations.DecompressRunsToItsFunction : Prop :=
  ∀ s : State, s.eng.phase = .check → s.host.queue = [] → s.regs.op = 0b10#2 →
    s.regs.inLen.toNat ≤ s.regs.inMax.toNat → s.regs.outCap.toNat ≤ s.regs.outMax.toNat →
    ∃ n t, runFor n s = some t ∧
      t.eng.phase = .idle ∧ t.regs.busy = false ∧ t.regs.done = true ∧ BytesKept s.inMem t.inMem ∧
      n ≤ min (be32At (s.inMem.readList 0 8) 0) 511 + be32At (s.inMem.readList 0 8) 4 + 7 ∧
      match decompress (s.inMem.readList 0 s.regs.inLen.toNat) s.regs.outCap.toNat with
      | .ok r =>
        t.regs.err = false ∧ t.regs.errCode = 0 ∧ t.regs.outLen.toNat = r.out.length ∧
        t.regs.treeLen.toNat = r.T ∧ t.regs.bitCount.toNat = r.B ∧ t.regs.nsym.toNat = r.k ∧
        t.outMem.readList 0 r.out.length = r.out ∧ BytesKeptFrom r.out.length s.outMem t.outMem
      | .error k =>
        t.regs.err = true ∧ t.regs.errCode = k.code ∧ t.regs.outLen = 0 ∧ t.regs.treeLen = 0 ∧
        t.regs.bitCount = 0 ∧ t.regs.nsym = 0 ∧ BytesKeptFrom s.regs.outCap.toNat s.outMem t.outMem ∧
        (k ≠ .fmtBadBit → k ≠ .fmtTruncated → k ≠ .capacity → BytesKept s.outMem t.outMem)

/-- R2, R302: what a command publishes depends only on its registers and its input bytes: two machines that agree on these
at CHECK, whatever their internal files, output buffers and old results hold, end with the same flags and results, and
after success with the same output bytes. -/
def Obligations.CommandIgnoresOldState : Prop :=
  ∀ (s s' t : State) (n : Nat), s.eng.phase = .check → s'.eng.phase = .check →
    s.host.queue = [] → s'.host.queue = [] → s.ParamsOk →
    s'.regs = { s.regs with
      outLen := s'.regs.outLen, treeLen := s'.regs.treeLen, bitCount := s'.regs.bitCount, nsym := s'.regs.nsym } →
    (∀ a, a < s.regs.inLen.toNat → s'.inMem.read a = s.inMem.read a) →
    runFor n s = some t → t.eng.phase = .idle →
    ∃ n' t', runFor n' s' = some t' ∧ t'.eng.phase = .idle ∧ t'.regs = t.regs ∧
      (t.regs.err = false → ∀ a, a < t.regs.outLen.toNat → t'.outMem.read a = t.outMem.read a)
end

