-- ==== Sys2Proof/Laws/Memory.lean ====
section
/-! SUPPORT. The memory laws: what a read after a write gives, what scrambling leaves, and that every memory operation keeps
the canonical form. -/

namespace Sys2Proof.Machine

/-! ### Read after write -/

theorem lookup_insert_same (cs : List Host.Cell) (a : Nat) (v : Byte) :
    lookupCell (insertCell cs a v) a = some v := by
  induction cs with
  | nil => simp [insertCell, lookupCell]
  | cons c cs ih =>
    unfold insertCell
    split
    · simp [lookupCell]
    · split
      · simp [lookupCell]
      · rename_i _ hne
        simp [lookupCell, Ne.symm hne, ih]

theorem lookup_insert_other (cs : List Host.Cell) (a x : Nat) (v : Byte) (hx : x ≠ a) :
    lookupCell (insertCell cs a v) x = lookupCell cs x := by
  induction cs with
  | nil => simp [insertCell, lookupCell, Ne.symm hx]
  | cons c cs ih =>
    unfold insertCell
    split
    · simp [lookupCell, Ne.symm hx]
    · split
      · rename_i _ heq
        simp [lookupCell, Ne.symm hx, ← heq]
      · simp [lookupCell, ih]

@[simp] theorem Memory.read_write_same (m : Memory) (a : Nat) (v : Byte) : (m.write a v).read a = v := by
  simp [Memory.read, Memory.write, lookup_insert_same]

theorem Memory.read_write_other (m : Memory) (a x : Nat) (v : Byte) (hx : x ≠ a) :
    (m.write a v).read x = m.read x := by
  simp [Memory.read, Memory.write, Memory.unlisted, Memory.drawAt, lookup_insert_other _ _ _ _ hx]

/-- A list write leaves every address outside its bytes alone. -/
theorem Memory.read_writeList_other (vs : List Byte) (m : Memory) (a x : Nat) (hx : x < a ∨ a + vs.length ≤ x) :
    (m.writeList a vs).read x = m.read x := by
  induction vs generalizing m a with
  | nil => rfl
  | cons v vs ih =>
    rw [Memory.writeList, ih _ _ (by rw [List.length_cons] at hx; omega)]
    exact Memory.read_write_other _ _ _ _ (by rw [List.length_cons] at hx; omega)

/-- A list write puts byte i of the list at address a + i. -/
theorem Memory.read_writeList (vs : List Byte) (m : Memory) (a i : Nat) (hi : i < vs.length) :
    (m.writeList a vs).read (a + i) = vs[i] := by
  induction vs generalizing m a i with
  | nil => simp at hi
  | cons v vs ih =>
    cases i with
    | zero =>
      rw [Memory.writeList, Nat.add_zero, Memory.read_writeList_other _ _ _ _ (Or.inl (by omega))]
      simp
    | succ i =>
      have h := ih (m.write a v) (a + 1) i (by simpa using hi)
      rw [show a + 1 + i = a + (i + 1) by omega] at h
      simpa [Memory.writeList] using h

/-! ### Scrambling -/

theorem lookup_filter_kept (cs : List Host.Cell) (bound a : Nat) (h : bound ≤ a) :
    lookupCell (cs.filter (fun c => decide (bound ≤ c.1))) a = lookupCell cs a := by
  induction cs with
  | nil => rfl
  | cons c cs ih =>
    by_cases hc : bound ≤ c.1
    · simp [hc, lookupCell, ih]
    · have : c.1 ≠ a := by omega
      simp [hc, lookupCell, ih, this]

theorem lookup_filter_dropped (cs : List Host.Cell) (bound a : Nat) (h : a < bound) :
    lookupCell (cs.filter (fun c => decide (bound ≤ c.1))) a = none := by
  induction cs with
  | nil => rfl
  | cons c cs ih =>
    by_cases hc : bound ≤ c.1
    · have : c.1 ≠ a := by omega
      simp [hc, lookupCell, ih, this]
    · simp [hc, ih]

theorem find_filter_kept (ls : List (Nat × Nat)) (bound a : Nat) (h : bound ≤ a) :
    (ls.filter (fun l => decide (bound < l.1))).find? (fun l => decide (a < l.1)) =
      ls.find? (fun l => decide (a < l.1)) := by
  induction ls with
  | nil => rfl
  | cons l ls ih =>
    by_cases hl : bound < l.1
    · by_cases ha : a < l.1 <;> simp [hl, ha, ih]
    · have ha : ¬ a < l.1 := by omega
      simp [hl, ha, ih]

/-- Scrambling leaves every address from the bound on alone. -/
theorem Memory.read_scramble_kept (m : Memory) (bound d a : Nat) (h : bound ≤ a) :
    (m.scramble bound d).read a = m.read a := by
  unfold Memory.scramble
  split
  · rfl
  · have hb : ¬ a < bound := by omega
    simp [Memory.read, Memory.unlisted, Memory.drawAt, lookup_filter_kept _ _ _ h, hb,
      find_filter_kept _ _ _ h]

/-- Scrambling leaves the free bytes of its draw below the bound. -/
theorem Memory.read_scramble_free (m : Memory) (bound d a : Nat) (h : a < bound) :
    (m.scramble bound d).read a = Config.freeByte d a := by
  have hb : bound ≠ 0 := by omega
  simp [Memory.scramble, hb, Memory.read, Memory.unlisted, Memory.drawAt, lookup_filter_dropped _ _ _ h,
    h]

/-! ### The canonical form -/

/-- Strictly rising, as a relation between all pairs. -/
theorem rising_iff_pairwise (l : List Nat) : rising l = true ↔ l.Pairwise (· < ·) := by
  induction l with
  | nil => simp [rising]
  | cons a l ih =>
    cases l with
    | nil => simp [rising]
    | cons b rest =>
      rw [rising, Bool.and_eq_true, decide_eq_true_eq, ih, List.pairwise_cons (a := a)]
      constructor
      · rintro ⟨hab, h⟩
        refine ⟨fun x hx => ?_, h⟩
        rcases List.mem_cons.mp hx with rfl | hx
        · exact hab
        · exact lt_trans hab ((List.pairwise_cons.mp h).1 x hx)
      · rintro ⟨h1, h2⟩
        exact ⟨h1 b (by simp), h2⟩

theorem insertCell_keys (cs : List Host.Cell) (a : Nat) (v : Byte) (x : Nat)
    (hx : x ∈ (insertCell cs a v).map Prod.fst) : x = a ∨ x ∈ cs.map Prod.fst := by
  induction cs with
  | nil => simpa [insertCell] using hx
  | cons c cs ih =>
    unfold insertCell at hx
    split at hx
    · simpa using hx
    · split at hx
      · simp only [List.map_cons, List.mem_cons] at hx ⊢
        tauto
      · simp only [List.map_cons, List.mem_cons] at hx ⊢
        tauto

theorem insertCell_rising (cs : List Host.Cell) (a : Nat) (v : Byte)
    (h : (cs.map Prod.fst).Pairwise (· < ·)) : ((insertCell cs a v).map Prod.fst).Pairwise (· < ·) := by
  induction cs with
  | nil => simp [insertCell]
  | cons c cs ih =>
    rw [List.map_cons] at h
    have hc := List.pairwise_cons.mp h
    unfold insertCell
    split
    · rename_i hlt
      simp only [List.map_cons, List.pairwise_cons]
      refine ⟨fun x hx => ?_, hc⟩
      rcases List.mem_cons.mp hx with rfl | hx
      · exact hlt
      · exact lt_trans hlt (hc.1 x hx)
    · split
      · rename_i _ heq
        subst heq
        simpa using hc
      · rename_i hge hne
        simp only [List.map_cons, List.pairwise_cons]
        refine ⟨fun x hx => ?_, ih hc.2⟩
        rcases insertCell_keys _ _ _ _ hx with rfl | hx
        · omega
        · exact hc.1 x hx

theorem Memory.wf_iff (m : Memory) : m.wf = true ↔
    (m.cells.map Prod.fst).Pairwise (· < ·) ∧ (0 :: m.layers.map Prod.fst).Pairwise (· < ·) := by
  rw [Memory.wf, Bool.and_eq_true, rising_iff_pairwise, rising_iff_pairwise]

/-- A write keeps the canonical form. -/
theorem Memory.write_wf (m : Memory) (a : Nat) (v : Byte) (h : m.wf = true) : (m.write a v).wf = true := by
  rw [Memory.wf_iff] at h ⊢
  exact ⟨insertCell_rising _ _ _ h.1, h.2⟩

/-- A list write keeps the canonical form. -/
theorem Memory.writeList_wf (vs : List Byte) (m : Memory) (a : Nat) (h : m.wf = true) :
    (m.writeList a vs).wf = true := by
  induction vs generalizing m a with
  | nil => exact h
  | cons v vs ih => exact ih _ _ (Memory.write_wf _ _ _ h)

/-- Scrambling keeps the canonical form. -/
theorem Memory.scramble_wf (m : Memory) (bound d : Nat) (h : m.wf = true) : (m.scramble bound d).wf = true := by
  unfold Memory.scramble
  split
  · exact h
  · rename_i hb
    rw [Memory.wf_iff] at h ⊢
    have hl := List.pairwise_cons.mp h.2
    constructor
    · exact h.1.sublist (List.filter_sublist.map _)
    · simp only [List.map_cons, List.pairwise_cons]
      have hsub := hl.2.sublist (List.filter_sublist (p := fun l : Nat × Nat => decide (bound < l.1)) |>.map Prod.fst)
      refine ⟨fun x hx => ?_, fun x hx => ?_, hsub⟩
      · rcases List.mem_cons.mp hx with rfl | hx
        · omega
        · obtain ⟨l, hl', rfl⟩ := List.mem_map.mp hx
          have : bound < l.1 := by simpa using (List.mem_filter.mp hl').2
          omega
      · obtain ⟨l, hl', rfl⟩ := List.mem_map.mp hx
        simpa using (List.mem_filter.mp hl').2

/-- A blank memory is in canonical form. -/
theorem Memory.blank_wf (d : Nat) : (Memory.blank d).wf = true := rfl

end Sys2Proof.Machine
end

