-- ==== Sys2Proof/Laws/State.lean ====
section
/-! SUPPORT. What each named update of the state leaves in each field: one lemma a field, true by unfolding the update. -/

namespace Sys2Proof.Machine

/-! ### goto -/

@[simp] theorem State.goto_regs (s : State) (p : Phase) :
    (s.goto p).regs = s.regs := rfl
@[simp] theorem State.goto_eng (s : State) (p : Phase) :
    (s.goto p).eng = { s.eng with phase := p, entering := true } := rfl
@[simp] theorem State.goto_inMem (s : State) (p : Phase) :
    (s.goto p).inMem = s.inMem := rfl
@[simp] theorem State.goto_outMem (s : State) (p : Phase) :
    (s.goto p).outMem = s.outMem := rfl
@[simp] theorem State.goto_host (s : State) (p : Phase) :
    (s.goto p).host = s.host := rfl
@[simp] theorem State.goto_draws (s : State) (p : Phase) :
    (s.goto p).draws = s.draws := rfl

/-! ### raise -/

@[simp] theorem State.raise_regs (s : State) (k : ErrorKind) :
    (s.raise k).regs = s.regs := rfl
@[simp] theorem State.raise_eng (s : State) (k : ErrorKind) :
    (s.raise k).eng = { s.eng with phase := .finish, entering := true, pending := some k } := rfl
@[simp] theorem State.raise_inMem (s : State) (k : ErrorKind) :
    (s.raise k).inMem = s.inMem := rfl
@[simp] theorem State.raise_outMem (s : State) (k : ErrorKind) :
    (s.raise k).outMem = s.outMem := rfl
@[simp] theorem State.raise_host (s : State) (k : ErrorKind) :
    (s.raise k).host = s.host := rfl
@[simp] theorem State.raise_draws (s : State) (k : ErrorKind) :
    (s.raise k).draws = s.draws := rfl

/-! ### succeed -/

@[simp] theorem State.succeed_regs (s : State) :
    s.succeed.regs = s.regs := rfl
@[simp] theorem State.succeed_eng (s : State) :
    s.succeed.eng = { s.eng with phase := .finish, entering := true, pending := none } := rfl
@[simp] theorem State.succeed_inMem (s : State) :
    s.succeed.inMem = s.inMem := rfl
@[simp] theorem State.succeed_outMem (s : State) :
    s.succeed.outMem = s.outMem := rfl
@[simp] theorem State.succeed_host (s : State) :
    s.succeed.host = s.host := rfl
@[simp] theorem State.succeed_draws (s : State) :
    s.succeed.draws = s.draws := rfl

/-! ### memWrite -/

@[simp] theorem State.memWrite_regs (s : State) (a : Nat) (v : Byte) :
    (s.memWrite a v).regs = s.regs := rfl
@[simp] theorem State.memWrite_eng (s : State) (a : Nat) (v : Byte) :
    (s.memWrite a v).eng = s.eng := rfl
@[simp] theorem State.memWrite_inMem (s : State) (a : Nat) (v : Byte) :
    (s.memWrite a v).inMem = s.inMem := rfl
@[simp] theorem State.memWrite_outMem (s : State) (a : Nat) (v : Byte) :
    (s.memWrite a v).outMem = s.outMem.write a v := rfl
@[simp] theorem State.memWrite_host (s : State) (a : Nat) (v : Byte) :
    (s.memWrite a v).host = s.host := rfl
@[simp] theorem State.memWrite_draws (s : State) (a : Nat) (v : Byte) :
    (s.memWrite a v).draws = s.draws := rfl

/-! ### memWrite4 -/

@[simp] theorem State.memWrite4_regs (s : State) (a : Nat) (v : Word) :
    (s.memWrite4 a v).regs = s.regs := rfl
@[simp] theorem State.memWrite4_eng (s : State) (a : Nat) (v : Word) :
    (s.memWrite4 a v).eng = s.eng := rfl
@[simp] theorem State.memWrite4_inMem (s : State) (a : Nat) (v : Word) :
    (s.memWrite4 a v).inMem = s.inMem := rfl
@[simp] theorem State.memWrite4_outMem (s : State) (a : Nat) (v : Word) :
    (s.memWrite4 a v).outMem = s.outMem.writeList a (toBE32 v) := rfl
@[simp] theorem State.memWrite4_host (s : State) (a : Nat) (v : Word) :
    (s.memWrite4 a v).host = s.host := rfl
@[simp] theorem State.memWrite4_draws (s : State) (a : Nat) (v : Word) :
    (s.memWrite4 a v).draws = s.draws := rfl

/-! ### scrambleOut -/

@[simp] theorem State.scrambleOut_regs (s : State) :
    s.scrambleOut.regs = s.regs := rfl
@[simp] theorem State.scrambleOut_eng (s : State) :
    s.scrambleOut.eng = s.eng := rfl
@[simp] theorem State.scrambleOut_inMem (s : State) :
    s.scrambleOut.inMem = s.inMem := rfl
@[simp] theorem State.scrambleOut_outMem (s : State) :
    s.scrambleOut.outMem = s.outMem.scramble s.regs.outCap.toNat s.draws := rfl
@[simp] theorem State.scrambleOut_host (s : State) :
    s.scrambleOut.host = s.host := rfl
@[simp] theorem State.scrambleOut_draws (s : State) :
    s.scrambleOut.draws = s.draws + 1 := rfl

/-! ### answer -/

@[simp] theorem State.answer_regs (s : State) (v : Word) :
    (s.answer v).regs = s.regs := rfl
@[simp] theorem State.answer_eng (s : State) (v : Word) :
    (s.answer v).eng = s.eng := rfl
@[simp] theorem State.answer_inMem (s : State) (v : Word) :
    (s.answer v).inMem = s.inMem := rfl
@[simp] theorem State.answer_outMem (s : State) (v : Word) :
    (s.answer v).outMem = s.outMem := rfl
@[simp] theorem State.answer_host (s : State) (v : Word) :
    (s.answer v).host = { s.host with readData := v } := rfl
@[simp] theorem State.answer_draws (s : State) (v : Word) :
    (s.answer v).draws = s.draws := rfl

/-! ### popEvent -/

@[simp] theorem State.popEvent_regs (s : State) :
    s.popEvent.regs = s.regs := rfl
@[simp] theorem State.popEvent_eng (s : State) :
    s.popEvent.eng = s.eng := rfl
@[simp] theorem State.popEvent_inMem (s : State) :
    s.popEvent.inMem = s.inMem := rfl
@[simp] theorem State.popEvent_outMem (s : State) :
    s.popEvent.outMem = s.outMem := rfl
@[simp] theorem State.popEvent_host (s : State) :
    s.popEvent.host = { s.host with queue := s.host.queue.tail } := rfl
@[simp] theorem State.popEvent_draws (s : State) :
    s.popEvent.draws = s.draws := rfl

/-! ### hardReset -/

@[simp] theorem State.hardReset_regs (s : State) :
    s.hardReset.regs = Regs.atReset s.regs.inMax s.regs.outMax := rfl
@[simp] theorem State.hardReset_eng (s : State) :
    s.hardReset.eng = Engine.atReset := rfl
@[simp] theorem State.hardReset_inMem (s : State) :
    s.hardReset.inMem = Memory.blank s.draws := rfl
@[simp] theorem State.hardReset_outMem (s : State) :
    s.hardReset.outMem = Memory.blank (s.draws + 1) := rfl
@[simp] theorem State.hardReset_host (s : State) :
    s.hardReset.host = s.host := rfl
@[simp] theorem State.hardReset_draws (s : State) :
    s.hardReset.draws = s.draws + 2 := rfl

/-! ### hostInWrite -/

@[simp] theorem State.hostInWrite_regs (s : State) (a : Nat) (v : Byte) :
    (s.hostInWrite a v).regs = s.regs := rfl
@[simp] theorem State.hostInWrite_eng (s : State) (a : Nat) (v : Byte) :
    (s.hostInWrite a v).eng = s.eng := rfl
@[simp] theorem State.hostInWrite_inMem (s : State) (a : Nat) (v : Byte) :
    (s.hostInWrite a v).inMem = if decide (a < s.regs.inMax.toNat) && !s.regs.busy then s.inMem.write a v else s.inMem := rfl
@[simp] theorem State.hostInWrite_outMem (s : State) (a : Nat) (v : Byte) :
    (s.hostInWrite a v).outMem = s.outMem := rfl
@[simp] theorem State.hostInWrite_host (s : State) (a : Nat) (v : Byte) :
    (s.hostInWrite a v).host = s.host := rfl
@[simp] theorem State.hostInWrite_draws (s : State) (a : Nat) (v : Byte) :
    (s.hostInWrite a v).draws = s.draws := rfl

/-! ### spendOutDraw -/

@[simp] theorem State.spendOutDraw_regs (s : State) (a : Nat) :
    (s.spendOutDraw a).regs = s.regs := rfl
@[simp] theorem State.spendOutDraw_eng (s : State) (a : Nat) :
    (s.spendOutDraw a).eng = s.eng := rfl
@[simp] theorem State.spendOutDraw_inMem (s : State) (a : Nat) :
    (s.spendOutDraw a).inMem = s.inMem := rfl
@[simp] theorem State.spendOutDraw_outMem (s : State) (a : Nat) :
    (s.spendOutDraw a).outMem = s.outMem := rfl
@[simp] theorem State.spendOutDraw_host (s : State) (a : Nat) :
    (s.spendOutDraw a).host = s.host := rfl
@[simp] theorem State.spendOutDraw_draws (s : State) (a : Nat) :
    (s.spendOutDraw a).draws = if decide (a < s.regs.outMax.toNat) && s.regs.busy then s.draws + 1 else s.draws := rfl

/-! ### passMarker -/

@[simp] theorem State.passMarker_regs (s : State) :
    s.passMarker.regs = s.regs := rfl
@[simp] theorem State.passMarker_inMem (s : State) :
    s.passMarker.inMem = s.inMem := rfl
@[simp] theorem State.passMarker_outMem (s : State) :
    s.passMarker.outMem = s.outMem := rfl
@[simp] theorem State.passMarker_host (s : State) :
    s.passMarker.host = s.host := rfl
@[simp] theorem State.passMarker_draws (s : State) :
    s.passMarker.draws = s.draws := rfl
@[simp] theorem State.passMarker_eng (s : State) :
    s.passMarker.eng = { s.eng with ncount := s.eng.ncount + 1, tpos := s.eng.tpos + 1 } := rfl

/-! ### writeAcc -/

@[simp] theorem State.writeAcc_regs (s : State) :
    s.writeAcc.regs = s.regs := rfl
@[simp] theorem State.writeAcc_inMem (s : State) :
    s.writeAcc.inMem = s.inMem := rfl
@[simp] theorem State.writeAcc_outMem (s : State) :
    s.writeAcc.outMem = s.outMem.write s.eng.optr.toNat s.eng.acc := rfl
@[simp] theorem State.writeAcc_host (s : State) :
    s.writeAcc.host = s.host := rfl
@[simp] theorem State.writeAcc_draws (s : State) :
    s.writeAcc.draws = s.draws := rfl
@[simp] theorem State.writeAcc_eng (s : State) :
    s.writeAcc.eng = { s.eng with optr := s.eng.optr + 1 } := rfl

/-! ### openNode -/

@[simp] theorem State.openNode_regs (s : State) (n : Node) :
    (s.openNode n).regs = s.regs := rfl
@[simp] theorem State.openNode_eng (s : State) (n : Node) :
    (s.openNode n).eng = { (s.eng.attach s.eng.nextIdx).alloc n with tpos := s.eng.tpos + 1 } := rfl
@[simp] theorem State.openNode_inMem (s : State) (n : Node) :
    (s.openNode n).inMem = s.inMem := rfl
@[simp] theorem State.openNode_outMem (s : State) (n : Node) :
    (s.openNode n).outMem = s.outMem := rfl
@[simp] theorem State.openNode_host (s : State) (n : Node) :
    (s.openNode n).host = s.host := rfl
@[simp] theorem State.openNode_draws (s : State) (n : Node) :
    (s.openNode n).draws = s.draws := rfl

/-! ### start -/

@[simp] theorem State.start_inMem (s : State) (op : BitVec 2) :
    (s.start op).inMem = s.inMem := by
  unfold State.start; split <;> rfl
@[simp] theorem State.start_outMem (s : State) (op : BitVec 2) :
    (s.start op).outMem = s.outMem := by
  unfold State.start; split <;> rfl
@[simp] theorem State.start_host (s : State) (op : BitVec 2) :
    (s.start op).host = s.host := by
  unfold State.start; split <;> rfl
@[simp] theorem State.start_draws (s : State) (op : BitVec 2) :
    (s.start op).draws = s.draws := by
  unfold State.start; split <;> rfl

/-! ### writeIdle -/

@[simp] theorem State.writeIdle_eng (s : State) (r : Regs) :
    (s.writeIdle r).eng = s.eng := by
  unfold State.writeIdle; split <;> rfl
@[simp] theorem State.writeIdle_inMem (s : State) (r : Regs) :
    (s.writeIdle r).inMem = s.inMem := by
  unfold State.writeIdle; split <;> rfl
@[simp] theorem State.writeIdle_outMem (s : State) (r : Regs) :
    (s.writeIdle r).outMem = s.outMem := by
  unfold State.writeIdle; split <;> rfl
@[simp] theorem State.writeIdle_host (s : State) (r : Regs) :
    (s.writeIdle r).host = s.host := by
  unfold State.writeIdle; split <;> rfl
@[simp] theorem State.writeIdle_draws (s : State) (r : Regs) :
    (s.writeIdle r).draws = s.draws := by
  unfold State.writeIdle; split <;> rfl

/-! ### softReset -/

@[simp] theorem State.softReset_inMem (s : State) :
    s.softReset.inMem = s.inMem := by
  unfold State.softReset; split <;> rfl
@[simp] theorem State.softReset_host (s : State) :
    s.softReset.host = s.host := by
  unfold State.softReset; split <;> rfl

/-! ### finish -/

@[simp] theorem State.finish_inMem (s : State) :
    s.finish.inMem = s.inMem := by
  unfold State.finish; split <;> rfl
@[simp] theorem State.finish_host (s : State) :
    s.finish.host = s.host := by
  unfold State.finish; split <;> rfl

/-! ### spendTurn -/

@[simp] theorem State.spendTurn_regs (s : State) :
    s.spendTurn.regs = s.regs := by
  unfold State.spendTurn; split <;> rfl
@[simp] theorem State.spendTurn_eng (s : State) :
    s.spendTurn.eng = s.eng := by
  unfold State.spendTurn; split <;> rfl
@[simp] theorem State.spendTurn_inMem (s : State) :
    s.spendTurn.inMem = s.inMem := by
  unfold State.spendTurn; split <;> rfl
@[simp] theorem State.spendTurn_outMem (s : State) :
    s.spendTurn.outMem = s.outMem := by
  unfold State.spendTurn; split <;> rfl
@[simp] theorem State.spendTurn_draws (s : State) :
    s.spendTurn.draws = s.draws := by
  unfold State.spendTurn; split <;> rfl

/-! ### emit -/

@[simp] theorem State.emit_regs (s : State) (sym : Byte) :
    (s.emit sym).regs = s.regs := by
  unfold State.emit; split <;> rfl
@[simp] theorem State.emit_inMem (s : State) (sym : Byte) :
    (s.emit sym).inMem = s.inMem := by
  unfold State.emit; split <;> rfl
@[simp] theorem State.emit_host (s : State) (sym : Byte) :
    (s.emit sym).host = s.host := by
  unfold State.emit; split <;> rfl
@[simp] theorem State.emit_draws (s : State) (sym : Byte) :
    (s.emit sym).draws = s.draws := by
  unfold State.emit; split <;> rfl

/-! ### Register updates -/

@[simp] theorem Regs.acceptFlags_busy (r : Regs) : r.acceptFlags.busy = true := rfl
@[simp] theorem Regs.acceptFlags_done (r : Regs) : r.acceptFlags.done = false := rfl
@[simp] theorem Regs.acceptFlags_err (r : Regs) : r.acceptFlags.err = false := rfl
@[simp] theorem Regs.acceptFlags_errCode (r : Regs) : r.acceptFlags.errCode = 0 := rfl
@[simp] theorem Regs.clearDone_done (r : Regs) : r.clearDone.done = false := rfl
@[simp] theorem Regs.clearDone_busy (r : Regs) : r.clearDone.busy = r.busy := rfl
@[simp] theorem Regs.clearDone_err (r : Regs) : r.clearDone.err = r.err := rfl
@[simp] theorem Regs.clearDone_errCode (r : Regs) : r.clearDone.errCode = r.errCode := rfl

@[simp] theorem Regs.finishFlags_busy (r : Regs) (p : Option ErrorKind) : (r.finishFlags p).busy = false := by
  cases p <;> rfl
@[simp] theorem Regs.finishFlags_done (r : Regs) (p : Option ErrorKind) : (r.finishFlags p).done = true := by
  cases p <;> rfl
@[simp] theorem Regs.finishFlags_err (r : Regs) (p : Option ErrorKind) : (r.finishFlags p).err = p.isSome := by
  cases p <;> rfl

end Sys2Proof.Machine
end

