-- ==== Sys2Proof/Laws/Ops.lean ====
section
/-! SUPPORT. One lemma per shared operation: everything it can do. -/

namespace Sys2Proof.Machine

/-! ### Commands and register writes -/

theorem State.start_of_busy (s : State) (op : BitVec 2) (h : s.regs.busy = true) : s.start op = s := by
  simp [State.start, h]

theorem State.start_of_idle (s : State) (op : BitVec 2) (h : s.regs.busy = false) :
    s.start op = { s with
      regs := { s.regs.acceptFlags with op := op }
      eng := { s.eng with phase := .check, entering := true, pending := none } } := by
  simp [State.start, h]

theorem State.writeIdle_of_busy (s : State) (r : Regs) (h : s.regs.busy = true) : s.writeIdle r = s := by
  simp [State.writeIdle, h]

theorem State.writeIdle_of_idle (s : State) (r : Regs) (h : s.regs.busy = false) :
    s.writeIdle r = { s with regs := r } := by
  simp [State.writeIdle, h]

@[simp] theorem State.softReset_regs (s : State) :
    s.softReset.regs = Regs.atReset s.regs.inMax s.regs.outMax := by
  unfold State.softReset; split <;> rfl

@[simp] theorem State.softReset_eng (s : State) : s.softReset.eng = Engine.atReset := by
  unfold State.softReset; split <;> rfl

theorem State.softReset_outMem (s : State) :
    s.softReset.outMem =
      if s.regs.busy then s.outMem.scramble s.regs.outCap.toNat s.draws else s.outMem := by
  unfold State.softReset; split <;> rfl

theorem State.softReset_draws (s : State) :
    s.softReset.draws = if s.regs.busy then s.draws + 1 else s.draws := by
  unfold State.softReset; split <;> rfl

/-! ### Completion -/

@[simp] theorem State.finish_regs (s : State) : s.finish.regs = s.publish.finishFlags s.eng.pending := by
  unfold State.finish; split <;> rfl

@[simp] theorem State.finish_eng (s : State) :
    s.finish.eng = { s.eng with phase := .idle, entering := true } := by
  unfold State.finish; split <;> rfl

theorem State.finish_outMem (s : State) :
    s.finish.outMem =
      if leavesOutputOpen s.regs.op s.eng.pending then s.outMem.scramble s.regs.outCap.toNat s.draws
      else s.outMem := by
  unfold State.finish; split <;> rfl

theorem State.finish_draws (s : State) :
    s.finish.draws = if leavesOutputOpen s.regs.op s.eng.pending then s.draws + 1 else s.draws := by
  unfold State.finish; split <;> rfl

/-! ### Emit -/

/-- Emit either raises CAPACITY or writes one byte at OPTR and moves on. -/
theorem State.emit_cases (s : State) (sym : Byte) :
    (s.regs.outCap.toNat ≤ s.eng.optr.toNat ∧ s.emit sym = s.raise .capacity) ∨
    (s.eng.optr.toNat < s.regs.outCap.toNat ∧
      s.emit sym = { s with
        outMem := s.outMem.write s.eng.optr.toNat sym
        eng := { s.eng with optr := s.eng.optr + 1 } }) := by
  unfold State.emit State.outFull
  split
  · exact Or.inl ⟨of_decide_eq_true ‹_›, rfl⟩
  · exact Or.inr ⟨Nat.lt_of_not_le (of_decide_eq_false (Bool.eq_false_iff.mpr ‹_›)), rfl⟩

/-- DecodeStep moves to an internal child, or at a leaf raises CAPACITY there or writes one byte and goes back to the
root (R237, R239). -/
theorem State.decodeStep_cases (s : State) (bit : Bool) (c : NodeIdx)
    (hc : c = (s.eng.nodeAt s.eng.cur).child bit) :
    ((s.eng.nodeAt c).isLeaf = false ∧ s.decodeStep bit = { s with eng := { s.eng with cur := c } }) ∨
    ∃ sym f, s.eng.nodeAt c = .leaf sym f ∧
      ((s.regs.outCap.toNat ≤ s.eng.optr.toNat ∧
        s.decodeStep bit = { s with eng := { s.eng with cur := c } }.raise .capacity) ∨
      (s.eng.optr.toNat < s.regs.outCap.toNat ∧
        s.decodeStep bit = { s with
          outMem := s.outMem.write s.eng.optr.toNat sym
          eng := { s.eng with optr := s.eng.optr + 1, cur := s.eng.root } })) := by
  subst hc
  unfold State.decodeStep
  cases hn : s.eng.nodeAt ((s.eng.nodeAt s.eng.cur).child bit) with
  | internal f l r => exact Or.inl ⟨rfl, by simp [hn]⟩
  | leaf sym f =>
    refine Or.inr ⟨sym, f, rfl, ?_⟩
    by_cases h : s.regs.outCap.toNat ≤ s.eng.optr.toNat
    · exact Or.inl ⟨h, by simp [hn, State.emit, State.outFull, h]⟩
    · exact Or.inr ⟨by omega, by simp [hn, State.emit, State.outFull, h, State.memWrite]⟩

/-! ### Tree tokens (R232, R233, R285) -/

/-- A leaf marker without a symbol byte below T raises, the 512th node's with code 6, any other with code 4. -/
theorem State.leafPastEnd_cases (s : State) :
    (s.eng.ncount = 511 ∧ s.leafPastEnd = s.raise .fmtTreeOverflow) ∨
    (s.eng.ncount ≠ 511 ∧ s.leafPastEnd = s.passMarker.raise .fmtTreePastEnd) := by
  unfold State.leafPastEnd
  split
  · exact Or.inl ⟨‹_›, rfl⟩
  · exact Or.inr ⟨‹_›, rfl⟩

/-- A leaf token raises code 6, 4 or 7, in that order, or makes the leaf and adds its symbol to SEEN. -/
theorem State.tokenLeaf_cases (s : State) (sym : Byte) :
    (s.eng.ncount = 511 ∧ s.tokenLeaf sym = s.raise .fmtTreeOverflow) ∨
    (s.eng.ncount ≠ 511 ∧ s.eng.tReg.toNat ≤ s.eng.tpos.toNat + 1 ∧
      s.tokenLeaf sym = s.passMarker.raise .fmtTreePastEnd) ∨
    (s.eng.ncount ≠ 511 ∧ s.eng.tpos.toNat + 1 < s.eng.tReg.toNat ∧ sym ∈ s.eng.seen ∧
      s.tokenLeaf sym = { s with
        eng := { s.eng with ncount := s.eng.ncount + 1, tpos := s.eng.tpos + 1 + 1 } }.raise .fmtTreeDuplicate) ∨
    (s.eng.ncount ≠ 511 ∧ s.eng.tpos.toNat + 1 < s.eng.tReg.toNat ∧ sym ∉ s.eng.seen ∧
      s.tokenLeaf sym = { s with
        eng := { (s.eng.attach s.eng.nextIdx).alloc (.leaf sym 0) with
          tpos := s.eng.tpos + 1 + 1
          seen := sym :: ((s.eng.attach s.eng.nextIdx).alloc (.leaf sym 0)).seen } }) := by
  unfold State.tokenLeaf State.symbolOutside
  by_cases hn : s.eng.ncount = 511
  · left
    simp [hn, State.leafPastEnd]
  · by_cases ht : s.eng.tReg.toNat ≤ s.eng.tpos.toNat + 1
    · right; left
      refine ⟨hn, ht, ?_⟩
      simp only [State.leafPastEnd, ht, hn, decide_true, if_true, if_false]
    · by_cases hs : sym ∈ s.eng.seen
      · right; right; left
        refine ⟨hn, by omega, hs, ?_⟩
        simp only [ht, hn, hs, decide_false, Bool.false_eq_true, if_false, if_true]
        rfl
      · right; right; right
        refine ⟨hn, by omega, hs, ?_⟩
        simp only [ht, hn, hs, decide_false, Bool.false_eq_true, if_false]
        rfl

/-! ### The priority structure (R164) -/

theorem Engine.keyLt_iff (e : Engine) (i j : NodeIdx) : e.keyLt i j = true ↔
    (e.nodeAt i).freq.toNat < (e.nodeAt j).freq.toNat ∨
    ((e.nodeAt i).freq.toNat = (e.nodeAt j).freq.toNat ∧ i.val < j.val) := by
  simp [Engine.keyLt]

theorem Engine.leastKey_eq_none (e : Engine) (l : List NodeIdx) : e.leastKey l = none ↔ l = [] := by
  cases l with
  | nil => simp [Engine.leastKey]
  | cons i rest =>
    simp only [Engine.leastKey, reduceCtorEq, iff_false]
    split
    · simp
    · split <;> simp

theorem Engine.leastKey_mem (e : Engine) (l : List NodeIdx) (a : NodeIdx) (h : e.leastKey l = some a) : a ∈ l := by
  induction l generalizing a with
  | nil => simp [Engine.leastKey] at h
  | cons i rest ih =>
    unfold Engine.leastKey at h
    split at h
    · simp_all
    · rename_i j hj
      split at h
      · obtain rfl := Option.some.inj h
        exact List.mem_cons_of_mem _ (ih _ hj)
      · obtain rfl := Option.some.inj h
        exact List.mem_cons_self

/-- No element has a lower key than the one `leastKey` gives. -/
theorem Engine.leastKey_least (e : Engine) (l : List NodeIdx) (a : NodeIdx) (h : e.leastKey l = some a) :
    ∀ x ∈ l, e.keyLt x a = false := by
  induction l generalizing a with
  | nil => simp
  | cons i rest ih =>
    intro x hx
    unfold Engine.leastKey at h
    split at h
    · rename_i hnone
      obtain rfl := Option.some.inj h
      have : rest = [] := (e.leastKey_eq_none rest).mp hnone
      subst this
      obtain rfl : x = i := by simpa using hx
      simp [Engine.keyLt]
    · rename_i j hj
      have hrest := ih j hj
      split at h
      · rename_i hji
        obtain rfl := Option.some.inj h
        rcases List.mem_cons.mp hx with rfl | hx
        · rw [Bool.eq_false_iff]
          intro hxj
          rw [Engine.keyLt_iff] at hji hxj
          omega
        · exact hrest x hx
      · rename_i hji
        obtain rfl := Option.some.inj h
        rcases List.mem_cons.mp hx with rfl | hx
        · simp [Engine.keyLt]
        · have h1 := hrest x hx
          rw [Bool.eq_false_iff] at h1 ⊢
          intro hxi
          apply h1
          rw [Engine.keyLt_iff] at *
          omega

end Sys2Proof.Machine
end

