-- ==== Sys2Proof/Laws/PerInstr.lean ====
section
/-! SUPPORT. One lemma per instruction: its encoding carries the bits its row of the opcode table fixes. -/

namespace Sys2Proof.Laws.RowBits

/-- The number the row's mask applies to, masked, is the row's match. -/
def Statement (i : Instr) : Prop :=
  tableBits (encode i) &&& (rowMatchMask i).2 = (rowMatchMask i).1

/-- A masked bit vector as a masked number. -/
theorem toNat_and_eq {w : Nat} (v m c : BitVec w) (h : v &&& m = c) : v.toNat &&& m.toNat = c.toNat := by
  rw [← BitVec.toNat_and, h]

theorem reset_word_bits (ign : BitVec 31) :
    (0x80000000#32 ||| ign.setWidth 32) &&& 0x80000000#32 = 0x80000000#32 := by
  ext k hk
  interval_cases k <;> simp

theorem setop_word_bits (op : BitVec 2) (ign : BitVec 28) :
    ctrlBits ign op 0#1 &&& 0x80000001#32 = 0x00000000#32 := by
  ext k hk
  interval_cases k <;> simp [ctrlBits]

theorem start_word_bits (op : BitVec 2) (ign : BitVec 28) :
    ctrlBits ign op 1#1 &&& 0x80000007#32 = op.setWidth 32 <<< 1 ||| 1#32 := by
  ext k hk
  interval_cases k <;> simp [ctrlBits]

theorem srst (ign : BitVec 31) : Statement (.srst ign) :=
  toNat_and_eq _ _ _ (reset_word_bits ign)

theorem setop (op : BitVec 2) (ign : BitVec 28) : Statement (.setop op ign) :=
  toNat_and_eq _ _ _ (setop_word_bits op ign)

theorem startIllegalOp00 (ign : BitVec 28) : Statement (.startIllegalOp00 ign) :=
  toNat_and_eq _ _ _ (start_word_bits 0b00#2 ign)

theorem startCompress (ign : BitVec 28) : Statement (.startCompress ign) :=
  toNat_and_eq _ _ _ (start_word_bits 0b01#2 ign)

theorem startDecompress (ign : BitVec 28) : Statement (.startDecompress ign) :=
  toNat_and_eq _ _ _ (start_word_bits 0b10#2 ign)

theorem startIllegalOp11 (ign : BitVec 28) : Statement (.startIllegalOp11 ign) :=
  toNat_and_eq _ _ _ (start_word_bits 0b11#2 ign)

theorem clrDone (v : Word) : Statement (.clrDone v) := by
  simp [Statement, tableBits, encode, encodeReg, rowMatchMask]
theorem wrInLen (v : Word) : Statement (.wrInLen v) := by
  simp [Statement, tableBits, encode, encodeReg, rowMatchMask]
theorem wrOutCap (v : Word) : Statement (.wrOutCap v) := by
  simp [Statement, tableBits, encode, encodeReg, rowMatchMask]
theorem wrIrqEn (v : Word) : Statement (.wrIrqEn v) := by
  simp [Statement, tableBits, encode, encodeReg, rowMatchMask]
theorem wrRoId (v : Word) : Statement (.wrRoId v) := by
  simp [Statement, tableBits, encode, encodeReg, rowMatchMask]
theorem wrRoOutLen (v : Word) : Statement (.wrRoOutLen v) := by
  simp [Statement, tableBits, encode, encodeReg, rowMatchMask]
theorem wrRoTreeLen (v : Word) : Statement (.wrRoTreeLen v) := by
  simp [Statement, tableBits, encode, encodeReg, rowMatchMask]
theorem wrRoBitCount (v : Word) : Statement (.wrRoBitCount v) := by
  simp [Statement, tableBits, encode, encodeReg, rowMatchMask]
theorem wrRoNsym (v : Word) : Statement (.wrRoNsym v) := by
  simp [Statement, tableBits, encode, encodeReg, rowMatchMask]
theorem wrRoParamInMax (v : Word) : Statement (.wrRoParamInMax v) := by
  simp [Statement, tableBits, encode, encodeReg, rowMatchMask]
theorem wrRoParamOutMax (v : Word) : Statement (.wrRoParamOutMax v) := by
  simp [Statement, tableBits, encode, encodeReg, rowMatchMask]
theorem wrRoReserved30 (v : Word) : Statement (.wrRoReserved30 v) := by
  simp [Statement, tableBits, encode, encodeReg, rowMatchMask]
theorem wrRoReserved34 (v : Word) : Statement (.wrRoReserved34 v) := by
  simp [Statement, tableBits, encode, encodeReg, rowMatchMask]
theorem wrRoReserved38 (v : Word) : Statement (.wrRoReserved38 v) := by
  simp [Statement, tableBits, encode, encodeReg, rowMatchMask]
theorem wrRoReserved3C (v : Word) : Statement (.wrRoReserved3C v) := by
  simp [Statement, tableBits, encode, encodeReg, rowMatchMask]

theorem rdReg (off : Word) : Statement (.rdReg off) := by simp [Statement, rowMatchMask]
theorem hostInWrite (a : Nat) (v : Byte) : Statement (.hostInWrite a v) := by
  simp [Statement, encode, tableBits, rowMatchMask]
theorem hostInRead (a : Nat) : Statement (.hostInRead a) := by
  simp [Statement, encode, tableBits, rowMatchMask]
theorem hostOutRead (a : Nat) : Statement (.hostOutRead a) := by
  simp [Statement, encode, tableBits, rowMatchMask]
theorem hostOutWrite (a : Nat) (v : Byte) : Statement (.hostOutWrite a v) := by
  simp [Statement, encode, tableBits, rowMatchMask]
theorem header (t b : Word) : Statement (.header t b) := by
  simp [Statement, encode, tableBits, rowMatchMask]
theorem treeInternal : Statement .treeInternal := rfl
theorem treeLeaf (sym : Byte) : Statement (.treeLeaf sym) := by
  simp [Statement, encode, tableBits, rowMatchMask]

theorem treeReserved02 (low : BitVec 1) : Statement (.treeReserved02 low) := by
  revert low; unfold Statement; decide
theorem treeReserved04 (low : BitVec 2) : Statement (.treeReserved04 low) := by
  revert low; unfold Statement; decide
theorem treeReserved08 (low : BitVec 3) : Statement (.treeReserved08 low) := by
  revert low; unfold Statement; decide
theorem treeReserved10 (low : BitVec 4) : Statement (.treeReserved10 low) := by
  revert low; unfold Statement; decide
theorem treeReserved20 (low : BitVec 5) : Statement (.treeReserved20 low) := by
  revert low; unfold Statement; decide
theorem treeReserved40 (low : BitVec 6) : Statement (.treeReserved40 low) := by
  revert low; unfold Statement; decide
theorem treeReserved80 (low : BitVec 7) : Statement (.treeReserved80 low) := by
  revert low; unfold Statement; decide

theorem payloadBit0 : Statement .payloadBit0 := rfl
theorem payloadBit1 : Statement .payloadBit1 := rfl

end Sys2Proof.Laws.RowBits
end

