-- ==== Sys2Proof/Laws/Step.lean ====
section
/-! SUPPORT. What a step can do: what is fetched always decodes, and a step is either a plain one or runs one instruction. -/

namespace Sys2Proof.Machine

/-! ### What the engine reads always decodes -/

theorem decode_headerCode (s : State) : ∃ t b, decode s.headerCode = .ok (.header t b) :=
  ⟨_, _, rfl⟩

theorem decode_token_of_two (m v : Byte) (rest : List Byte) : ∃ i, decode (.token (m :: v :: rest)) = .ok i := by
  simp only [decode, decodeToken]
  split
  · exact ⟨_, rfl⟩
  · split <;> exact ⟨_, rfl⟩

/-- The marker decides what is read, so the token decodes; a byte after a marker that is no leaf's changes nothing. -/
theorem decode_tokenCode_eq (s : State) :
    decode s.tokenCode = decode (.token [s.markerByte, s.memRead (8 + s.eng.tpos.toNat + 1)]) := by
  unfold State.tokenCode
  by_cases h : s.markerByte = 0x01#8 <;> simp [h, decode, decodeToken]

theorem decode_tokenCode (s : State) : ∃ i, decode s.tokenCode = .ok i := by
  rw [decode_tokenCode_eq]
  exact decode_token_of_two _ _ _

theorem decode_payload (bit : Bool) :
    decode (.payload bit) = .ok (if bit then .payloadBit1 else .payloadBit0) := by
  cases bit <;> rfl

theorem hostStep_decodes (s u : State) (c : Code) (h : s.hostStep = .instr c u) : ∃ i, decode c = .ok i := by
  unfold State.hostStep at h
  split at h <;> try simp at h
  unfold State.accessStep at h
  split at h
  · rename_i hd
    obtain ⟨rfl, -⟩ := Fetched.instr.inj h
    exact ⟨_, hd⟩
  · simp at h

theorem engineStep_decodes (s u : State) (c : Code) (h : s.engineStep = .instr c u) :
    u = s ∧ ∃ i, decode c = .ok i := by
  unfold State.engineStep at h
  split at h <;> try simp at h
  · split at h <;> simp at h
    obtain ⟨rfl, rfl⟩ := h
    obtain ⟨t, b, hd⟩ := decode_headerCode s
    exact ⟨rfl, _, hd⟩
  · split at h <;> try simp at h
    split at h <;> try simp at h
    split at h <;> try simp at h
    split at h <;> simp at h
    obtain ⟨rfl, rfl⟩ := h
    exact ⟨rfl, decode_tokenCode s⟩
  · split at h <;> try simp at h
    split at h <;> simp at h
    obtain ⟨rfl, rfl⟩ := h
    exact ⟨rfl, _, decode_payload _⟩

/-- What is fetched decodes. -/
theorem fetch_decodes (s u : State) (c : Code) (h : fetch s = .instr c u) : ∃ i, decode c = .ok i := by
  unfold fetch at h
  split at h
  · simp at h
  · exact hostStep_decodes _ _ _ h
  · exact (engineStep_decodes _ _ _ h).2

/-! ### Inversion -/

/-- A step is a plain one, or the run of the one instruction fetched. -/
theorem step_cases (s t : State) (h : step s = .next t) :
    fetch s = .plain t ∨ ∃ c u i, fetch s = .instr c u ∧ decode c = .ok i ∧ exec i u = .next t := by
  unfold step at h
  split at h
  · rename_i hf
    left
    obtain rfl := Host.Outcome.next.inj h
    exact hf
  · rename_i c u hf
    right
    obtain ⟨i, hi⟩ := fetch_decodes s u c hf
    rw [hi] at h
    exact ⟨c, u, i, hf, hi, h⟩

/-- A plain fetch is the whole step. -/
theorem step_of_plain (s t : State) (h : fetch s = .plain t) : step s = .next t := by
  simp [step, h]

/-- A fetched instruction is run. -/
theorem step_of_instr (s u : State) (c : Code) (i : Instr) (h : fetch s = .instr c u) (hd : decode c = .ok i) :
    step s = exec i u := by
  simp [step, h, hd]

/-! ### Host rows and engine rows -/

/-- The rows the engine reads from the buffer; every other row is a host access. -/
def isEngineRow : Instr → Bool
  | .header _ _ => true
  | .treeInternal => true
  | .treeLeaf _ => true
  | .treeReserved02 _ => true
  | .treeReserved04 _ => true
  | .treeReserved08 _ => true
  | .treeReserved10 _ => true
  | .treeReserved20 _ => true
  | .treeReserved40 _ => true
  | .treeReserved80 _ => true
  | .payloadBit0 => true
  | .payloadBit1 => true
  | _ => false

theorem decodeCtrl_host (v : Word) : isEngineRow (decodeCtrl v) = false := by
  unfold decodeCtrl
  split
  · rfl
  · split
    · split <;> rfl
    · rfl

theorem decodeRegWrite_host (off : Nat) (v : Word) (i : Instr) (h : decodeRegWrite off v = .ok i) :
    isEngineRow i = false := by
  unfold decodeRegWrite at h
  split at h <;> first | (obtain rfl := Except.ok.inj h; first | rfl | exact decodeCtrl_host v) | cases h

/-- A host access never decodes to a row the engine reads. -/
theorem decode_access_host (a : Access) (i : Instr) (h : decode (.access a) = .ok i) : isEngineRow i = false := by
  cases a with
  | regRead w off =>
    simp only [decode, decodeAccess] at h
    split at h
    · cases h
    · obtain rfl := Except.ok.inj h; rfl
  | regWrite w off v =>
    simp only [decode, decodeAccess] at h
    split at h
    · cases h
    · exact decodeRegWrite_host _ _ _ h
  | inRead a => obtain rfl := Except.ok.inj h; rfl
  | inWrite a v => obtain rfl := Except.ok.inj h; rfl
  | outRead a => obtain rfl := Except.ok.inj h; rfl
  | outWrite a v => obtain rfl := Except.ok.inj h; rfl

end Sys2Proof.Machine
end

