-- ==== Sys2Proof/Tests/Slice0.lean ====
section
/-! SUPPORT. Small tests: ill-formed terms, words written out from the spec's encodings, the spec's own examples on small
states, and a state and operands that meet the hypotheses of each statement of Certificates/Slice0/Obligations.lean. -/

namespace Sys2Proof.Machine

/-! ### Ill-formed terms: the one check of WellFormed -/

theorem test_wf_rdReg_misaligned : (Instr.rdReg 0x05#32).wellFormed = false := by decide
theorem test_wf_rdReg_outside : (Instr.rdReg 0x40#32).wellFormed = false := by decide
theorem test_wf_rdReg_last : (Instr.rdReg 0x3C#32).wellFormed = true := by decide

/-! ### Decoding, by words written out from the spec: CTRL_WORD (R90, R92), bit 31 SRST, bits 2..1 OP, bit 0 START -/

/-- A CTRL write. -/
def wrCtrl (v : Word) : Code := .access (.regWrite .word 0x04#32 v)

theorem test_dec_srst : decode (wrCtrl 0b10000000000000000000000000000000#32) = .ok (.srst 0) := rfl
theorem test_dec_srst_start : decode (wrCtrl 0b10000000000000000000000000000011#32) = .ok (.srst 3) := rfl
theorem test_dec_setop : decode (wrCtrl 0b00000000000000000000000000000100#32) = .ok (.setop 0b10#2 0) := rfl
theorem test_dec_start00 : decode (wrCtrl 0b00000000000000000000000000000001#32) = .ok (.startIllegalOp00 0) := rfl
theorem test_dec_start01 : decode (wrCtrl 0b00000000000000000000000000000011#32) = .ok (.startCompress 0) := rfl
theorem test_dec_start10 : decode (wrCtrl 0b00000000000000000000000000000101#32) = .ok (.startDecompress 0) := rfl
theorem test_dec_start11 : decode (wrCtrl 0b00000000000000000000000000000111#32) = .ok (.startIllegalOp11 0) := rfl
theorem test_dec_ignored_bits :
    decode (wrCtrl 0b01000000000000000000000000001011#32) = .ok (.startCompress 0x8000001#28) := rfl

/-! ### Decoding: REG offsets (R23 to R33) -/

/-- A word write of v at a REG offset. -/
def wrReg (off v : Word) : Code := .access (.regWrite .word off v)

theorem test_dec_clrDone : decode (wrReg 0x08#32 2#32) = .ok (.clrDone 2) := rfl
theorem test_dec_wrInLen : decode (wrReg 0x0C#32 12#32) = .ok (.wrInLen 12) := rfl
theorem test_dec_wrOutCap : decode (wrReg 0x10#32 64#32) = .ok (.wrOutCap 64) := rfl
theorem test_dec_wrRoOutLen : decode (wrReg 0x14#32 5#32) = .ok (.wrRoOutLen 5) := rfl
theorem test_dec_wrRoTreeLen : decode (wrReg 0x18#32 5#32) = .ok (.wrRoTreeLen 5) := rfl
theorem test_dec_wrRoBitCount : decode (wrReg 0x1C#32 5#32) = .ok (.wrRoBitCount 5) := rfl
theorem test_dec_wrRoNsym : decode (wrReg 0x20#32 5#32) = .ok (.wrRoNsym 5) := rfl
theorem test_dec_wrIrqEn : decode (wrReg 0x24#32 1#32) = .ok (.wrIrqEn 1) := rfl
theorem test_dec_wrRoParamInMax : decode (wrReg 0x28#32 5#32) = .ok (.wrRoParamInMax 5) := rfl
theorem test_dec_wrRoParamOutMax : decode (wrReg 0x2C#32 5#32) = .ok (.wrRoParamOutMax 5) := rfl
theorem test_dec_wrRoReserved30 : decode (wrReg 0x30#32 5#32) = .ok (.wrRoReserved30 5) := rfl
theorem test_dec_wrRoReserved34 : decode (wrReg 0x34#32 5#32) = .ok (.wrRoReserved34 5) := rfl
theorem test_dec_wrRoReserved38 : decode (wrReg 0x38#32 5#32) = .ok (.wrRoReserved38 5) := rfl
theorem test_dec_wrRoReserved3C : decode (wrReg 0x3C#32 5#32) = .ok (.wrRoReserved3C 5) := rfl
theorem test_dec_wrRoId : decode (wrReg 0x00#32 5#32) = .ok (.wrRoId 5) := rfl
theorem test_dec_rdReg : decode (.access (.regRead .word 0x08#32)) = .ok (.rdReg 0x08) := rfl
theorem test_dec_narrow : decode (.access (.regRead .half 0x08#32)) = .error .narrowRegister := rfl
theorem test_dec_wide : decode (.access (.regRead .wide 0x08#32)) = .error .wideRegister := rfl
theorem test_dec_misaligned : decode (.access (.regRead .word 0x3E#32)) = .error .misalignedRegister := rfl
theorem test_dec_outside : decode (wrReg 0x40#32 1#32) = .error .noRegister := rfl

/-! ### Decoding: BUF_BYTE, the header of V-L1, the tokens of R96 to R98, payload bits -/

theorem test_dec_inWrite : decode (.access (.inWrite 1 0x61#8)) = .ok (.hostInWrite 1 0x61#8) := rfl
theorem test_dec_inRead : decode (.access (.inRead 1)) = .ok (.hostInRead 1) := rfl
theorem test_dec_outRead : decode (.access (.outRead 1)) = .ok (.hostOutRead 1) := rfl
theorem test_dec_outWrite : decode (.access (.outWrite 1 0x61#8)) = .ok (.hostOutWrite 1 0x61#8) := rfl
theorem test_dec_header :
    decode (.header [0x00#8, 0x00#8, 0x02#8, 0xFF#8, 0x00#8, 0x00#8, 0x08#8, 0x00#8]) = .ok (.header 767 2048) := rfl
theorem test_dec_header_short : decode (.header [0x00#8, 0x00#8]) = .error .truncatedHeader := rfl
theorem test_dec_internal : decode (.token [0b00000000#8, 0x01#8]) = .ok .treeInternal := rfl
theorem test_dec_leaf : decode (.token [0b00000001#8, 0x00#8]) = .ok (.treeLeaf 0x00#8) := rfl
theorem test_dec_reserved02 : decode (.token [0b00000010#8]) = .ok (.treeReserved02 0) := rfl
theorem test_dec_reserved04 : decode (.token [0b00000111#8]) = .ok (.treeReserved04 3) := rfl
theorem test_dec_reserved08 : decode (.token [0b00001001#8]) = .ok (.treeReserved08 1) := rfl
theorem test_dec_reserved10 : decode (.token [0b00011111#8]) = .ok (.treeReserved10 15) := rfl
theorem test_dec_reserved20 : decode (.token [0b00100000#8]) = .ok (.treeReserved20 0) := rfl
theorem test_dec_reserved40 : decode (.token [0b01000001#8]) = .ok (.treeReserved40 1) := rfl
theorem test_dec_reserved80 : decode (.token [0b11111111#8]) = .ok (.treeReserved80 0x7F#7) := rfl
theorem test_dec_bit0 : decode (.payload false) = .ok .payloadBit0 := rfl
theorem test_dec_bit1 : decode (.payload true) = .ok .payloadBit1 := rfl

/-! ### Small states -/

/-- The block idle after reset, with room for 8 bytes in and out. -/
def idleState : State :=
  { State.reset with regs := { State.reset.regs with inLen := 8, outCap := 8 } }

/-- A command running, its engine in phase p. -/
def busyState (p : Phase) (entering : Bool) : State :=
  { State.reset with
    regs := { State.reset.regs with busy := true, inLen := 8, outCap := 8 }
    eng := { Engine.atReset with phase := p, entering := entering } }

/-- A state with one host event waiting. -/
def waiting (s : State) (e : HostEvent) : State :=
  { s with host := { s.host with queue := [e], sched := [.host] } }

/-- A state with the given arena entries 0, 1 and 2. -/
def arena (s : State) (n0 n1 n2 : Node) : State :=
  { s with eng := ((s.eng.setNode 0 n0).setNode 1 n1).setNode 2 n2 }

/-- The tree 00 01 61 01 62 in the arena as D_TREE leaves it, its root at 0. -/
def twoLeafTree (s : State) : State :=
  { arena s (.internal 0 1 2) (.leaf 0x61#8 0) (.leaf 0x62#8 0) with
    eng := { (arena s (.internal 0 1 2) (.leaf 0x61#8 0) (.leaf 0x62#8 0)).eng with
      root := 0, rootValid := true, cur := 0, bReg := 1 } }

/-- A one-leaf tree 01 41 in the arena. -/
def oneLeafTree (s : State) : State :=
  { arena s (.leaf 0x41#8 0) (.leaf 0 0) (.leaf 0 0) with
    eng := { (arena s (.leaf 0x41#8 0) (.leaf 0 0) (.leaf 0 0)).eng with root := 0, rootValid := true, bReg := 3 } }

/-- The state after an outcome, the given state if there is none. -/
def after (s : State) : Host.Outcome State Fault Refusal → State
  | .next t => t
  | .fault _ => s
  | .refused _ => s

/-- The state after running an instruction. -/
def ran (i : Instr) (s : State) : State := after s (exec i s)

/-! ### The spec's own examples, one step each -/

/-- R130: `wr CTRL, 0x00000004` with BUSY = 0 makes CTRL read 0x00000004. -/
theorem test_setop : (ran (.setop 0b10#2 0) idleState).regRead 0x04 = 0x00000004#32 := by decide
/-- R131: after reset, `wr CTRL, 0x00000003` makes STATUS read 0x00000001. -/
theorem test_start : (ran (.startCompress 0) State.reset).regRead 0x08 = 0x00000001#32 := by decide
/-- R134: STATUS reads 0x000000D6 after a START with OP = 0b00, CHECK and FINISH. -/
theorem test_illegal_op :
    (after State.reset (step (after State.reset (step (ran (.startIllegalOp00 0) State.reset))))).regRead 0x08
      = 0x000000D6#32 := by decide
/-- R134, OP = 0b11. -/
theorem test_illegal_op11 :
    (after State.reset (step (after State.reset (step (ran (.startIllegalOp11 0) State.reset))))).regRead 0x08
      = 0x000000D6#32 := by decide
/-- R135: `wr CTRL, 0x80000003` while BUSY leaves STATUS = 0 and PHASE = IDLE. -/
theorem test_srst_busy : (ran (.srst 3) (busyState .cEnc false)).regRead 0x08 = 0
    ∧ (ran (.srst 3) (busyState .cEnc false)).eng.phase = .idle := by decide
/-- R136: STATUS = 0x000000D6, `wr STATUS, 2` gives 0x000000D4. -/
theorem test_clrDone :
    (ran (.clrDone 2) { idleState with regs := { idleState.regs with errCode := 13, err := true, done := true } }).regRead
      0x08 = 0x000000D4#32 := by decide
/-- R137: `wr IN_LEN, 12` then `rd IN_LEN` returns 12. -/
theorem test_wrInLen : (ran (.rdReg 0x0C) (ran (.wrInLen 12) idleState)).host.readData = 12 := by decide
/-- R138, R305: a write to OUT_CAP is lost while BUSY. -/
theorem test_wrOutCap_busy : (ran (.wrOutCap 64) (busyState .cEnc false)).regRead 0x10 = 8 := by decide
/-- R139: DONE = 1, `wr IRQ_EN, 1` raises IRQ. -/
theorem test_wrIrqEn :
    (ran (.wrIrqEn 1) { idleState with regs := { idleState.regs with done := true } }).regs.irq = true := by decide
/-- R140: `rd ID` returns 0x48554631. -/
theorem test_rdReg_id : (ran (.rdReg 0x00) State.reset).host.readData = 0x48554631#32 := by decide
/-- R64: a byte written to IN reads back, and an offset at IN_MAX (65536 here) takes nothing. -/
theorem test_hostIn : (ran (.hostInRead 2) (ran (.hostInWrite 2 0x63#8) idleState)).host.readData = 0x63#32 := by decide
theorem test_hostIn_outside : (ran (.hostInWrite 65536 0x63#8) idleState).inMem.cells = [] := by decide
/-- R64: OUT beyond OUT_MAX (131072 here) reads 0. -/
theorem test_hostOut_outside : (ran (.hostOutRead 131072) idleState).host.readData = 0 := by decide
/-- R8, R64, R106: `wrin` and `rdout` go on past offset 2^32 - 1 without coming back to offset 0. -/
theorem test_lines_exact :
    lineWrin 0xFFFFFFFF [0x61#8, 0x62#8] =
      [.access (.inWrite 0xFFFFFFFF 0x61#8), .access (.inWrite 0x100000000 0x62#8)] ∧
    lineRdout 0xFFFFFFFF 2 = [.access (.outRead 0xFFFFFFFF), .access (.outRead 0x100000000)] ∧
    (ran (.hostInWrite 0x100000000 0x62#8) idleState).inMem.cells = [] := by decide
/-- R230: a header 00 00 00 02 00 00 00 09 with IN_LEN = 11 fails the third check (9 > 8). -/
theorem test_header_bitcount :
    (ran (.header 2 9) { idleState with regs := { idleState.regs with inLen := 11 } }).eng.pending
      = some .fmtBitcount := by decide
/-- R230: T near 2^32 - 1 is FMT_SHORT_TREE, never an overflow. -/
theorem test_header_huge : (ran (.header 0xFFFFFFFF#32 0) idleState).eng.pending = some .fmtShortTree := by decide
/-- R232: the tokens 00 01 61 give node 0 internal with left child 1, a leaf 0x61. -/
theorem test_tokens :
    let t := ran (.treeLeaf 0x61#8) (ran .treeInternal
      { busyState .dTree false with eng := { (busyState .dTree false).eng with tReg := 8 } })
    t.eng.nodeAt 1 = .leaf 0x61#8 0 ∧ (t.eng.nodeAt 0).child false = 1 ∧ t.eng.tpos = 3 := by decide
/-- R98: a marker 0xFF is FMT_TREE_BAD_MARKER. -/
theorem test_reserved : (ran (.treeReserved80 0x7F#7) (busyState .dTree false)).eng.pending
    = some .fmtTreeBadMarker := by decide
/-- R237: with the tree 00 01 61 01 62 the bit 1 emits 0x62. -/
theorem test_bit1_emits :
    (ran .payloadBit1 (twoLeafTree (busyState .dDec false))).outMem.cells = [(0, 0x62#8)] := by decide
/-- R237, R239: with OUT_CAP = 0 the same bit is CAPACITY before CUR goes back to the root. -/
theorem test_bit1_capacity :
    let t := ran .payloadBit1 (let s := twoLeafTree (busyState .dDec false)
      { s with regs := { s.regs with outCap := 0 } })
    t.eng.pending = some .capacity ∧ t.eng.cur = 2 ∧ t.outMem.cells = [] := by decide
/-- R238: with the tree 01 41 a 0 bit emits 0x41 and a 1 bit is FMT_BAD_BIT. -/
theorem test_oneLeaf_bit0 :
    (ran .payloadBit0 (oneLeafTree (busyState .dDec false))).outMem.cells = [(0, 0x41#8)] := by decide
theorem test_oneLeaf_bit1 :
    (ran .payloadBit1 (oneLeafTree (busyState .dDec false))).eng.pending = some .fmtBadBit := by decide

/-- V-C17, row "flush": ACC = 10000000 and ACC_N = 2 go to OUT_MEM at the last step of C_ENC and stay. -/
theorem test_flush :
    let s := { busyState .cEnc false with
      eng := { (busyState .cEnc false).eng with iptr := 8, acc := 0x80#8, accN := 2, optr := 18 } }
    let t := after s (step s)
    t.outMem.cells = [(18, 0x80#8)] ∧ t.eng.acc = 0x80#8 ∧ t.eng.accN = 2 ∧ t.eng.phase = .finish := by decide

/-! ### The functional definitions on vectors of 95_test_vectors.md -/

/-- V-C1: the empty input. -/
theorem test_compress_empty :
    compress [] = ⟨[0x00#8, 0x00#8, 0x00#8, 0x00#8, 0x00#8, 0x00#8, 0x00#8, 0x00#8], 0, 0, 0⟩ := by decide +kernel
/-- V-C3: "abc". -/
theorem test_compress_abc :
    compress [0x61#8, 0x62#8, 0x63#8] =
      ⟨[0x00#8, 0x00#8, 0x00#8, 0x08#8, 0x00#8, 0x00#8, 0x00#8, 0x05#8,
        0x00#8, 0x01#8, 0x63#8, 0x00#8, 0x01#8, 0x61#8, 0x01#8, 0x62#8, 0xB0#8], 8, 5, 3⟩ := by decide +kernel
/-- V-C5: "AAA". -/
theorem test_compress_AAA :
    compress [0x41#8, 0x41#8, 0x41#8] =
      ⟨[0x00#8, 0x00#8, 0x00#8, 0x02#8, 0x00#8, 0x00#8, 0x00#8, 0x03#8, 0x01#8, 0x41#8, 0x00#8], 2, 3, 1⟩ := by
  decide +kernel
/-- R133: the output of V-C3 decodes to "abc". -/
theorem test_decompress_abc :
    decompress [0x00#8, 0x00#8, 0x00#8, 0x08#8, 0x00#8, 0x00#8, 0x00#8, 0x05#8,
        0x00#8, 0x01#8, 0x63#8, 0x00#8, 0x01#8, 0x61#8, 0x01#8, 0x62#8, 0xB0#8] 64
      = .ok ⟨[0x61#8, 0x62#8, 0x63#8], 8, 5, 3⟩ := by decide +kernel

/-! ### Witnesses: for each statement with hypotheses, a state and operands that meet them; one for each clause -/

theorem test_witness_DecodeEncodeRoundTrip : (Instr.rdReg 0x3C#32).wellFormed = true := by decide
theorem test_witness_EncodeDecodeAccess :
    decode (.access (.regWrite .word 0x04#32 0xFFFFFFFF#32)) = .ok (.srst 0x7FFFFFFF#31) := rfl
theorem test_witness_CtrlWordsByMask :
    0x80000000#32 &&& 0x80000000#32 = 0x80000000#32 ∧ 0x7FFFFFFE#32 &&& 0x80000001#32 = 0x00000000#32 ∧
    0x7FFFFFF9#32 &&& 0x80000007#32 = 0x00000001#32 ∧ 0x00000003#32 &&& 0x80000007#32 = 0x00000003#32 ∧
    0x7FFFFFFD#32 &&& 0x80000007#32 = 0x00000005#32 ∧ 0x00000007#32 &&& 0x80000007#32 = 0x00000007#32 := by decide
/-- The three clauses' boundary markers. -/
theorem test_witness_MarkerBytesDecode :
    (0x00#8 = 0x00#8) ∧ (0x01#8 = 0x01#8) ∧ (0x02#8 ≠ 0x00#8 ∧ 0x02#8 ≠ 0x01#8) ∧
    (0xFF#8 ≠ 0x00#8 ∧ 0xFF#8 ≠ 0x01#8) := by decide

/-- A read of STATUS. -/
def rdStatus : Access := .regRead .word 0x08#32

theorem test_witness_HostAccessRunsInstruction_idle :
    (waiting idleState (.access rdStatus)).host.queue = .access rdStatus :: [] ∧
    (waiting idleState (.access rdStatus)).nextAgent = some .host ∧
    decode (.access rdStatus) = .ok (.rdReg 0x08#32) := ⟨rfl, rfl, rfl⟩
theorem test_witness_HostAccessRunsInstruction_busy :
    (waiting (busyState .cEnc false) (.access rdStatus)).host.queue = .access rdStatus :: [] ∧
    (waiting (busyState .cEnc false) (.access rdStatus)).nextAgent = some .host := ⟨rfl, rfl⟩

/-- A running D_HDR with the header 0, 0 in IN_MEM. -/
def headerState : State :=
  { busyState .dHdr true with inMem := State.reset.inMem.writeList 0 [0, 0, 0, 0, 0, 0, 0, 0] }
/-- A running D_TREE before its first token, T = 1, the byte 0x00 and one more in the tree region. -/
def tokenState : State :=
  { busyState .dTree false with
    inMem := State.reset.inMem.writeList 8 [0x00#8, 0x00#8]
    eng := { (busyState .dTree false).eng with tReg := 1 } }

/-- A running D_TREE at a leaf's marker, its symbol 0x61 in the next byte, with the given T. -/
def leafState (tReg : Word) : State :=
  { busyState .dTree false with
    inMem := State.reset.inMem.writeList 8 [0x01#8, 0x61#8]
    eng := { (busyState .dTree false).eng with tReg := tReg } }

/-- R9, R232: with T = 1 the symbol byte is not read, no entry is written, and the code is FMT_TREE_PAST_END. -/
theorem test_leaf_past_end :
    (after State.reset (step (leafState 1))).eng.pending = some .fmtTreePastEnd ∧
    (after State.reset (step (leafState 1))).eng.nodeAt 0 = (leafState 1).eng.nodeAt 0 := by decide
/-- R232: with T = 2 the same bytes make a leaf. -/
theorem test_leaf_at_end : (after State.reset (step (leafState 2))).eng.nodeAt 0 = .leaf 0x61#8 0 := by decide

theorem test_witness_EngineReadRunsInstruction_header :
    EngineMoves headerState ∧ headerState.eng.phase = .dHdr ∧ 8 ≤ headerState.regs.inLen.toNat ∧
    decode (.header (headerState.inMem.readList 0 8)) = .ok (.header 0 0) :=
  ⟨rfl, rfl, by decide, rfl⟩
theorem test_witness_EngineReadRunsInstruction_token :
    EngineMoves tokenState ∧ tokenState.eng.phase = .dTree ∧ tokenState.eng.entering = false ∧
    tokenState.eng.ncount = 0 ∧ tokenState.eng.tpos.toNat < tokenState.eng.tReg.toNat ∧
    (tokenState.inMem.read (8 + tokenState.eng.tpos.toNat) = 0x01#8 →
      tokenState.eng.tpos.toNat + 1 < tokenState.eng.tReg.toNat) ∧
    decode (.token [tokenState.inMem.read (8 + tokenState.eng.tpos.toNat),
      tokenState.inMem.read (8 + tokenState.eng.tpos.toNat + 1)]) = .ok .treeInternal :=
  ⟨rfl, rfl, rfl, rfl, by decide, fun h => absurd h (by decide), rfl⟩
/-- A leaf's marker with its symbol byte as the last byte below T. -/
theorem test_witness_EngineReadRunsInstruction_leaf :
    EngineMoves (leafState 2) ∧ (leafState 2).eng.tpos.toNat + 1 < (leafState 2).eng.tReg.toNat ∧
    decode (.token [(leafState 2).inMem.read (8 + (leafState 2).eng.tpos.toNat),
      (leafState 2).inMem.read (8 + (leafState 2).eng.tpos.toNat + 1)]) = .ok (.treeLeaf 0x61#8) :=
  ⟨rfl, by decide, rfl⟩
theorem test_witness_EngineReadRunsInstruction_bit :
    EngineMoves (twoLeafTree (busyState .dDec false)) ∧
    (twoLeafTree (busyState .dDec false)).eng.phase = .dDec ∧
    (twoLeafTree (busyState .dDec false)).eng.entering = false ∧
    (twoLeafTree (busyState .dDec false)).eng.rpos.toNat < (twoLeafTree (busyState .dDec false)).eng.bReg.toNat :=
  ⟨rfl, rfl, rfl, by decide⟩

/-- A narrow, a misaligned and an absent register access. -/
theorem test_witness_BadRegisterAccess :
    (Width.byte ≠ .word) ∧ (Width.wide ≠ .word) ∧ (0x3F#32).toNat % 4 ≠ 0 ∧ 0x40 ≤ (0x40#32).toNat ∧
    (waiting idleState (.access (.regRead .byte 0x00#32))).nextAgent = some .host ∧
    (waiting idleState (.access (.regRead .byte 0x00#32))).host.queue = .access (.regRead .byte 0x00#32) :: [] ∧
    (waiting idleState (.access (.regWrite .word 0x40#32 1#32))).nextAgent = some .host ∧
    (waiting idleState (.access (.regWrite .word 0x40#32 1#32))).host.queue =
      .access (.regWrite .word 0x40#32 1#32) :: [] := by decide
theorem test_witness_SetOpStoresOp :
    (busyState .cEnc false).regs.busy = true ∧ idleState.regs.busy = false ∧
    0x7FFFFFFE#32 &&& 0x80000001#32 = 0x00000000#32 := by decide
theorem test_witness_StartAccepted : idleState.regs.busy = false ∧ (busyState .check true).regs.busy = true ∧
    (Instr.startIllegalOp11 0, 0b11#2) ∈ startRows 0 ∧
    0x7FFFFFFF#32 &&& 0x80000001#32 = 0x00000001#32 := by decide
theorem test_witness_StartWhileBusyIgnored : (busyState .finish true).regs.busy = true ∧
    (Instr.startCompress 0, 0b01#2) ∈ startRows 0 := by decide
theorem test_witness_RegisterReadAnswers : isWordSlot 0x00#32 = true ∧ isWordSlot 0x3C#32 = true := by decide
theorem test_witness_SoftResetResets :
    idleState.regs.busy = false ∧ (busyState .dDec false).regs.busy = true ∧
    7 < (busyState .dDec false).regs.outCap.toNat := by decide
theorem test_witness_HardResetResets :
    (waiting (busyState .dDec false) .hardReset).host.queue = .hardReset :: [] ∧
    (waiting (busyState .dDec false) .hardReset).nextAgent = some .host := ⟨rfl, rfl⟩
theorem test_witness_ClrDoneClearsDone : idleState.regs.busy = false ∧ (2#32).getLsbD 1 = true := by decide
theorem test_witness_WritesWithoutEffect :
    (0x3C#32, Instr.wrRoReserved3C 5) ∈ [(0x00#32, Instr.wrRoId 5), (0x14#32, .wrRoOutLen 5), (0x18#32, .wrRoTreeLen 5),
      (0x1C#32, .wrRoBitCount 5), (0x20#32, .wrRoNsym 5), (0x28#32, .wrRoParamInMax 5), (0x2C#32, .wrRoParamOutMax 5),
      (0x30#32, .wrRoReserved30 5), (0x34#32, .wrRoReserved34 5), (0x38#32, .wrRoReserved38 5),
      (0x3C#32, .wrRoReserved3C 5)] := by decide
/-- The last offset of each space and the first one beyond it, idle and busy. -/
theorem test_witness_HostReadsAnswer :
    State.reset.regs.outMax.toNat ≤ 131072 ∧
    (131071 < idleState.regs.outMax.toNat ∧ idleState.regs.busy = false) ∧
    (131071 < (busyState .dDec false).regs.outMax.toNat ∧ (busyState .dDec false).regs.busy = true) := by
  decide
theorem test_witness_HostInWriteStores :
    (65535 < idleState.regs.inMax.toNat ∧ idleState.regs.busy = false) ∧
    ¬ 65536 < idleState.regs.inMax.toNat := by decide

/-- A running phase with the given IN_LEN. -/
def withLen (s : State) (n : Word) : State := { s with regs := { s.regs with inLen := n } }

/-- The lengths fit exactly: IN_LEN = 11, T = 2 and B = 8. -/
theorem test_witness_HeaderAccepted :
    8 ≤ (withLen (busyState .dHdr true) 11).regs.inLen.toNat ∧
    (2#32).toNat ≤ (withLen (busyState .dHdr true) 11).regs.inLen.toNat - 8 ∧
    (8#32).toNat ≤ 8 * ((withLen (busyState .dHdr true) 11).regs.inLen.toNat - 8 - (2#32).toNat) := by decide
/-- IN_LEN = 7; T one too long; B one too many. -/
theorem test_witness_HeaderRejected :
    (EngineMoves (withLen (busyState .dHdr true) 7) ∧ (withLen (busyState .dHdr true) 7).eng.phase = .dHdr ∧
      (withLen (busyState .dHdr true) 7).regs.inLen.toNat < 8) ∧
    (8 ≤ idleState.regs.inLen.toNat ∧ idleState.regs.inLen.toNat - 8 < (1#32).toNat) ∧
    (8 ≤ (withLen idleState 11).regs.inLen.toNat ∧ (2#32).toNat ≤ (withLen idleState 11).regs.inLen.toNat - 8 ∧
      8 * ((withLen idleState 11).regs.inLen.toNat - 8 - (2#32).toNat) < (9#32).toNat) :=
  ⟨⟨rfl, rfl, by decide⟩, by decide, by decide⟩

/-- D_TREE before its first token, T = 767. -/
def firstToken : State :=
  { busyState .dTree false with eng := { (busyState .dTree false).eng with tReg := 767 } }
/-- D_TREE after `00 01 61`: node 0 is open, node 1 is its left child. -/
def thirdToken : State :=
  { arena firstToken (.internal 0 1 0) (.leaf 0x61#8 0) (.leaf 0 0) with
    eng := { (arena firstToken (.internal 0 1 0) (.leaf 0x61#8 0) (.leaf 0 0)).eng with
      parseStack := [0], ncount := 2, tpos := 3, seen := [0x61#8] } }

theorem test_witness_OpenNodeBefore_first : OpenNodeBefore firstToken 0 := fun _ _ h => nomatch h
theorem test_witness_OpenNodeBefore_third : OpenNodeBefore thirdToken 2 := by
  intro p rest h
  obtain ⟨rfl, -⟩ := List.cons.inj h
  exact ⟨by decide, by decide⟩
theorem test_witness_InternalTokenOpensNode :
    (0 : NodeIdx).val = firstToken.eng.ncount.toNat ∧ OpenNodeBefore firstToken 0 ∧
    (2 : NodeIdx).val = thirdToken.eng.ncount.toNat ∧ OpenNodeBefore thirdToken 2 :=
  ⟨by decide, test_witness_OpenNodeBefore_first, by decide, test_witness_OpenNodeBefore_third⟩
theorem test_witness_LeafTokenPlacesSymbol :
    (2 : NodeIdx).val = thirdToken.eng.ncount.toNat ∧ OpenNodeBefore thirdToken 2 ∧
    thirdToken.eng.tpos.toNat + 1 < thirdToken.eng.tReg.toNat ∧ 0x62#8 ∉ thirdToken.eng.seen :=
  ⟨by decide, test_witness_OpenNodeBefore_third, by decide, by decide⟩
theorem test_witness_TreeTokenErrors :
    ({ thirdToken with eng := { thirdToken.eng with ncount := 511 } } : State).eng.ncount = 511 ∧
    (({ thirdToken with eng := { thirdToken.eng with ncount := 510 } } : State).eng.ncount.toNat < 511 ∧
      ({ thirdToken with eng := { thirdToken.eng with tReg := 4 } } : State).eng.tpos.toNat + 1 =
        ({ thirdToken with eng := { thirdToken.eng with tReg := 4 } } : State).eng.tReg.toNat) ∧
    (thirdToken.eng.ncount.toNat < 511 ∧ thirdToken.eng.tpos.toNat + 1 < thirdToken.eng.tReg.toNat ∧
      0x61#8 ∈ thirdToken.eng.seen) := by decide
theorem test_witness_ReservedMarkersRaise :
    (∃ low, Instr.treeReserved02 0 = .treeReserved02 low) ∧ (∃ low, Instr.treeReserved80 127 = .treeReserved80 low) :=
  ⟨⟨_, rfl⟩, ⟨_, rfl⟩⟩

/-- D_TREE with the given parse position. -/
def parseAt (entering : Bool) (tReg tpos : Word) (ncount : BitVec 10) (stack : List NodeIdx) : State :=
  { busyState .dTree entering with
    eng := { (busyState .dTree entering).eng with tReg := tReg, tpos := tpos, ncount := ncount, parseStack := stack } }

/-- A leaf's marker in the last byte below T. -/
theorem test_witness_TreeRegionBounds_leaf :
    EngineMoves (leafState 1) ∧ (leafState 1).eng.phase = .dTree ∧ (leafState 1).eng.entering = false ∧
    (leafState 1).eng.ncount = 0 ∧ (leafState 1).eng.tpos.toNat + 1 = (leafState 1).eng.tReg.toNat ∧
    (leafState 1).inMem.read (8 + (leafState 1).eng.tpos.toNat) = 0x01#8 :=
  ⟨rfl, rfl, rfl, rfl, by decide, by decide⟩
/-- Entry with T = 0 and with T = 2; a token needed at T; a complete tree at T and before T. -/
theorem test_witness_TreeRegionBounds :
    (EngineMoves (parseAt true 0 0 0 []) ∧ (parseAt true 0 0 0 []).eng.tReg = 0) ∧
    (EngineMoves (parseAt true 2 0 0 []) ∧ (parseAt true 2 0 0 []).eng.tReg ≠ 0) ∧
    (EngineMoves (parseAt false 1 1 1 [0]) ∧ (parseAt false 1 1 1 [0]).eng.parseStack ≠ [] ∧
      (parseAt false 1 1 1 [0]).eng.tReg.toNat ≤ (parseAt false 1 1 1 [0]).eng.tpos.toNat) ∧
    (EngineMoves (parseAt false 2 2 1 []) ∧ (parseAt false 2 2 1 []).eng.ncount ≠ 0 ∧
      (parseAt false 2 2 1 []).eng.parseStack = [] ∧ (parseAt false 2 2 1 []).eng.tpos = (parseAt false 2 2 1 []).eng.tReg) ∧
    (EngineMoves (parseAt false 3 2 1 []) ∧ (parseAt false 3 2 1 []).eng.tpos ≠ (parseAt false 3 2 1 []).eng.tReg) :=
  ⟨⟨rfl, by decide⟩, ⟨rfl, by decide⟩, ⟨rfl, by decide, by decide⟩, ⟨rfl, by decide, by decide, by decide⟩,
    ⟨rfl, by decide⟩⟩

/-- The tree 00 00 .. in the arena: the root's left child is internal. -/
def deepTree : State :=
  arena (busyState .dDec false) (.internal 0 1 2) (.internal 0 2 2) (.leaf 0x61#8 0)

/-- The root's left child is internal, its right child a leaf; OPTR one below OUT_CAP, and at OUT_CAP. -/
theorem test_witness_PayloadBitWalksTree :
    (deepTree.eng.nodeAt deepTree.eng.root).isLeaf = false ∧
    (1 = (deepTree.eng.nodeAt deepTree.eng.cur).child false ∧ (deepTree.eng.nodeAt 1).isLeaf = false) ∧
    (2 = (deepTree.eng.nodeAt deepTree.eng.cur).child true ∧ deepTree.eng.nodeAt 2 = .leaf 0x61#8 0) ∧
    ({ deepTree with eng := { deepTree.eng with optr := 7 } } : State).eng.optr.toNat < deepTree.regs.outCap.toNat ∧
    deepTree.regs.outCap.toNat ≤ ({ deepTree with eng := { deepTree.eng with optr := 8 } } : State).eng.optr.toNat := by
  decide
theorem test_witness_OneLeafBits :
    (oneLeafTree (busyState .dDec false)).eng.nodeAt (oneLeafTree (busyState .dDec false)).eng.root = .leaf 0x41#8 0 ∧
    (oneLeafTree (busyState .dDec false)).eng.optr.toNat < (oneLeafTree (busyState .dDec false)).regs.outCap.toNat ∧
    ({ oneLeafTree (busyState .dDec false) with
      regs := { (busyState .dDec false).regs with outCap := 0 } } : State).regs.outCap.toNat ≤
      (oneLeafTree (busyState .dDec false)).eng.optr.toNat := by decide

/-- D_DEC with the given tree flag, bit count, position and node. -/
def decAt (entering valid : Bool) (bReg rpos : Word) (cur : NodeIdx) : State :=
  { busyState .dDec entering with
    eng := { (busyState .dDec entering).eng with rootValid := valid, bReg := bReg, rpos := rpos, cur := cur } }

theorem test_witness_DecodeEntryAndEnd :
    (EngineMoves (decAt true true 0 0 0) ∧ (decAt true true 0 0 0).eng.rootValid = true) ∧
    (EngineMoves (decAt true false 0 0 0) ∧ (decAt true false 0 0 0).eng.bReg = 0) ∧
    (EngineMoves (decAt true false 1 0 0) ∧ (decAt true false 1 0 0).eng.bReg ≠ 0) ∧
    (EngineMoves (decAt false true 1 1 0) ∧ (decAt false true 1 1 0).eng.bReg.toNat ≤ (decAt false true 1 1 0).eng.rpos.toNat ∧
      (decAt false true 1 1 0).eng.cur = (decAt false true 1 1 0).eng.root) ∧
    (EngineMoves (decAt false true 1 1 2) ∧ (decAt false true 1 1 2).eng.cur ≠ (decAt false true 1 1 2).eng.root) :=
  ⟨⟨rfl, rfl⟩, ⟨rfl, by decide⟩, ⟨rfl, by decide⟩, ⟨rfl, by decide, by decide⟩, ⟨rfl, by decide⟩⟩

/-- CHECK with the given OP and lengths; IN_MAX is 65536 and OUT_MAX 131072. -/
def checkAt (op : BitVec 2) (inLen outCap : Word) : State :=
  { busyState .check true with
    regs := { (busyState .check true).regs with op := op, inLen := inLen, outCap := outCap } }

/-- Illegal OP with an illegal length; IN_LEN and OUT_CAP one too large; both at their limits. -/
theorem test_witness_CheckPhaseOrder :
    (EngineMoves (checkAt 0b11 65537 0) ∧ (checkAt 0b11 65537 0).regs.op ≠ 0b01#2 ∧ (checkAt 0b11 65537 0).regs.op ≠ 0b10#2) ∧
    (EngineMoves (checkAt 0b01 65537 0) ∧
      (checkAt 0b01 65537 0).regs.inMax.toNat < (checkAt 0b01 65537 0).regs.inLen.toNat) ∧
    (EngineMoves (checkAt 0b10 0 131073) ∧
      (checkAt 0b10 0 131073).regs.outMax.toNat < (checkAt 0b10 0 131073).regs.outCap.toNat) ∧
    (EngineMoves (checkAt 0b10 65536 131072) ∧ (checkAt 0b10 65536 131072).eng.phase = .check) :=
  ⟨⟨rfl, by decide, by decide⟩, ⟨rfl, by decide⟩, ⟨rfl, by decide⟩, ⟨rfl, rfl⟩⟩

/-- FINISH with the given OP and pending error. -/
def finishAt (op : BitVec 2) (k : Option ErrorKind) : State :=
  { busyState .finish true with
    regs := { (busyState .finish true).regs with op := op }
    eng := { (busyState .finish true).eng with pending := k } }

theorem test_witness_FinishAfterSuccess :
    EngineMoves (finishAt 0b01 none) ∧ (finishAt 0b01 none).eng.phase = .finish ∧
    (finishAt 0b01 none).eng.pending = none := ⟨rfl, rfl, rfl⟩
theorem test_witness_FinishAfterError :
    EngineMoves (finishAt 0b10 (some .config)) ∧ (finishAt 0b10 (some .config)).eng.phase = .finish ∧
    (finishAt 0b10 (some .config)).eng.pending = some .config := ⟨rfl, rfl, rfl⟩
/-- CAPACITY in DECOMPRESS leaves the output open, in COMPRESS it does not. -/
theorem test_witness_OutputAfterError :
    (EngineMoves (finishAt 0b10 (some .capacity)) ∧ step (finishAt 0b10 (some .capacity)) =
      .next (after State.reset (step (finishAt 0b10 (some .capacity))))) ∧
    (EngineMoves (finishAt 0b01 (some .capacity)) ∧ step (finishAt 0b01 (some .capacity)) =
      .next (after State.reset (step (finishAt 0b01 (some .capacity))))) :=
  ⟨⟨rfl, rfl⟩, ⟨rfl, rfl⟩⟩

/-- A phase whose counter IPTR stands at i. -/
def iptrAt (p : Phase) (i : Word) : State :=
  { busyState p false with eng := { (busyState p false).eng with iptr := i } }

/-- Entry; the last byte (IN_LEN is 8); the end. -/
theorem test_witness_CountPhase :
    (EngineMoves (busyState .cCount true) ∧ (busyState .cCount true).eng.entering = true) ∧
    (EngineMoves (iptrAt .cCount 7) ∧ (iptrAt .cCount 7).eng.iptr.toNat < (iptrAt .cCount 7).regs.inLen.toNat) ∧
    (EngineMoves (iptrAt .cCount 8) ∧ (iptrAt .cCount 8).regs.inLen.toNat ≤ (iptrAt .cCount 8).eng.iptr.toNat) :=
  ⟨⟨rfl, rfl⟩, ⟨rfl, by decide⟩, ⟨rfl, by decide⟩⟩

/-- C_LEAF at byte value n, with k leaves made. -/
def leafAt (n : BitVec 9) (k : BitVec 10) : State :=
  { busyState .cLeaf false with eng := { (busyState .cLeaf false).eng with leafSym := n, ncount := k } }

/-- Entry; the last byte value with all 255 leaves before it; the end. -/
theorem test_witness_LeafPhase :
    (EngineMoves (busyState .cLeaf true) ∧ (busyState .cLeaf true).eng.entering = true) ∧
    (EngineMoves (leafAt 255 255) ∧ (leafAt 255 255).eng.leafSym.toNat = (0xFF#8).toNat ∧
      (255 : NodeIdx).val = (leafAt 255 255).eng.ncount.toNat) ∧
    (EngineMoves (leafAt 256 256) ∧ 256 ≤ (leafAt 256 256).eng.leafSym.toNat) :=
  ⟨⟨rfl, rfl⟩, ⟨rfl, by decide, by decide⟩, ⟨rfl, by decide⟩⟩

/-- C_MERGE with the given active nodes and number of nodes. -/
def mergeAt (act : List NodeIdx) (k : BitVec 10) : State :=
  { busyState .cMerge true with eng := { (busyState .cMerge true).eng with active := act, ncount := k } }

/-- Two active nodes of equal frequency; the last merge, into node 510; one node; none. -/
theorem test_witness_MergePhase :
    (EngineMoves (mergeAt [0, 1] 2) ∧ (2 : NodeIdx).val = (mergeAt [0, 1] 2).eng.ncount.toNat ∧
      2 ≤ (mergeAt [0, 1] 2).eng.active.length ∧ (mergeAt [0, 1] 2).eng.active.Nodup ∧
      ∀ x, x ∈ (mergeAt [0, 1] 2).eng.active → x.val < (2 : NodeIdx).val) ∧
    (EngineMoves (mergeAt [508, 509] 510) ∧ (510 : NodeIdx).val = (mergeAt [508, 509] 510).eng.ncount.toNat ∧
      ∀ x, x ∈ (mergeAt [508, 509] 510).eng.active → x.val < (510 : NodeIdx).val) ∧
    (EngineMoves (mergeAt [0] 1) ∧ (mergeAt [0] 1).eng.active = [0]) ∧
    (EngineMoves (mergeAt [] 0) ∧ (mergeAt [] 0).eng.active = []) := by
  refine ⟨⟨rfl, rfl, by decide, by decide, ?_⟩, ⟨rfl, rfl, ?_⟩, ⟨rfl, rfl⟩, ⟨rfl, rfl⟩⟩ <;>
  · intro x hx
    simp only [mergeAt, List.mem_cons, List.not_mem_nil, or_false] at hx
    rcases hx with rfl | rfl <;> decide

/-- C_CODE with the given stack, over the tree with the leaves 0x61 and 0x62. -/
def codeAtStack (entering : Bool) (stack : List (NodeIdx × List Bool)) : State :=
  { twoLeafTree (busyState .cCode entering) with
    eng := { (twoLeafTree (busyState .cCode entering)).eng with codeStack := stack } }

theorem test_witness_CodePhase :
    (EngineMoves (busyState .cCode true) ∧ (busyState .cCode true).eng.rootValid = false) ∧
    (EngineMoves (oneLeafTree (busyState .cCode true)) ∧ (oneLeafTree (busyState .cCode true)).eng.rootValid = true ∧
      (oneLeafTree (busyState .cCode true)).eng.nodeAt (oneLeafTree (busyState .cCode true)).eng.root = .leaf 0x41#8 0) ∧
    (EngineMoves (codeAtStack true []) ∧
      ((codeAtStack true []).eng.nodeAt (codeAtStack true []).eng.root).isLeaf = false) ∧
    (EngineMoves (codeAtStack false []) ∧ (codeAtStack false []).eng.codeStack = []) ∧
    (EngineMoves (codeAtStack false [(1, [false])]) ∧
      (codeAtStack false [(1, [false])]).eng.nodeAt 1 = .leaf 0x61#8 0) ∧
    (EngineMoves (codeAtStack false [(0, [])]) ∧ (codeAtStack false [(0, [])]).eng.nodeAt 0 = .internal 0 1 2) :=
  ⟨⟨rfl, rfl⟩, ⟨rfl, rfl, by decide⟩, ⟨rfl, by decide⟩, ⟨rfl, rfl⟩, ⟨rfl, by decide⟩, ⟨rfl, by decide⟩⟩

/-- FREQ and the code table are empty: B = 0, T = 0, TOTAL = 8, exactly OUT_CAP. -/
theorem test_witness_SizePhase :
    EngineMoves (busyState .cSize true) ∧ (busyState .cSize true).eng.phase = .cSize ∧
    (0 : Nat) = ((List.range 256).map (fun n =>
      ((busyState .cSize true).eng.freqAt (BitVec.ofNat 8 n)).toNat *
        ((busyState .cSize true).eng.codeAt (BitVec.ofNat 8 n)).length)).sum ∧
    (0 : Nat) = (if (busyState .cSize true).eng.kReg = 0 then 0 else 3 * (busyState .cSize true).eng.kReg.toNat - 1) ∧
    8 = 8 + 0 + (0 + 7) / 8 :=
  ⟨rfl, rfl, by decide +kernel, by decide, by decide⟩
theorem test_witness_HeaderPhase :
    EngineMoves (busyState .cHdr true) ∧ (busyState .cHdr true).eng.phase = .cHdr := ⟨rfl, rfl⟩

/-- C_TREE with the given stack, over the tree with the leaves 0x61 and 0x62. -/
def treeAtStack (stack : List NodeIdx) : State :=
  { twoLeafTree (busyState .cTree false) with
    eng := { (twoLeafTree (busyState .cTree false)).eng with treeStack := stack } }

theorem test_witness_TreePhase :
    (EngineMoves (busyState .cTree true) ∧ (busyState .cTree true).eng.entering = true) ∧
    (EngineMoves (treeAtStack []) ∧ (treeAtStack []).eng.treeStack = []) ∧
    (EngineMoves (treeAtStack [2]) ∧ (treeAtStack [2]).eng.nodeAt 2 = .leaf 0x62#8 0) ∧
    (EngineMoves (treeAtStack [0]) ∧ (treeAtStack [0]).eng.nodeAt 0 = .internal 0 1 2) :=
  ⟨⟨rfl, rfl⟩, ⟨rfl, rfl⟩, ⟨rfl, by decide⟩, ⟨rfl, by decide⟩⟩

/-- C_ENC at the last input byte 0x61, whose code is "1", with ACC_N = n. -/
def encAt (n : BitVec 3) : State :=
  { iptrAt .cEnc 7 with
    inMem := State.reset.inMem.write 7 0x61#8
    eng := { (iptrAt .cEnc 7).eng.setCode 0x61#8 [true] with accN := n } }

theorem test_witness_EncodePhase :
    (EngineMoves (busyState .cEnc true) ∧ (busyState .cEnc true).eng.entering = true) ∧
    (EngineMoves (encAt 7) ∧ (encAt 7).eng.iptr.toNat < (encAt 7).regs.inLen.toNat ∧
      0x61#8 = (encAt 7).inMem.read (encAt 7).eng.iptr.toNat ∧
      ((encAt 7).eng.codeAt 0x61#8)[(encAt 7).eng.cbit.toNat]? = some true ∧ (encAt 7).eng.accN.toNat = 7) ∧
    (EngineMoves (encAt 0) ∧ ((encAt 0).eng.codeAt 0x61#8)[(encAt 0).eng.cbit.toNat]? = some true ∧
      (encAt 0).eng.accN.toNat ≠ 7) ∧
    (EngineMoves (iptrAt .cEnc 8) ∧ (iptrAt .cEnc 8).regs.inLen.toNat ≤ (iptrAt .cEnc 8).eng.iptr.toNat) :=
  ⟨⟨rfl, rfl⟩, ⟨rfl, by decide, by decide, by decide, by decide⟩, ⟨rfl, by decide, by decide⟩, ⟨rfl, by decide⟩⟩

/-! ### Witnesses of the invariants and the whole-machine rules -/

theorem test_witness_FlagsInvariant_reset : State.reset.FlagsOk :=
  ⟨by decide, by decide, by decide, by decide, by decide⟩
theorem test_witness_FlagsInvariant_busy :
    (busyState .cEnc true).FlagsOk ∧
      step (busyState .cEnc true) = .next (after State.reset (step (busyState .cEnc true))) :=
  ⟨⟨by decide, by decide, by decide, by decide, by decide⟩, rfl⟩
theorem test_witness_MemoryInvariant :
    (busyState .cHdr true).MemOk ∧
      step (busyState .cHdr true) = .next (after State.reset (step (busyState .cHdr true))) :=
  ⟨⟨by decide, by decide⟩, rfl⟩
/-- C_MERGE with two nodes, and D_TREE with one open node. -/
theorem test_witness_ArenaInvariant :
    (mergeAt [0, 1] 2).ArenaOk ∧ thirdToken.ArenaOk ∧
      step (mergeAt [0, 1] 2) = .next (after State.reset (step (mergeAt [0, 1] 2))) := by
  refine ⟨⟨fun _ => ⟨by decide, ?_⟩, nofun, fun _ => by decide, nofun⟩,
    ⟨fun h => by rcases h with ⟨h, -⟩ | h <;> exact (nomatch h), nofun, nofun, fun _ _ => ⟨by decide, ?_⟩⟩, rfl⟩
  · intro x hx
    simp only [mergeAt, List.mem_cons, List.not_mem_nil, or_false] at hx
    rcases hx with rfl | rfl <;> decide
  · intro p hp
    obtain rfl : p = 0 := by simpa [thirdToken] using hp
    exact ⟨by decide, by decide⟩
theorem test_witness_ParametersConstant :
    step (waiting idleState .hardReset) = .next (after State.reset (step (waiting idleState .hardReset))) := rfl
theorem test_witness_BuffersHaveOneWriter :
    EngineMoves (busyState .cHdr true) ∧
    (waiting (busyState .cHdr false) (.access (.outWrite 0 1#8))).nextAgent = some .host ∧
    (∀ e rest, (waiting (busyState .cHdr false) (.access (.outWrite 0 1#8))).host.queue = e :: rest →
      ¬ ResetEvent e) :=
  ⟨rfl, rfl, fun e rest h => by obtain ⟨rfl, -⟩ := List.cons.inj h; exact id⟩
theorem test_witness_ResultsHoldUntilFinish :
    (EngineMoves (busyState .cEnc true) → (busyState .cEnc true).eng.phase ≠ .finish) ∧
    ((busyState .cEnc true).nextAgent = some .host →
      ∀ e rest, (busyState .cEnc true).host.queue = e :: rest → ¬ ResetEvent e) :=
  ⟨fun _ => by decide, fun h => nomatch h⟩
theorem test_witness_BusyBlocksHost :
    (waiting (busyState .cEnc false) (.access (.regWrite .word 0x24#32 1#32))).regs.busy = true ∧
    (waiting (busyState .cEnc false) (.access (.regWrite .word 0x24#32 1#32))).nextAgent = some .host ∧
    (waiting (busyState .cEnc false) (.access (.regWrite .word 0x24#32 1#32))).host.queue =
      .access (.regWrite .word 0x24#32 1#32) :: [] ∧
    ¬ ResetEvent (.access (.regWrite .word 0x24#32 1#32)) :=
  ⟨rfl, rfl, rfl, fun h => absurd h.1 (by decide)⟩
theorem test_witness_TreeDependsOnFrequencies : [0x61#8, 0x62#8].Perm [0x62#8, 0x61#8] := List.Perm.swap _ _ _
theorem test_witness_CodesArePrefixFree : (PTree.node (.leaf 0x41#8) (.leaf 0x42#8)).syms.Nodup ∧
    0x41#8 ∈ (PTree.node (.leaf 0x41#8) (.leaf 0x42#8)).syms ∧ 0x43#8 ∉ (PTree.node (.leaf 0x41#8) (.leaf 0x42#8)).syms := by
  decide
theorem test_witness_RoundTrip :
    ([0x61#8, 0x62#8] : List Byte).length ≤ inMaxBound ∧ ([0x61#8, 0x62#8] : List Byte).length ≤ 2 := by decide
theorem test_witness_CompressRunsToItsFunction :
    (checkAt 0b01 65536 131072).eng.phase = .check ∧ (checkAt 0b01 65536 131072).host.queue = [] ∧
    (checkAt 0b01 65536 131072).regs.op = 0b01#2 ∧ (checkAt 0b01 65536 131072).ParamsOk ∧
    (checkAt 0b01 65536 131072).regs.inLen.toNat ≤ (checkAt 0b01 65536 131072).regs.inMax.toNat ∧
    (checkAt 0b01 65536 131072).regs.outCap.toNat ≤ (checkAt 0b01 65536 131072).regs.outMax.toNat :=
  ⟨rfl, rfl, rfl, by unfold State.ParamsOk; decide, by decide, by decide⟩
theorem test_witness_DecompressRunsToItsFunction :
    (checkAt 0b10 65536 131072).eng.phase = .check ∧ (checkAt 0b10 65536 131072).host.queue = [] ∧
    (checkAt 0b10 65536 131072).regs.op = 0b10#2 ∧
    (checkAt 0b10 65536 131072).regs.inLen.toNat ≤ (checkAt 0b10 65536 131072).regs.inMax.toNat ∧
    (checkAt 0b10 65536 131072).regs.outCap.toNat ≤ (checkAt 0b10 65536 131072).regs.outMax.toNat :=
  ⟨rfl, rfl, rfl, by decide, by decide⟩
/-- A DECOMPRESS of no bytes with other internal files, another output buffer and other old results. -/
def otherCheck : State :=
  { checkAt 0b10 0 0 with
    regs := { (checkAt 0b10 0 0).regs with outLen := 5, treeLen := 2, bitCount := 3, nsym := 1 }
    eng := { (checkAt 0b10 0 0).eng with
      root := 7, rootValid := true, ncount := 9, seen := [0x41#8], optr := 5, tReg := 2, pending := some .capacity }
    outMem := (checkAt 0b10 0 0).outMem.write 0 0x41#8 }

/-- A DECOMPRESS of no bytes ends after CHECK, D_HDR and FINISH; the second machine differs in what may differ. -/
theorem test_witness_CommandIgnoresOldState :
    (checkAt 0b10 0 0).eng.phase = .check ∧ otherCheck.eng.phase = .check ∧
    (checkAt 0b10 0 0).host.queue = [] ∧ otherCheck.host.queue = [] ∧ (checkAt 0b10 0 0).ParamsOk ∧
    otherCheck.regs = { (checkAt 0b10 0 0).regs with
      outLen := otherCheck.regs.outLen, treeLen := otherCheck.regs.treeLen,
      bitCount := otherCheck.regs.bitCount, nsym := otherCheck.regs.nsym } ∧
    (∀ a, a < (checkAt 0b10 0 0).regs.inLen.toNat → otherCheck.inMem.read a = (checkAt 0b10 0 0).inMem.read a) ∧
    (∃ t, runFor 3 (checkAt 0b10 0 0) = some t ∧ t.eng.phase = .idle) ∧
    otherCheck.eng.root ≠ (checkAt 0b10 0 0).eng.root ∧ otherCheck.regs.outLen ≠ (checkAt 0b10 0 0).regs.outLen :=
  ⟨rfl, rfl, rfl, rfl, by unfold State.ParamsOk; decide, rfl, fun _ _ => rfl, ⟨_, rfl, rfl⟩, by decide, by decide⟩

end Sys2Proof.Machine
end

section
/-! Proofs of the statements about the host's register accesses and commands (40_commands.md sections 1 to 3). -/

namespace Sys2Proof.Machine

/-! ### Frames over the state -/

/-- Equal memories and an equal draw counter are memories kept byte by byte. -/
theorem memKept_of_eq {s t : State} (hin : t.inMem = s.inMem) (hout : t.outMem = s.outMem)
    (hdraws : t.draws = s.draws) : MemKept s t :=
  ⟨fun a => by rw [hin], fun a => by rw [hout], hdraws⟩

theorem outsideKept_writeIdle (s : State) (r : Regs) : OutsideKept s (s.writeIdle r) :=
  ⟨memKept_of_eq (by simp) (by simp) (by simp), by simp⟩

theorem outsideKept_start (s : State) (op : BitVec 2) : OutsideKept s (s.start op) :=
  ⟨memKept_of_eq (by simp) (by simp) (by simp), by simp⟩

theorem State.writeIdle_regs (s : State) (r : Regs) :
    (s.writeIdle r).regs = if s.regs.busy then s.regs else r := by
  unfold State.writeIdle
  split <;> rfl

/-! ### The register map (R23 to R33): what a register update leaves of every other offset -/

theorem Regs.read_setOp_other (r : Regs) (op : BitVec 2) {off : Nat} (h : off ≠ 0x04) :
    { r with op := op }.read off = r.read off := by
  unfold Regs.read
  split
  case h_2 => exact absurd rfl h
  all_goals rfl

theorem Regs.read_acceptFlags_other (r : Regs) {off : Nat} (h : off ≠ 0x08) :
    r.acceptFlags.read off = r.read off := by
  unfold Regs.read
  split
  case h_3 => exact absurd rfl h
  all_goals rfl

theorem Regs.read_setInLen_other (r : Regs) (v : Word) {off : Nat} (h : off ≠ 0x0C) :
    { r with inLen := v }.read off = r.read off := by
  unfold Regs.read
  split
  case h_4 => exact absurd rfl h
  all_goals rfl

theorem Regs.read_setOutCap_other (r : Regs) (v : Word) {off : Nat} (h : off ≠ 0x10) :
    { r with outCap := v }.read off = r.read off := by
  unfold Regs.read
  split
  case h_5 => exact absurd rfl h
  all_goals rfl

theorem Regs.read_setIrqEn_other (r : Regs) (en : Bool) {off : Nat} (h : off ≠ 0x24) :
    { r with irqEn := en }.read off = r.read off := by
  unfold Regs.read
  split
  case h_10 => exact absurd rfl h
  all_goals rfl

/-! ### The STATUS word (R25), field by field -/

@[simp] theorem bitOf_getLsbD (b : Bool) (i : Nat) : (bitOf b).getLsbD i = (b && decide (i = 0)) := by
  cases b <;> simp [bitOf]

@[simp] theorem bitOf_getElem (b : Bool) (i : Nat) (h : i < 32) : (bitOf b)[i] = (b && decide (i = 0)) :=
  bitOf_getLsbD b i

theorem Regs.statusWord_busy (r : Regs) : r.statusWord.getLsbD 0 = r.busy := by
  simp [Regs.statusWord]

theorem Regs.statusWord_done (r : Regs) : r.statusWord.getLsbD 1 = r.done := by
  simp [Regs.statusWord]

theorem Regs.statusWord_err (r : Regs) : r.statusWord.getLsbD 2 = r.err := by
  simp [Regs.statusWord]

theorem Regs.statusWord_bit3 (r : Regs) : r.statusWord.getLsbD 3 = false := by
  simp [Regs.statusWord]

theorem Regs.statusWord_errCode (r : Regs) : r.statusWord.extractLsb' 4 4 = r.errCode := by
  ext i hi
  interval_cases i <;> simp [Regs.statusWord]

theorem Regs.statusWord_high (r : Regs) : r.statusWord.extractLsb' 8 24 = 0 := by
  ext i hi
  have hcode : r.errCode.getLsbD (8 + i - 4) = false := BitVec.getLsbD_of_ge _ _ (by omega)
  have herr : ¬ 8 + i - 2 = 0 := by omega
  simp [Regs.statusWord, hcode, herr]

theorem Regs.statusWord_acceptFlags (r : Regs) : r.acceptFlags.statusWord = 0x00000001#32 := by
  simp [Regs.statusWord, bitOf]

/-! ### Decoding an access to a word slot (R63, R91) -/

theorem regAccessError_wordSlot {off : Word} (h : isWordSlot off = true) : regAccessError .word off = none := by
  obtain ⟨halign, hrange⟩ : off.toNat % 4 = 0 ∧ off.toNat < 0x40 := by simpa [isWordSlot] using h
  simp [regAccessError, halign, hrange]

theorem decode_regRead_wordSlot {off : Word} (h : isWordSlot off = true) :
    decode (.access (.regRead .word off)) = .ok (.rdReg off) := by
  simp [decode, decodeAccess, regAccessError_wordSlot h]

theorem decode_regWrite_wordSlot {off : Word} (v : Word) (h : isWordSlot off = true) :
    decode (.access (.regWrite .word off v)) = decodeRegWrite off.toNat v := by
  simp [decode, decodeAccess, regAccessError_wordSlot h]

theorem decode_wrCtrl (v : Word) : decode (.access (.regWrite .word 0x04#32 v)) = .ok (decodeCtrl v) :=
  decode_regWrite_wordSlot v rfl

/-- The mask of SETOP and START keeps the bits SRST and START of a CTRL word. -/
theorem ctrlMask_bits {v c : Word} (h : v &&& 0x80000001#32 = c) :
    v.getLsbD 31 = c.getLsbD 31 ∧ v.getLsbD 0 = c.getLsbD 0 := by
  subst h
  simp

theorem decodeCtrl_setop {v : Word} (h : v &&& 0x80000001#32 = 0x00000000#32) :
    decodeCtrl v = .setop (v.extractLsb' 1 2) (v.extractLsb' 3 28) := by
  obtain ⟨hsrst, hstart⟩ := ctrlMask_bits h
  unfold decodeCtrl
  rw [hsrst, hstart]
  rfl

theorem opField_cases : ∀ op : BitVec 2, op = 0b00#2 ∨ op = 0b01#2 ∨ op = 0b10#2 ∨ op = 0b11#2 := by
  decide

/-- A START word decodes to the row of its OP field. -/
theorem decodeCtrl_start {v : Word} (h : v &&& 0x80000001#32 = 0x00000001#32) :
    (decodeCtrl v, v.extractLsb' 1 2) ∈ startRows (v.extractLsb' 3 28) := by
  obtain ⟨hsrst, hstart⟩ := ctrlMask_bits h
  unfold decodeCtrl
  rw [hsrst, hstart]
  rcases opField_cases (v.extractLsb' 1 2) with hop | hop | hop | hop <;> simp [hop, startRows]

/-! ### Register writes that wait for idle (R130, R137, R138) -/

/-- A write to the register at offset x that is ignored while BUSY: x reads the new value unless BUSY, and everything
else stays. -/
theorem writeIdle_stores {s : State} {r : Regs} {x : Nat} (hother : ∀ off, off ≠ x → r.read off = s.regs.read off)
    (hirq : r.irq = s.regs.irq) :
    (s.writeIdle r).regRead x = (if s.regs.busy then s.regRead x else r.read x) ∧ RegsKeptBut x s (s.writeIdle r) ∧
      (s.writeIdle r).regs.irq = s.regs.irq ∧ (s.writeIdle r).eng = s.eng ∧ OutsideKept s (s.writeIdle r) := by
  have heng := s.writeIdle_eng r
  have houtside := outsideKept_writeIdle s r
  unfold RegsKeptBut State.regRead
  rw [State.writeIdle_regs]
  split
  · exact ⟨rfl, fun _ _ => rfl, rfl, heng, houtside⟩
  · exact ⟨rfl, hother, hirq, heng, houtside⟩

/-! ### CTRL writes -/

/-- Every START row runs the one acceptance (R131) with its OP. -/
theorem exec_of_mem_startRows {i : Instr} {op : BitVec 2} {ign : BitVec 28} (h : (i, op) ∈ startRows ign)
    (s : State) : exec i s = .next (s.start op) := by
  simp only [startRows, List.mem_cons, Prod.mk.injEq, List.not_mem_nil, or_false] at h
  rcases h with ⟨rfl, rfl⟩ | ⟨rfl, rfl⟩ | ⟨rfl, rfl⟩ | ⟨rfl, rfl⟩ <;> rfl

/-- An accepted START leaves every register but CTRL and STATUS. -/
theorem start_read_other {s : State} {op : BitVec 2} (hidle : s.regs.busy = false) {off : Nat} (hctrl : off ≠ 0x04)
    (hstatus : off ≠ 0x08) : (s.start op).regRead off = s.regRead off := by
  rw [State.start_of_idle s op hidle]
  exact (Regs.read_setOp_other _ op hctrl).trans (Regs.read_acceptFlags_other _ hstatus)

/-- Settles O12: all four rows run `State.start`, whose busy and idle equations give the two halves. -/
theorem startAccepted : Obligations.StartAccepted := by
  refine ⟨fun v hv => ⟨_, _, decode_wrCtrl v, decodeCtrl_start hv⟩,
    fun s ign i op hrow => ⟨fun hbusy => ?_, fun hidle => ?_⟩⟩
  · rw [exec_of_mem_startRows hrow, State.start_of_busy s op hbusy]
  · refine ⟨s.start op, exec_of_mem_startRows hrow s, ?_⟩
    have hframe : ∀ off, off ≠ 0x04 → off ≠ 0x08 → (s.start op).regRead off = s.regRead off :=
      fun _ hctrl hstatus => start_read_other hidle hctrl hstatus
    have houtside := outsideKept_start s op
    rw [State.start_of_idle s op hidle] at hframe houtside ⊢
    exact ⟨rfl, rfl, rfl, rfl, rfl, s.regs.statusWord_acceptFlags, rfl, ⟨rfl, rfl⟩, hframe, rfl, houtside⟩

/-- Settles O11: SETOP is `State.writeIdle` of the OP field alone. -/
theorem setOpStoresOp : Obligations.SetOpStoresOp := by
  refine ⟨fun v hv => ⟨_, by rw [decode_wrCtrl, decodeCtrl_setop hv]⟩, fun s op ign =>
    ⟨s.writeIdle { s.regs with op := op }, rfl, State.writeIdle_of_busy s _, fun hidle => ?_⟩⟩
  obtain ⟨hread, hkept⟩ := writeIdle_stores (r := { s.regs with op := op })
    (fun _ hoff => Regs.read_setOp_other s.regs op hoff) rfl
  refine ⟨?_, ?_, hkept⟩
  · simp [State.writeIdle_regs, hidle]
  · rw [hread, hidle]
    rfl

/-! ### Other register accesses -/

/-- Settles O16: CLRDONE is `State.writeIdle` of the DONE flag alone. -/
theorem clrDoneClearsDone : Obligations.ClrDoneClearsDone := by
  intro s v
  refine ⟨decode_regWrite_wordSlot v rfl, _, rfl, ?_, fun hidle hbit => ?_, State.writeIdle_eng s _,
    outsideKept_writeIdle s _⟩
  · rw [State.writeIdle_regs]
    cases s.regs.busy <;> cases v.getLsbD 1 <;> rfl
  · rw [State.writeIdle_regs, hidle, hbit]
    rfl

/-- Settles O17: both writes are `State.writeIdle` of an update that leaves the other offsets and the flags. -/
theorem lengthWritesStore : Obligations.LengthWritesStore := fun s v =>
  ⟨decode_regWrite_wordSlot v rfl, decode_regWrite_wordSlot v rfl,
    ⟨_, rfl, writeIdle_stores (fun _ hoff => Regs.read_setInLen_other s.regs v hoff) rfl⟩,
    ⟨_, rfl, writeIdle_stores (fun _ hoff => Regs.read_setOutCap_other s.regs v hoff) rfl⟩⟩

/-- Settles O18: EN is stored whatever BUSY says, and IRQ is computed from it. -/
theorem irqEnableAnyTime : Obligations.IrqEnableAnyTime := fun s v =>
  ⟨decode_regWrite_wordSlot v rfl, _, rfl, rfl, rfl, rfl,
    fun _ hoff => Regs.read_setIrqEn_other s.regs _ hoff, rfl, memKept_of_eq rfl rfl rfl, rfl⟩

/-- Settles O19, row by row: each offset decodes to its row, and the row's meaning is the state itself. -/
theorem writesWithoutEffect : Obligations.WritesWithoutEffect := by
  refine fun s v => ⟨fun off i hrow => ?_, fun _ _ => rfl⟩
  simp only [List.mem_cons, Prod.mk.injEq, List.not_mem_nil, or_false] at hrow
  rcases hrow with ⟨rfl, rfl⟩ | ⟨rfl, rfl⟩ | ⟨rfl, rfl⟩ | ⟨rfl, rfl⟩ | ⟨rfl, rfl⟩ | ⟨rfl, rfl⟩ | ⟨rfl, rfl⟩ |
    ⟨rfl, rfl⟩ | ⟨rfl, rfl⟩ | ⟨rfl, rfl⟩ | ⟨rfl, rfl⟩ <;>
  exact ⟨decode_regWrite_wordSlot v rfl, rfl⟩

/-- Settles O20: the answer is the register map at the offset; STATUS is read off field by field. -/
theorem registerReadAnswers : Obligations.RegisterReadAnswers := by
  refine fun s off => ⟨decode_regRead_wordSlot, s.answer (s.regRead off.toNat), rfl, ?_⟩
  have hreserved : off ∈ [0x30#32, 0x34#32, 0x38#32, 0x3C#32] → s.regs.read off.toNat = 0 := by
    intro hoff
    simp only [List.mem_cons, List.not_mem_nil, or_false] at hoff
    rcases hoff with rfl | rfl | rfl | rfl <;> rfl
  refine ⟨?_, ?_, ?_, ?_, ?_, ?_, ?_, ?_, ?_, ?_, ?_, ?_, hreserved, rfl, rfl, memKept_of_eq rfl rfl rfl, rfl, rfl⟩
  case refine_3 =>
    rintro rfl
    exact ⟨s.regs.statusWord_busy, s.regs.statusWord_done, s.regs.statusWord_err, s.regs.statusWord_bit3,
      s.regs.statusWord_errCode, s.regs.statusWord_high⟩
  all_goals rintro rfl; rfl

/-! ### The engine's plain steps -/

/-- Only the schedule moves when a turn is spent. -/
theorem State.spendTurn_eq (s : State) : s.spendTurn =
    { s with host := { s.host with sched := if s.contended then s.host.sched.tail else s.host.sched } } := by
  unfold State.spendTurn
  split <;> rfl

/-- Where the engine moves and its phase runs no row of the table, that is the whole step. -/
theorem step_of_enginePlain {s t : State} (hmoves : EngineMoves s) (hplain : s.spendTurn.engineStep = .plain t) :
    step s = .next t := by
  apply step_of_plain
  unfold fetch
  rw [show s.nextAgent = some .engine from hmoves]
  exact hplain

/-- A step of the engine that keeps what waits outside after spending the turn. -/
theorem hostAfterEngine_of_eq {s t : State} (h : t.host = s.spendTurn.host) : HostAfterEngine s t := by
  rw [State.spendTurn_eq] at h
  exact h

theorem engineStep_check {s : State} (h : s.eng.phase = .check) : s.engineStep = .plain s.checkStep := by
  simp [State.engineStep, h]

theorem engineStep_finish {s : State} (h : s.eng.phase = .finish) : s.engineStep = .plain s.finish := by
  simp [State.engineStep, h]

/-! ### CHECK -/

@[simp] theorem State.checkStep_regs (s : State) : s.checkStep.regs = s.regs := by
  unfold State.checkStep; split_ifs <;> rfl
@[simp] theorem State.checkStep_inMem (s : State) : s.checkStep.inMem = s.inMem := by
  unfold State.checkStep; split_ifs <;> rfl
@[simp] theorem State.checkStep_outMem (s : State) : s.checkStep.outMem = s.outMem := by
  unfold State.checkStep; split_ifs <;> rfl
@[simp] theorem State.checkStep_host (s : State) : s.checkStep.host = s.host := by
  unfold State.checkStep; split_ifs <;> rfl
@[simp] theorem State.checkStep_draws (s : State) : s.checkStep.draws = s.draws := by
  unfold State.checkStep; split_ifs <;> rfl

theorem filesKept_checkStep (s : State) : FilesKept s s.checkStep := by
  unfold State.checkStep; split_ifs <;> rfl

/-- Settles O33: the branches of CHECK are the branches of the rule. -/
theorem checkPhaseOrder : Obligations.CheckPhaseOrder := by
  refine ⟨rfl, rfl, fun s hmoves hphase => ⟨s.spendTurn.checkStep, ?_, ?_, ?_⟩⟩
  · have hplain : s.spendTurn.engineStep = .plain s.spendTurn.checkStep := engineStep_check (by simpa using hphase)
    exact ⟨step_of_enginePlain hmoves hplain, hostAfterEngine_of_eq (by simp), by simp,
      memKept_of_eq (by simp) (by simp) (by simp)⟩
  · have hfiles := filesKept_checkStep s.spendTurn
    unfold FilesKept at hfiles ⊢
    rwa [State.spendTurn_eng] at hfiles
  · unfold State.checkStep opCompress opDecompress
    rw [State.spendTurn_regs]
    split_ifs
    · exact ⟨⟨rfl, rfl⟩, rfl⟩
    · exact ⟨⟨rfl, rfl⟩, rfl⟩
    · exact ⟨rfl, rfl⟩
    · exact ⟨rfl, rfl⟩

/-! ### FINISH -/

/-- What FINISH publishes does not depend on the schedule. -/
@[simp] theorem State.publish_spendTurn (s : State) : s.spendTurn.publish = s.publish := by
  rw [State.spendTurn_eq]
  rfl

theorem step_finish {s : State} (hmoves : EngineMoves s) (hphase : s.eng.phase = .finish) :
    step s = .next s.spendTurn.finish ∧ HostAfterEngine s s.spendTurn.finish :=
  ⟨step_of_enginePlain hmoves (engineStep_finish (by simpa using hphase)), hostAfterEngine_of_eq (by simp)⟩

theorem finish_spendTurn_regs (s : State) : s.spendTurn.finish.regs = s.publish.finishFlags s.eng.pending := by
  simp

/-- FINISH sets DONE and keeps IRQ_EN, so IRQ rises exactly when it is enabled. -/
theorem finish_spendTurn_irq (s : State) : s.spendTurn.finish.regs.irq = s.regs.irqEn := by
  rw [finish_spendTurn_regs]
  unfold State.publish
  cases s.eng.pending <;> rfl

/-- FINISH after success draws no free byte. -/
theorem memKept_finish_of_success {s : State} (hpending : s.eng.pending = none) : MemKept s s.spendTurn.finish := by
  apply memKept_of_eq <;> simp [State.finish_outMem, State.finish_draws, hpending, leavesOutputOpen]

/-- Settles O34: with nothing pending FINISH publishes the results and scrambles nothing. -/
theorem finishAfterSuccess : Obligations.FinishAfterSuccess := by
  intro s hmoves hphase hpending
  obtain ⟨hstep, hhost⟩ := step_finish hmoves hphase
  refine ⟨_, hstep, hhost, memKept_finish_of_success hpending, by simp, ?_, finish_spendTurn_irq s⟩
  rw [finish_spendTurn_regs, State.publish, hpending]
  rfl

/-- Settles O35: with an error pending FINISH publishes zeros and the code. -/
theorem finishAfterError : Obligations.FinishAfterError := by
  intro s k hmoves hphase hpending
  obtain ⟨hstep, hhost⟩ := step_finish hmoves hphase
  refine ⟨_, hstep, hhost, fun _ => by simp, by simp, ?_, finish_spendTurn_irq s⟩
  rw [finish_spendTurn_regs, State.publish, hpending]
  rfl

end Sys2Proof.Machine
end

section
/-! Proofs of the statements about the tree builder (41_tree_builder.md). -/

namespace Sys2Proof.Machine

/-! ### Engine steps that touch nothing outside the engine -/

/-- Where the engine moves and its plain step changes the engine alone, the step is quiet. -/
theorem quietStep_of_engineOnly {s t : State} (hmoves : EngineMoves s) (hplain : s.spendTurn.engineStep = .plain t)
    (honly : t = { s.spendTurn with eng := t.eng }) : QuietStep s t := by
  refine ⟨step_of_enginePlain hmoves hplain, hostAfterEngine_of_eq ?_, ?_, memKept_of_eq ?_ ?_ ?_⟩ <;>
    rw [honly] <;> simp

theorem engineStep_cMerge {s : State} (h : s.eng.phase = .cMerge) : s.engineStep = .plain s.mergeStep := by
  simp [State.engineStep, h]

/-! ### The arena (R163, R165) -/

theorem Engine.nodeAt_setNode_same (e : Engine) (i : NodeIdx) (n : Node) : (e.setNode i n).nodeAt i = n :=
  Vector.getElem_set_self i.isLt

theorem Engine.nodeAt_setNode_other (e : Engine) (n : Node) {i j : NodeIdx} (h : j ≠ i) :
    (e.setNode i n).nodeAt j = e.nodeAt j :=
  Vector.getElem_set_ne i.isLt j.isLt (Fin.val_ne_of_ne h.symm)

/-- The index NCOUNT stands for, wherever it is one. -/
theorem Engine.nextIdx_eq {e : Engine} {i : NodeIdx} (h : i.val = e.ncount.toNat) : e.nextIdx = i := by
  apply Fin.ext
  rw [Engine.nextIdx, ← h]
  exact Nat.mod_eq_of_lt i.isLt

/-! ### The two least keys (R164) -/

/-- The key order is total: distinct nodes never have equal keys. -/
theorem Engine.keyLess_of_not_keyLt {e : Engine} {i j : NodeIdx} (hne : i ≠ j) (h : e.keyLt j i = false) :
    KeyLess e i j := by
  have hval : i.val ≠ j.val := Fin.val_ne_of_ne hne
  rw [Bool.eq_false_iff, ne_eq, Engine.keyLt_iff] at h
  unfold KeyLess
  omega

/-- The least key lies strictly before every other one. -/
theorem Engine.keyLess_of_leastKey {e : Engine} {l : List NodeIdx} {a x : NodeIdx} (ha : e.leastKey l = some a)
    (hx : x ∈ l) (hne : x ≠ a) : KeyLess e a x :=
  Engine.keyLess_of_not_keyLt hne.symm (e.leastKey_least l a ha x hx)

theorem Engine.exists_leastKey (e : Engine) {l : List NodeIdx} (h : l ≠ []) : ∃ a, e.leastKey l = some a :=
  Option.ne_none_iff_exists'.mp (mt (e.leastKey_eq_none l).mp h)

/-- What is left after two nodes are extracted. -/
theorem mem_erase_erase_iff {l : List NodeIdx} (hnodup : l.Nodup) (a b x : NodeIdx) :
    x ∈ (l.erase a).erase b ↔ x ∈ l ∧ x ≠ a ∧ x ≠ b := by
  rw [(hnodup.erase a).mem_erase_iff, hnodup.mem_erase_iff]
  tauto

/-- Out of two or more nodes two can be extracted, one after the other. -/
theorem Engine.exists_two_leastKey (e : Engine) {l : List NodeIdx} (h : 2 ≤ l.length) :
    ∃ a b, e.leastKey l = some a ∧ e.leastKey (l.erase a) = some b := by
  obtain ⟨a, ha⟩ := e.exists_leastKey (List.ne_nil_of_length_pos (by omega : 0 < l.length))
  have hlength : (l.erase a).length = l.length - 1 := List.length_erase_of_mem (e.leastKey_mem l a ha)
  obtain ⟨b, hb⟩ := e.exists_leastKey (List.ne_nil_of_length_pos (by omega : 0 < (l.erase a).length))
  exact ⟨a, b, ha, hb⟩

/-- The two nodes extracted: the least key, then the least of the rest. -/
theorem Engine.two_leastKey_spec {e : Engine} {l : List NodeIdx} {a b : NodeIdx} (hnodup : l.Nodup)
    (ha : e.leastKey l = some a) (hb : e.leastKey (l.erase a) = some b) :
    a ∈ l ∧ b ∈ l ∧ a ≠ b ∧ KeyLess e a b ∧ ∀ x, x ∈ l → x ≠ a → x ≠ b → KeyLess e b x := by
  obtain ⟨hba, hbmem⟩ := hnodup.mem_erase_iff.mp (e.leastKey_mem _ _ hb)
  exact ⟨e.leastKey_mem _ _ ha, hbmem, hba.symm, Engine.keyLess_of_leastKey ha hbmem hba,
    fun x hx hxa hxb => Engine.keyLess_of_leastKey hb (hnodup.mem_erase_iff.mpr ⟨hxa, hx⟩) hxb⟩

/-! ### One merge (R165) -/

theorem Engine.nodeAt_merge_new {e : Engine} {i : NodeIdx} (hi : i.val = e.ncount.toNat) (a b : NodeIdx)
    (rest : List NodeIdx) :
    (e.merge a b rest).nodeAt i = .internal ((e.nodeAt a).freq + (e.nodeAt b).freq) a b := by
  rw [← Engine.nextIdx_eq hi]
  exact e.nodeAt_setNode_same _ _

theorem Engine.nodeAt_merge_other {e : Engine} {i j : NodeIdx} (hi : i.val = e.ncount.toNat) (a b : NodeIdx)
    (rest : List NodeIdx) (hj : j ≠ i) : (e.merge a b rest).nodeAt j = e.nodeAt j := by
  rw [← Engine.nextIdx_eq hi] at hj
  exact e.nodeAt_setNode_other _ hj

theorem Engine.merge_active {e : Engine} {i : NodeIdx} (hi : i.val = e.ncount.toNat) (a b : NodeIdx)
    (rest : List NodeIdx) : (e.merge a b rest).active = rest ++ [i] := by
  rw [← Engine.nextIdx_eq hi]
  rfl

/-! ### C_MERGE by the number of active nodes (R165) -/

theorem State.mergeStep_of_nil {s : State} (h : s.eng.active = []) :
    s.mergeStep = { s with eng := { s.eng with rootValid := false } }.goto .cCode := by
  simp [State.mergeStep, h, Engine.leastKey]

theorem State.mergeStep_of_singleton {s : State} {a : NodeIdx} (h : s.eng.active = [a]) :
    s.mergeStep = { s with eng := { s.eng with root := a, rootValid := true } }.goto .cCode := by
  simp [State.mergeStep, h, Engine.leastKey]

theorem State.mergeStep_of_two {s : State} {a b : NodeIdx} (ha : s.eng.leastKey s.eng.active = some a)
    (hb : s.eng.leastKey (s.eng.active.erase a) = some b) :
    s.mergeStep = { s with eng := s.eng.merge a b ((s.eng.active.erase a).erase b) } := by
  simp [State.mergeStep, ha, hb]

theorem State.mergeStep_engineOnly (s : State) : s.mergeStep = { s with eng := s.mergeStep.eng } := by
  unfold State.mergeStep
  split
  · rfl
  · split <;> rfl

theorem quietStep_mergeStep {s : State} (hmoves : EngineMoves s) (hphase : s.eng.phase = .cMerge) :
    QuietStep s s.spendTurn.mergeStep :=
  quietStep_of_engineOnly hmoves (engineStep_cMerge (by simpa using hphase)) s.spendTurn.mergeStep_engineOnly

/-- Settles O39: the two extractions give the least key and the least of the rest, each strictly before what it leaves,
and the merged node's index is new to ACTIVE, all of which lies below NCOUNT. -/
theorem mergePhase : Obligations.MergePhase := by
  intro s hmoves hphase
  have hquiet := quietStep_mergeStep hmoves hphase
  refine ⟨fun i hi hlength hnodup hbelow => ?_, fun a hactive => ?_, fun hactive => ?_⟩
  · obtain ⟨a, b, ha, hb⟩ := s.eng.exists_two_leastKey hlength
    obtain ⟨hamem, hbmem, hab, hless, hleast⟩ := Engine.two_leastKey_spec hnodup ha hb
    refine ⟨_, a, b, hquiet, ?_⟩
    rw [State.mergeStep_of_two (by simpa using ha) (by simpa using hb), State.spendTurn_eng]
    refine ⟨hphase, hamem, hbmem, hab, hless, hleast, Engine.nodeAt_merge_new hi a b _,
      fun _ hj => Engine.nodeAt_merge_other hi a b _ hj, fun x => ?_, ?_, rfl⟩
    · rw [Engine.merge_active hi, List.mem_append, List.mem_singleton, mem_erase_erase_iff hnodup]
    · have hnew : i ∉ (s.eng.active.erase a).erase b := fun himem =>
        (hbelow i ((mem_erase_erase_iff hnodup a b i).mp himem).1).false
      rw [Engine.merge_active hi, ← List.concat_eq_append]
      exact ((hnodup.erase a).erase b).concat hnew
  · refine ⟨_, hquiet, ?_⟩
    rw [State.mergeStep_of_singleton (a := a) (by simpa using hactive)]
    simp [GoesTo]
  · refine ⟨_, hquiet, ?_⟩
    rw [State.mergeStep_of_nil (by simpa using hactive)]
    simp [GoesTo]

end Sys2Proof.Machine
end

section
/-! Proofs of the statements about the encoder's size and header phases (42_encoder.md). -/

namespace Sys2Proof.Machine

/-! ### C_SIZE (R194) -/

theorem engineStep_cSize {s : State} (h : s.eng.phase = .cSize) : s.engineStep = .plain s.sizeStep := by
  simp [State.engineStep, h]

theorem State.sizeStep_engineOnly (s : State) : s.sizeStep = { s with eng := s.sizeStep.eng } := by
  unfold State.sizeStep
  dsimp only
  split <;> rfl

theorem quietStep_sizeStep {s : State} (hmoves : EngineMoves s) (hphase : s.eng.phase = .cSize) :
    QuietStep s s.spendTurn.sizeStep :=
  quietStep_of_engineOnly hmoves (engineStep_cSize (by simpa using hphase)) s.spendTurn.sizeStep_engineOnly

/-- TOTAL as R194 computes it, before it is cut to 32 bits. -/
def Engine.encodedLen (e : Engine) : Nat :=
  8 + treeLenOf e.kReg.toNat + ceilDiv8 e.payloadBits

/-- Both branches of C_SIZE store the three sizes. -/
theorem State.sizeStep_stores (s : State) :
    s.sizeStep.eng.bReg = BitVec.ofNat 32 s.eng.payloadBits ∧
      s.sizeStep.eng.tReg = BitVec.ofNat 32 (treeLenOf s.eng.kReg.toNat) ∧
      s.sizeStep.eng.total = BitVec.ofNat 32 s.eng.encodedLen := by
  unfold State.sizeStep
  dsimp only
  split <;> exact ⟨rfl, rfl, rfl⟩

/-- The exact TOTAL, not the stored one, decides where C_SIZE goes. -/
theorem State.sizeStep_goes (s : State) :
    if s.regs.outCap.toNat < s.eng.encodedLen then
      GoesTo .finish s.sizeStep ∧ s.sizeStep.eng.pending = some .capacity
    else GoesTo .cHdr s.sizeStep := by
  unfold State.sizeStep
  split <;> rename_i hcap <;> unfold Engine.encodedLen at hcap
  · rw [if_pos hcap]
    exact ⟨⟨rfl, rfl⟩, rfl⟩
  · rw [if_neg hcap]
    exact ⟨rfl, rfl⟩

/-- The tree length of a leaf count held in a register. -/
theorem treeLenOf_toNat {w : Nat} (k : BitVec w) : treeLenOf k.toNat = if k = 0 then 0 else 3 * k.toNat - 1 := by
  simp [treeLenOf, BitVec.toNat_eq]

/-- Settles O41: C_SIZE touches the engine alone, stores the three sizes in either branch, and branches on the exact
TOTAL. -/
theorem sizePhase : Obligations.SizePhase := by
  intro s hmoves hphase b t total hb ht htotal
  have hlen : total = s.eng.encodedLen := by
    rw [htotal, ht, hb, ← treeLenOf_toNat]
    rfl
  obtain ⟨hbReg, htReg, htotalReg⟩ := s.spendTurn.sizeStep_stores
  have hgoes := s.spendTurn.sizeStep_goes
  rw [State.spendTurn_eng] at hbReg htReg htotalReg hgoes
  rw [State.spendTurn_regs] at hgoes
  rw [hlen, ht, hb, ← treeLenOf_toNat]
  exact ⟨_, quietStep_sizeStep hmoves hphase, hbReg, htReg, htotalReg, hgoes⟩

/-! ### C_HDR (R195) -/

/-- Where the engine moves and its plain step changes the engine and OUT_MEM alone, the step is a writing step. -/
theorem writingStep_of_engineAndOut {s t : State} (hmoves : EngineMoves s) (hplain : s.spendTurn.engineStep = .plain t)
    (honly : t = { s.spendTurn with eng := t.eng, outMem := t.outMem }) : WritingStep s t := by
  refine ⟨step_of_enginePlain hmoves hplain, hostAfterEngine_of_eq ?_, ?_, fun _ => ?_, ?_⟩ <;> rw [honly] <;> simp

theorem engineStep_cHdr {s : State} (h : s.eng.phase = .cHdr) : s.engineStep = .plain s.hdrStep := by
  simp [State.engineStep, h]

theorem State.hdrStep_outMem (s : State) :
    s.hdrStep.outMem = (s.outMem.writeList 0 (toBE32 s.eng.tReg)).writeList 4 (toBE32 s.eng.bReg) := rfl

theorem writingStep_hdrStep {s : State} (hmoves : EngineMoves s) (hphase : s.eng.phase = .cHdr) :
    WritingStep s s.spendTurn.hdrStep :=
  writingStep_of_engineAndOut hmoves (engineStep_cHdr (by simpa using hphase)) rfl

@[simp] theorem toBE32_length (v : Word) : (toBE32 v).length = 4 := rfl

/-- Byte k of the big-endian form, most significant first (R8). -/
theorem toBE32_getElem (v : Word) {k : Nat} (hk : k < 4) :
    (toBE32 v)[k]'(by simpa using hk) = v.extractLsb' (24 - 8 * k) 8 := by
  interval_cases k <;> rfl

/-- A big-endian word written at a is read back byte by byte. -/
theorem Memory.read_writeList_toBE32 (m : Memory) (a : Nat) (v : Word) {k : Nat} (hk : k < 4) :
    (m.writeList a (toBE32 v)).read (a + k) = v.extractLsb' (24 - 8 * k) 8 := by
  rw [Memory.read_writeList _ _ _ _ (by simpa using hk), toBE32_getElem v hk]

/-- The second field is written beyond the first, and both lie below address 8. -/
theorem State.hdrStep_bytes (s : State) :
    (∀ k, k < 4 → s.hdrStep.outMem.read k = s.eng.tReg.extractLsb' (24 - 8 * k) 8 ∧
      s.hdrStep.outMem.read (4 + k) = s.eng.bReg.extractLsb' (24 - 8 * k) 8) ∧
      BytesKeptFrom 8 s.outMem s.hdrStep.outMem := by
  rw [State.hdrStep_outMem]
  refine ⟨fun k hk => ⟨?_, Memory.read_writeList_toBE32 _ 4 _ hk⟩, fun a ha => ?_⟩
  · rw [Memory.read_writeList_other _ _ _ _ (.inl hk)]
    simpa using s.outMem.read_writeList_toBE32 0 s.eng.tReg hk
  · rw [Memory.read_writeList_other _ _ _ _ (.inr ha),
      Memory.read_writeList_other _ _ _ _ (.inr (by rw [toBE32_length]; omega))]

/-- Settles O42: C_HDR is two big-endian list writes and a change of phase. -/
theorem headerPhase : Obligations.HeaderPhase := by
  intro s hmoves hphase
  obtain ⟨hfields, hkept⟩ := s.spendTurn.hdrStep_bytes
  rw [State.spendTurn_eng] at hfields
  rw [State.spendTurn_outMem] at hkept
  refine ⟨_, writingStep_hdrStep hmoves hphase, ⟨rfl, rfl⟩, ?_, hfields, hkept⟩
  simp [FilesKept, State.hdrStep]

end Sys2Proof.Machine
end

section
/-! Proof of the statement about the payload of a one-leaf tree (43_decoder.md). -/

namespace Sys2Proof.Machine

/-! ### The payload of a one-leaf tree (R238) -/

theorem exec_payloadBit0 (s : State) : exec .payloadBit0 s = .next (s.payloadBit false) := rfl

theorem exec_payloadBit1 (s : State) : exec .payloadBit1 s = .next (s.payloadBit true) := rfl

/-- At a leaf root a payload bit counts as read before DecodeOneLeaf looks at it (R236). -/
theorem State.payloadBit_of_leafRoot {s : State} {sym : Byte} {f : Word}
    (hroot : s.eng.nodeAt s.eng.root = .leaf sym f) (bit : Bool) :
    s.payloadBit bit = { s with eng := { s.eng with rpos := s.eng.rpos + 1 } }.decodeOneLeaf bit := by
  unfold State.payloadBit
  rw [hroot]
  rfl

theorem State.decodeOneLeaf_false {s : State} {sym : Byte} {f : Word}
    (hroot : s.eng.nodeAt s.eng.root = .leaf sym f) : s.decodeOneLeaf false = s.emit sym := by
  unfold State.decodeOneLeaf
  rw [hroot]
  rfl

theorem State.payloadBit_true_of_leafRoot {s : State} {sym : Byte} {f : Word}
    (hroot : s.eng.nodeAt s.eng.root = .leaf sym f) :
    s.payloadBit true = { s with eng := { s.eng with rpos := s.eng.rpos + 1 } }.raise .fmtBadBit :=
  State.payloadBit_of_leafRoot hroot true

theorem State.payloadBit_false_of_leafRoot {s : State} {sym : Byte} {f : Word}
    (hroot : s.eng.nodeAt s.eng.root = .leaf sym f) :
    s.payloadBit false = { s with eng := { s.eng with rpos := s.eng.rpos + 1 } }.emit sym :=
  (State.payloadBit_of_leafRoot hroot false).trans (State.decodeOneLeaf_false hroot)

/-- A raise after the engine alone has moved. -/
theorem raised_after_engine (s : State) (e : Engine) (k : ErrorKind) : Raised k s ({ s with eng := e }.raise k) :=
  ⟨rfl, rfl, rfl, memKept_of_eq rfl rfl rfl⟩

/-- Settles O31: the bit picks the branch of DecodeOneLeaf, and the capacity check is Emit's, so a 1 bit never meets it. -/
theorem oneLeafBits : Obligations.OneLeafBits := by
  refine ⟨rfl, fun s sym f hroot => ?_⟩
  have hone := exec_payloadBit1 s
  have hzero := exec_payloadBit0 s
  rw [State.payloadBit_true_of_leafRoot hroot] at hone
  rw [State.payloadBit_false_of_leafRoot hroot] at hzero
  obtain ⟨hfull, hemit⟩ | ⟨hroom, hemit⟩ :=
    State.emit_cases { s with eng := { s.eng with rpos := s.eng.rpos + 1 } } sym <;> rw [hemit] at hzero
  · exact ⟨⟨_, hone, raised_after_engine _ _ _, rfl⟩, fun hroom => absurd hroom (Nat.not_lt.mpr hfull),
      fun _ => ⟨_, hzero, raised_after_engine _ _ _, rfl⟩⟩
  · exact ⟨⟨_, hone, raised_after_engine _ _ _, rfl⟩,
      fun _ => ⟨_, hzero, Memory.read_write_same _ _ _, fun a ha => Memory.read_write_other _ _ _ _ ha, rfl, rfl,
        fun _ => rfl, rfl, rfl⟩,
      fun hfull => absurd hroom (Nat.not_lt.mpr hfull)⟩

end Sys2Proof.Machine
end

section
/-! The trees of the functional definitions: the paths and codes of a tree, its sizes, and the leaves of the tree BuildTree
gives (41_tree_builder.md, 42_encoder.md). -/

namespace Sys2Proof.Machine

open scoped List

/-! ### The byte values -/

theorem mem_allBytes (b : Byte) : b ∈ allBytes :=
  List.mem_map.mpr ⟨b.toNat, List.mem_range.mpr b.isLt, by simp⟩

theorem nodup_allBytes : allBytes.Nodup := by
  refine List.nodup_range.map_on fun i hi j hj h => ?_
  have hi := List.mem_range.mp hi
  have hj := List.mem_range.mp hj
  have := congrArg BitVec.toNat h
  simp only [BitVec.toNat_ofNat] at this
  omega

/-- There are 256 byte values (R3). -/
theorem length_le_of_nodup {bytes : List Byte} (hnodup : bytes.Nodup) : bytes.length ≤ 256 := by
  have hsub := (hnodup.subperm fun b _ => mem_allBytes b).length_le
  rwa [allBytes, List.length_map, List.length_range] at hsub

/-! ### Paths and codes (R190 to R192, R199) -/

/-- The path in an internal node goes on in the child its first bit names. -/
theorem PTree.path_node_cases {l r : PTree} {s : Byte} {p : List Bool} (h : (PTree.node l r).path s = some p) :
    ∃ bit q, p = bit :: q ∧ (if bit then r else l).path s = some q := by
  unfold PTree.path at h
  split at h
  next q hleft => exact ⟨false, q, (Option.some.inj h).symm, hleft⟩
  next =>
    split at h
    next q hright => exact ⟨true, q, (Option.some.inj h).symm, hright⟩
    next => cases h

theorem PTree.path_leaf_cases {sym s : Byte} {p : List Bool} (h : (PTree.leaf sym).path s = some p) :
    sym = s ∧ p = [] := by
  unfold PTree.path at h
  split at h
  next heq => exact ⟨heq, (Option.some.inj h).symm⟩
  next => cases h

/-- Every symbol of the tree has a path. -/
theorem PTree.exists_path {tree : PTree} {s : Byte} (h : s ∈ tree.syms) : ∃ p, tree.path s = some p := by
  induction tree with
  | leaf sym => exact ⟨[], if_pos (List.mem_singleton.mp h).symm⟩
  | node l r ihl ihr =>
    unfold PTree.path
    cases hleft : l.path s with
    | some p => exact ⟨false :: p, rfl⟩
    | none =>
      have hnotleft : s ∉ l.syms := fun hmem => by
        obtain ⟨p, hp⟩ := ihl hmem
        rw [hleft] at hp
        cases hp
      obtain ⟨p, hp⟩ := ihr ((List.mem_append.mp h).resolve_left hnotleft)
      exact ⟨true :: p, by rw [hp]⟩

theorem PTree.syms_length_pos (tree : PTree) : 0 < tree.syms.length := by
  induction tree with
  | leaf => exact Nat.zero_lt_one
  | node l r ihl _ =>
    rw [PTree.syms, List.length_append]
    omega

/-- The tree region of k leaves is 3k - 1 bytes long (R99). -/
theorem PTree.ser_length (tree : PTree) : tree.ser.length + 1 = 3 * tree.syms.length := by
  induction tree with
  | leaf => rfl
  | node l r ihl ihr =>
    simp only [PTree.ser, PTree.syms, List.length_cons, List.length_append]
    omega

/-- A tree of k leaves is less than k deep. -/
theorem PTree.path_length_lt {tree : PTree} {s : Byte} {p : List Bool} (h : tree.path s = some p) :
    p.length < tree.syms.length := by
  induction tree generalizing p with
  | leaf sym =>
    obtain ⟨-, rfl⟩ := PTree.path_leaf_cases h
    exact Nat.zero_lt_one
  | node l r ihl ihr =>
    obtain ⟨bit, q, rfl, hq⟩ := PTree.path_node_cases h
    have hl := l.syms_length_pos
    have hr := r.syms_length_pos
    rw [PTree.syms, List.length_append, List.length_cons]
    cases bit with
    | false => have := ihl hq; omega
    | true => have := ihr hq; omega

/-- No code of a tree with distinct leaves is longer than 255 bits (R170, R192). -/
theorem PTree.codeOf_length_le {tree : PTree} (hnodup : tree.syms.Nodup) (s : Byte) :
    (tree.codeOf s).length ≤ 255 := by
  have hcard : tree.syms.length ≤ 256 := length_le_of_nodup hnodup
  cases tree with
  | leaf sym =>
    rw [PTree.codeOf]
    split <;> simp
  | node l r =>
    rw [PTree.codeOf]
    cases hpath : (PTree.node l r).path s with
    | none => exact Nat.zero_le _
    | some p =>
      have := PTree.path_length_lt hpath
      rw [Option.getD_some]
      omega

/-- At most 255 payload bits for each input byte (R194). -/
theorem payloadOf_length_le {tree : PTree} (hnodup : tree.syms.Nodup) (input : List Byte) :
    (payloadOf tree input).length ≤ 255 * input.length := by
  induction input with
  | nil => exact Nat.zero_le _
  | cons b bs ih =>
    have hcode := PTree.codeOf_length_le hnodup b
    rw [payloadOf, List.flatMap_cons, List.length_append, List.length_cons]
    rw [payloadOf] at ih
    omega

/-! ### The tree built (R163 to R170) -/

/-- The symbols below the entries of ACTIVE. -/
def entrySyms (act : List Entry) : List Byte :=
  act.flatMap fun a => a.tree.syms

theorem leastEntry_eq_none {act : List Entry} (h : leastEntry act = none) : act = [] := by
  cases act with
  | nil => rfl
  | cons a rest =>
    unfold leastEntry at h
    split at h
    · cases h
    · split at h <;> cases h

theorem leastEntry_mem {act : List Entry} {a : Entry} (h : leastEntry act = some a) : a ∈ act := by
  induction act generalizing a with
  | nil => cases h
  | cons b rest ih =>
    unfold leastEntry at h
    split at h
    next => exact List.mem_cons.mpr (.inl (Option.some.inj h).symm)
    next c hc =>
      split at h
      · exact List.mem_cons_of_mem _ (Option.some.inj h ▸ ih hc)
      · exact List.mem_cons.mpr (.inl (Option.some.inj h).symm)

/-- Taking an entry out of ACTIVE takes its symbols out. -/
theorem entrySyms_erase {act : List Entry} {a : Entry} (h : a ∈ act) :
    entrySyms act ~ a.tree.syms ++ entrySyms (act.erase a) :=
  (List.perm_cons_erase h).flatMap_right _

/-- The greedy merge keeps the symbols: its tree holds those it started with. -/
theorem mergeEntries_syms {fuel : Nat} (next : Nat) {act : List Entry} (hlength : act.length = fuel)
    (hne : act ≠ []) : ∃ tree, mergeEntries fuel next act = some tree ∧ tree.syms ~ entrySyms act := by
  induction fuel generalizing next act with
  | zero => exact absurd (List.length_eq_zero_iff.mp hlength) hne
  | succ fuel ih =>
    unfold mergeEntries
    cases ha : leastEntry act with
    | none => exact absurd (leastEntry_eq_none ha) hne
    | some a =>
      have hperma := entrySyms_erase (leastEntry_mem ha)
      have hlengtha := List.length_erase_of_mem (leastEntry_mem ha)
      cases hb : leastEntry (act.erase a) with
      | none =>
        refine ⟨a.tree, by simp [hb], ?_⟩
        rw [leastEntry_eq_none hb] at hperma
        simpa [entrySyms] using hperma.symm
      | some b =>
        have hpermb := entrySyms_erase (leastEntry_mem hb)
        have hlengthb := List.length_erase_of_mem (leastEntry_mem hb)
        have hposb := List.length_pos_of_mem (leastEntry_mem hb)
        obtain ⟨tree, htree, hsyms⟩ := ih (next + 1)
          (act := (act.erase a).erase b ++ [⟨a.freq + b.freq, next, .node a.tree b.tree⟩])
          (by rw [List.length_append, List.length_singleton]; omega) (by simp)
        refine ⟨tree, by simpa [hb] using htree, hsyms.trans ?_⟩
        calc entrySyms ((act.erase a).erase b ++ [⟨a.freq + b.freq, next, .node a.tree b.tree⟩])
          _ = entrySyms ((act.erase a).erase b) ++ (a.tree.syms ++ b.tree.syms) := by simp [entrySyms, PTree.syms]
          _ ~ (a.tree.syms ++ b.tree.syms) ++ entrySyms ((act.erase a).erase b) := List.perm_append_comm
          _ = a.tree.syms ++ (b.tree.syms ++ entrySyms ((act.erase a).erase b)) := List.append_assoc _ _ _
          _ ~ a.tree.syms ++ entrySyms (act.erase a) := hpermb.symm.append_left _
          _ ~ entrySyms act := hperma.symm

/-- C_LEAF makes a leaf of each present byte value (R163). -/
theorem entrySyms_leafEntries (F : Byte → Nat) (bytes : List Byte) (n : Nat) :
    entrySyms (leafEntries F bytes n) = bytes.filter (fun b => F b ≠ 0) := by
  induction bytes generalizing n with
  | nil => rfl
  | cons b bs ih =>
    rw [leafEntries]
    split
    next habsent => simp [habsent, ih]
    next hpresent =>
      rw [entrySyms, List.flatMap_cons, ← entrySyms, ih]
      simp [hpresent, PTree.syms]

/-- BuildTree gives no tree where no byte value is present, and else a tree whose leaves are the present ones, each once
(R168, R170). -/
theorem buildTree_cases (F : Byte → Nat) :
    (buildTree F = none ∧ ∀ b, F b = 0) ∨
      ∃ tree, buildTree F = some tree ∧ tree.syms.Nodup ∧ ∀ b, b ∈ tree.syms ↔ F b ≠ 0 := by
  have hsyms := entrySyms_leafEntries F allBytes 0
  by_cases hnil : leafEntries F allBytes 0 = []
  · refine .inl ⟨by simp [buildTree, hnil, mergeEntries], fun b => ?_⟩
    rw [hnil] at hsyms
    have := List.filter_eq_nil_iff.mp hsyms.symm b (mem_allBytes b)
    simpa using this
  · obtain ⟨tree, htree, hperm⟩ := mergeEntries_syms (leafEntries F allBytes 0).length rfl hnil
    rw [hsyms] at hperm
    refine .inr ⟨tree, htree, hperm.nodup_iff.mpr (nodup_allBytes.filter _), fun b => ?_⟩
    rw [hperm.mem_iff, List.mem_filter]
    simp [mem_allBytes]

end Sys2Proof.Machine
end

section
/-! The functional decoder undoes the functional encoder (43_decoder.md, R243). -/

namespace Sys2Proof.Machine

open scoped List

/-! ### The payload decoded (R236 to R240) -/

theorem emitTo_of_room {cap : Nat} {out : List Byte} (hroom : out.length < cap) (sym : Byte) :
    emitTo cap out sym = .ok (sym :: out) :=
  if_neg hroom.ne

/-- From an internal node, the path to a leaf below one of its children emits that leaf's symbol and ends at the root. -/
theorem decodeTree_path {cap : Nat} (root : PTree) (rest : List Bool) {out : List Byte} (hroom : out.length < cap)
    {s : Byte} (child : PTree) {l r : PTree} {bit : Bool} {p : List Bool} (hchild : (if bit then r else l) = child)
    (hpath : child.path s = some p) :
    decodeTree cap root (bit :: p ++ rest) (.node l r) out = decodeTree cap root rest root (s :: out) := by
  induction child generalizing l r bit p with
  | leaf sym =>
    obtain ⟨rfl, rfl⟩ := PTree.path_leaf_cases hpath
    simp [decodeTree, PTree.descend, hchild, emitTo_of_room hroom]
  | node a b iha ihb =>
    obtain ⟨bit', q, rfl, hq⟩ := PTree.path_node_cases hpath
    have hdescend : decodeTree cap root (bit :: (bit' :: q) ++ rest) (.node l r) out =
        decodeTree cap root (bit' :: q ++ rest) (.node a b) out := by
      simp [decodeTree, PTree.descend, hchild]
    rw [hdescend]
    cases bit' with
    | false => exact iha rfl hq
    | true => exact ihb rfl hq

/-- One code word of a tree whose root is internal. -/
theorem decodeTree_codeOf {cap : Nat} {l r : PTree} {s : Byte} (hs : s ∈ (PTree.node l r).syms) (rest : List Bool)
    {out : List Byte} (hroom : out.length < cap) :
    decodeTree cap (.node l r) ((PTree.node l r).codeOf s ++ rest) (.node l r) out =
      decodeTree cap (.node l r) rest (.node l r) (s :: out) := by
  obtain ⟨p, hp⟩ := PTree.exists_path hs
  obtain ⟨bit, q, rfl, hq⟩ := PTree.path_node_cases hp
  rw [PTree.codeOf, hp, Option.getD_some]
  exact decodeTree_path _ rest hroom _ rfl hq

theorem decodeTree_payloadOf {cap : Nat} {l r : PTree} (input out : List Byte)
    (hmem : ∀ b ∈ input, b ∈ (PTree.node l r).syms) (hroom : out.length + input.length ≤ cap) :
    decodeTree cap (.node l r) (payloadOf (.node l r) input) (.node l r) out = .ok (input.reverse ++ out) := by
  induction input generalizing out with
  | nil => simp [payloadOf, decodeTree]
  | cons b bs ih =>
    rw [List.length_cons] at hroom
    rw [payloadOf, List.flatMap_cons, decodeTree_codeOf (hmem b List.mem_cons_self) _ (by omega), ← payloadOf,
      ih (b :: out) (fun c hc => hmem c (List.mem_cons_of_mem b hc)) (by rw [List.length_cons]; omega)]
    simp

theorem decodeOneLeaf_payloadOf {cap : Nat} {sym : Byte} (input out : List Byte) (hmem : ∀ b ∈ input, b = sym)
    (hroom : out.length + input.length ≤ cap) :
    decodeOneLeaf cap sym (payloadOf (.leaf sym) input) out = .ok (input.reverse ++ out) := by
  induction input generalizing out with
  | nil => simp [payloadOf, decodeOneLeaf]
  | cons b bs ih =>
    rw [List.length_cons] at hroom
    obtain rfl := hmem b List.mem_cons_self
    have hcode : (PTree.leaf b).codeOf b = [false] := if_pos rfl
    have hrest := ih (b :: out) (fun c hc => hmem c (List.mem_cons_of_mem b hc)) (by rw [List.length_cons]; omega)
    rw [payloadOf, List.flatMap_cons, hcode, ← payloadOf]
    simp [decodeOneLeaf, emitTo_of_room (show out.length < cap by omega), hrest]

/-- Decoding the codes of an input gives it back, newest byte first. -/
theorem decodePayload_payloadOf {cap : Nat} {tree : PTree} {input : List Byte} (hmem : ∀ b ∈ input, b ∈ tree.syms)
    (hroom : input.length ≤ cap) : decodePayload cap tree (payloadOf tree input) = .ok input.reverse := by
  cases tree with
  | leaf sym =>
    simpa [decodePayload] using
      decodeOneLeaf_payloadOf input [] (fun b hb => List.mem_singleton.mp (hmem b hb)) (by simpa using hroom)
  | node l r => simpa [decodePayload] using decodeTree_payloadOf input [] hmem (by simpa using hroom)

/-! ### The tree parsed (R232, R234) -/

/-- Parsing the tokens of a tree gives the tree back, where its leaves are new and an arena entry is left for each of its
2k - 1 nodes. -/
theorem parseNode_ser (tree : PTree) {fuel count : Nat} {seen : List Byte} (rest : List Byte)
    (hnodup : (tree.syms ++ seen).Nodup) (hfuel : 512 ≤ fuel + count) (hcount : count + 2 * tree.syms.length ≤ 512) :
    parseNode fuel ⟨tree.ser ++ rest, seen, count⟩ =
      .ok (tree, ⟨rest, tree.syms.reverse ++ seen, count + (2 * tree.syms.length - 1)⟩) := by
  induction tree generalizing fuel count seen rest with
  | leaf sym =>
    simp only [PTree.syms, List.length_singleton, List.singleton_append, List.nodup_cons] at hnodup hcount
    obtain ⟨fuel, rfl⟩ : ∃ n, fuel = n + 1 := ⟨fuel - 1, by omega⟩
    have hfree : count ≠ 511 := by omega
    simp [PTree.ser, PTree.syms, parseNode, hfree, hnodup.1]
  | node l r ihl ihr =>
    have hl := l.syms_length_pos
    have hr := r.syms_length_pos
    rw [PTree.syms, List.length_append] at hcount
    obtain ⟨fuel, rfl⟩ : ∃ n, fuel = n + 1 := ⟨fuel - 1, by omega⟩
    have hfree : count ≠ 511 := by omega
    have hnodupl : (l.syms ++ seen).Nodup := hnodup.sublist ((List.sublist_append_left _ _).append_right seen)
    have hnodupr : (r.syms ++ (l.syms.reverse ++ seen)).Nodup := by
      refine (List.Perm.nodup_iff ?_).mp hnodup
      calc (PTree.node l r).syms ++ seen
        _ ~ (r.syms ++ l.syms) ++ seen := List.perm_append_comm.append_right seen
        _ = r.syms ++ (l.syms ++ seen) := List.append_assoc _ _ _
        _ ~ r.syms ++ (l.syms.reverse ++ seen) := ((List.reverse_perm _).symm.append_right seen).append_left _
    have hleft := ihl (fuel := fuel) (count := count + 1) (r.ser ++ rest) hnodupl (by omega) (by omega)
    have hright := ihr (fuel := fuel) (count := count + 1 + (2 * l.syms.length - 1)) rest hnodupr (by omega) (by omega)
    have hnodes : count + 1 + (2 * l.syms.length - 1) + (2 * r.syms.length - 1) =
        count + (2 * (l.syms.length + r.syms.length) - 1) := by omega
    simp [PTree.ser, PTree.syms, parseNode, hfree, hleft, hright, hnodes]

theorem deser_ser {tree : PTree} (hnodup : tree.syms.Nodup) : deser tree.ser = .ok tree := by
  have hcard : tree.syms.length ≤ 256 := length_le_of_nodup hnodup
  have hparse := parseNode_ser tree (fuel := 512) (count := 0) (seen := []) [] (by simpa using hnodup) (by omega)
    (by omega)
  rw [List.append_nil] at hparse
  simp [deser, hparse]

/-! ### Packed bits (R7, R198) -/

theorem bitAt_eq (p : List Bool) (i : Nat) : bitAt p i = (p.getD i false).toNat := by
  unfold bitAt
  cases p.getD i false <;> rfl

/-- A packed byte holds its eight stream positions, the first in its most significant bit. -/
theorem packByte_eq (p : List Bool) (i : Nat) :
    packByte p i = BitVec.ofFnBE fun t : Fin 8 => p.getD (i + t) false := by
  apply BitVec.eq_of_toNat_eq
  rw [BitVec.toNat_ofFnBE]
  have hlt := Nat.ofBits_lt_two_pow ((fun t : Fin 8 => p.getD (i + t) false) ∘ Fin.rev)
  rw [packByte, BitVec.toNat_ofNat, ← Nat.mod_eq_of_lt hlt]
  congr 1
  simp only [List.range, List.range.loop, List.map_cons, List.map_nil, List.sum_cons, List.sum_nil, bitAt_eq,
    Nat.ofBits_succ, Nat.ofBits_zero, Function.comp_apply, Fin.rev, Fin.val_succ, Fin.val_zero, Nat.reduceAdd,
    Nat.reduceSub]
  omega

theorem streamBit_packByte (p : List Bool) (i j : Nat) :
    streamBit (packByte p i) j = p.getD (i + j % 8) false := by
  have hlt : j % 8 < 8 := Nat.mod_lt _ (by decide)
  rw [streamBit, packByte_eq, BitVec.getLsbD_ofFnBE, dif_pos (by omega), Fin.val_rev,
    show 8 - (7 - j % 8 + 1) = j % 8 by omega]

@[simp] theorem pack_length (p : List Bool) : (pack p).length = ceilDiv8 p.length := by
  simp [pack]

/-- Reading a packed bit string back bit by bit. -/
theorem streamBit_pack (p : List Bool) {j : Nat} (hj : j < p.length) :
    streamBit ((pack p).getD (j / 8) 0) j = p[j] := by
  have hbyte : j / 8 < ceilDiv8 p.length := by unfold ceilDiv8; omega
  have hget : (pack p).getD (j / 8) 0 = packByte p (8 * (j / 8)) := by
    simp [pack, List.getD, hbyte]
  rw [hget, streamBit_packByte, Nat.div_add_mod, List.getD_eq_getElem _ _ hj]

/-! ### The buffer of a compressed input (R94, R199) -/

/-- be32 undoes toBE32 (R8). -/
theorem be32_toBE32 (v : Word) :
    be32 (v.extractLsb' 24 8) (v.extractLsb' 16 8) (v.extractLsb' 8 8) (v.extractLsb' 0 8) = v := by
  ext i hi
  interval_cases i <;> simp [be32]

/-- A compressed buffer: the header, the tree region and the payload region (R94). -/
def compressedBuffer (t b : Word) (region payload : List Byte) : List Byte :=
  toBE32 t ++ toBE32 b ++ region ++ payload

section
variable (t b : Word) (region payload : List Byte)

theorem compressedBuffer_length :
    (compressedBuffer t b region payload).length = 8 + region.length + payload.length := by
  simp only [compressedBuffer, List.length_append, toBE32_length]

theorem be32At_compressedBuffer_zero : be32At (compressedBuffer t b region payload) 0 = t.toNat :=
  congrArg BitVec.toNat (be32_toBE32 t)

theorem be32At_compressedBuffer_four : be32At (compressedBuffer t b region payload) 4 = b.toNat :=
  congrArg BitVec.toNat (be32_toBE32 b)

theorem compressedBuffer_region :
    ((compressedBuffer t b region payload).drop 8).take region.length = region :=
  List.take_left

theorem compressedBuffer_payload (i : Nat) :
    (compressedBuffer t b region payload).getD (8 + region.length + i) 0 = payload.getD i 0 := by
  have hhead : (toBE32 t ++ toBE32 b ++ region).length = 8 + region.length := by
    simp only [List.length_append, toBE32_length]
  rw [compressedBuffer, List.getD_append_right _ _ _ _ (by omega), hhead, Nat.add_sub_cancel_left]

end

/-- The bits read from behind the tree region are the bits packed there (R100). -/
theorem payloadBitsOf_compressedBuffer (t b : Word) (region : List Byte) (p : List Bool) :
    payloadBitsOf (compressedBuffer t b region (pack p)) (8 + region.length) p.length = p := by
  apply List.ext_getElem
  · simp [payloadBitsOf]
  · intro j _ hj
    simp only [payloadBitsOf, List.getElem_map, List.getElem_range]
    rw [compressedBuffer_payload, streamBit_pack p hj]

/-- Decompress of a buffer whose header tells the truth is the parse of its tree region and the decoding of its bits. -/
theorem decompress_compressedBuffer {t b : Word} {region : List Byte} {p : List Bool} {cap : Nat} {tree : PTree}
    {out : List Byte} (ht : t.toNat = region.length) (hb : b.toNat = p.length) (hregion : region.length ≠ 0)
    (htree : deser region = .ok tree) (hout : decodePayload cap tree p = .ok out) :
    decompress (compressedBuffer t b region (pack p)) cap =
      .ok { out := out.reverse, T := region.length, B := p.length, k := tree.syms.length } := by
  have hheader : ¬ 8 + region.length + ceilDiv8 p.length < 8 := by omega
  have hfits : ¬ 8 + region.length + ceilDiv8 p.length - 8 < region.length := by omega
  have hbits : ¬ 8 * (8 + region.length + ceilDiv8 p.length - 8 - region.length) < p.length := by
    unfold ceilDiv8
    omega
  unfold decompress
  simp only [be32At_compressedBuffer_zero, be32At_compressedBuffer_four, compressedBuffer_length, pack_length, ht, hb,
    compressedBuffer_region, payloadBitsOf_compressedBuffer, htree, hout, if_neg hheader, if_neg hfits, if_neg hbits,
    if_neg hregion]

/-! ### The round trip (R243) -/

theorem compress_of_tree {input : List Byte} {tree : PTree} (h : buildTree (occurrences input) = some tree) :
    compress input =
      { out := compressedBuffer (BitVec.ofNat 32 tree.ser.length)
          (BitVec.ofNat 32 (payloadOf tree input).length) tree.ser (pack (payloadOf tree input))
        T := tree.ser.length
        B := (payloadOf tree input).length
        k := tree.syms.length } := by
  rw [compress, h]
  rfl

theorem compress_of_no_tree {input : List Byte} (h : buildTree (occurrences input) = none) :
    compress input = { out := toBE32 0 ++ toBE32 0, T := 0, B := 0, k := 0 } := by
  rw [compress, h]

/-- The buffer of the empty tree without payload bits (R235). -/
theorem decompress_empty (cap : Nat) :
    decompress (toBE32 0 ++ toBE32 0) cap = .ok { out := [], T := 0, B := 0, k := 0 } := rfl

/-- Settles O57: the tree COMPRESS builds has the input's bytes as its leaves, each once, so parsing its tokens gives it
back, its codes decode to the input, and both lengths fit their header fields. -/
theorem roundTrip : Obligations.RoundTrip := by
  intro input cap hmax hcap
  obtain ⟨hnone, habsent⟩ | ⟨tree, hbuild, hnodup, hleaves⟩ := buildTree_cases (occurrences input)
  · obtain rfl : input = [] :=
      List.eq_nil_iff_forall_not_mem.mpr fun b hb => (List.count_pos_iff.mpr hb).ne' (habsent b)
    rw [compress_of_no_tree hnone]
    exact decompress_empty cap
  · have hmem : ∀ b ∈ input, b ∈ tree.syms := fun b hb => (hleaves b).mpr (List.count_pos_iff.mpr hb).ne'
    have hleafCount := length_le_of_nodup hnodup
    have hleafPos := tree.syms_length_pos
    have hserLength := tree.ser_length
    have hpayloadLength := payloadOf_length_le hnodup input
    unfold inMaxBound at hmax
    have hT : (BitVec.ofNat 32 tree.ser.length).toNat = tree.ser.length :=
      (BitVec.toNat_ofNat _ _).trans (Nat.mod_eq_of_lt (by omega))
    have hB : (BitVec.ofNat 32 (payloadOf tree input).length).toNat = (payloadOf tree input).length :=
      (BitVec.toNat_ofNat _ _).trans (Nat.mod_eq_of_lt (by omega))
    rw [compress_of_tree hbuild,
      decompress_compressedBuffer hT hB (by omega) (deser_ser hnodup) (decodePayload_payloadOf hmem hcap),
      List.reverse_reverse]

end Sys2Proof.Machine
end

section
/-! Proofs of the statements about the decoder's errors in a header and in the tree's tokens (60_exceptions.md). -/

namespace Sys2Proof.Machine

/-! ### Raising (R10) -/

/-- A row that raises once the engine alone has moved. -/
theorem exists_raised_of_exec {i : Instr} {s u : State} {e : Engine} {k : ErrorKind} (hexec : exec i s = .next u)
    (hraise : u = { s with eng := e }.raise k) : ∃ t, exec i s = .next t ∧ Raised k s t ∧ t.host = s.host := by
  subst hraise
  exact ⟨_, hexec, raised_after_engine s e k, rfl⟩

/-- An engine phase that raises: the schedule's turn is spent, and nothing else outside the engine moves. -/
theorem exists_raised_of_enginePlain {s : State} {k : ErrorKind} (hmoves : EngineMoves s)
    (hplain : s.spendTurn.engineStep = .plain (s.spendTurn.raise k)) :
    ∃ t, step s = .next t ∧ Raised k s t ∧ HostAfterEngine s t :=
  ⟨_, step_of_enginePlain hmoves hplain,
    ⟨rfl, rfl, by simp, memKept_of_eq (by simp) (by simp) (by simp)⟩, hostAfterEngine_of_eq rfl⟩

/-! ### Marker bytes (R96 to R98, R275) -/

theorem decode_token_reserved {m : Byte} (hinternal : m ≠ 0x00#8) (hleaf : m ≠ 0x01#8) (rest : List Byte) :
    decode (.token (m :: rest)) = .ok (decodeReserved m) := by
  simp [decode, decodeToken, hinternal, hleaf]

/-- Whichever of the seven reserved rows a marker falls in, its meaning is the same raise. -/
theorem exec_decodeReserved (m : Byte) (s : State) :
    exec (decodeReserved m) s = .next (s.raise .fmtTreeBadMarker) := by
  unfold decodeReserved
  split_ifs <;> rfl

/-- Settles O5: the decoder tells the markers apart, and all reserved rows raise alike. -/
theorem markerBytesDecode : Obligations.MarkerBytesDecode := by
  refine ⟨rfl, fun m v rest => ⟨?_, ?_, fun hinternal hleaf => ?_⟩⟩
  · rintro rfl; rfl
  · rintro rfl; rfl
  · exact ⟨_, decode_token_reserved hinternal hleaf _, fun s =>
      ⟨_, exec_decodeReserved m s, raised_after_engine s s.eng _⟩⟩

/-! ### The header's checks (R230, R271 to R273) -/

theorem engineStep_dHdr_of_short {s : State} (hphase : s.eng.phase = .dHdr) (hshort : s.regs.inLen.toNat < 8) :
    s.engineStep = .plain (s.raise .fmtShortHeader) := by
  simp [State.engineStep, hphase, hshort]

theorem exec_header (t b : Word) (s : State) : exec (.header t b) s = .next (s.header t b) := rfl

theorem State.header_of_long_tree {s : State} {t : Word} (b : Word) (htree : s.regs.inLen.toNat - 8 < t.toNat) :
    s.header t b = { s with eng := { s.eng with tReg := t, bReg := b } }.raise .fmtShortTree :=
  if_pos htree

theorem State.header_of_long_payload {s : State} {t b : Word} (htree : t.toNat ≤ s.regs.inLen.toNat - 8)
    (hbits : 8 * (s.regs.inLen.toNat - 8 - t.toNat) < b.toNat) :
    s.header t b = { s with eng := { s.eng with tReg := t, bReg := b } }.raise .fmtBitcount :=
  (if_neg htree.not_gt).trans (if_pos hbits)

/-- Settles O24: the first check is D_HDR's before it reads the header, the other two are the header's own, in order. -/
theorem headerRejected : Obligations.HeaderRejected := by
  refine ⟨rfl, rfl, rfl, fun s t b => ⟨fun hmoves hphase hshort => ?_, fun _ htree => ?_, fun _ htree hbits => ?_⟩⟩
  · exact exists_raised_of_enginePlain hmoves (engineStep_dHdr_of_short (by simpa using hphase) (by simpa using hshort))
  · exact exists_raised_of_exec (exec_header t b s) (State.header_of_long_tree b htree)
  · exact exists_raised_of_exec (exec_header t b s) (State.header_of_long_payload htree hbits)

/-! ### A token's checks (R232, R233, R276, R277, R285) -/

/-- A node count with an index left, in the spelling `simp` gives the literal. -/
theorem ncount_ne_of_room {n : BitVec 10} (h : n.toNat < 511) : n ≠ 511#10 := by
  rintro rfl
  exact absurd h (by decide)

theorem exec_treeInternal (s : State) : exec .treeInternal s = .next s.tokenInternal := rfl

theorem exec_treeLeaf (sym : Byte) (s : State) : exec (.treeLeaf sym) s = .next (s.tokenLeaf sym) := rfl

theorem State.tokenInternal_of_full {s : State} (hfull : s.eng.ncount = 511) :
    s.tokenInternal = s.raise .fmtTreeOverflow :=
  if_pos hfull

theorem State.tokenLeaf_of_full {s : State} (sym : Byte) (hfull : s.eng.ncount = 511) :
    s.tokenLeaf sym = s.raise .fmtTreeOverflow := by
  simpa [hfull] using s.tokenLeaf_cases sym

theorem State.tokenLeaf_of_cut {s : State} (sym : Byte) (hroom : s.eng.ncount.toNat < 511)
    (hcut : s.eng.tReg.toNat ≤ s.eng.tpos.toNat + 1) :
    s.tokenLeaf sym = s.passMarker.raise .fmtTreePastEnd := by
  simpa [ncount_ne_of_room hroom, hcut, hcut.not_gt] using s.tokenLeaf_cases sym

theorem State.tokenLeaf_of_seen {s : State} {sym : Byte} (hroom : s.eng.ncount.toNat < 511)
    (hsym : s.eng.tpos.toNat + 1 < s.eng.tReg.toNat) (hseen : sym ∈ s.eng.seen) :
    s.tokenLeaf sym = { s with
      eng := { s.eng with ncount := s.eng.ncount + 1, tpos := s.eng.tpos + 1 + 1 } }.raise .fmtTreeDuplicate := by
  simpa [ncount_ne_of_room hroom, hsym, hsym.not_ge, hseen] using s.tokenLeaf_cases sym

/-- Settles O27: each clause's hypotheses pass the checks before its own, and its own check raises. -/
theorem treeTokenErrors : Obligations.TreeTokenErrors := by
  refine ⟨rfl, rfl, rfl, fun s sym =>
    ⟨fun hfull => ⟨?_, ?_⟩, fun hroom hcut => ?_, fun hroom hsym hseen => ?_⟩⟩
  · exact exists_raised_of_exec (exec_treeInternal s) (State.tokenInternal_of_full hfull)
  · exact exists_raised_of_exec (exec_treeLeaf sym s) (State.tokenLeaf_of_full sym hfull)
  · exact exists_raised_of_exec (exec_treeLeaf sym s) (State.tokenLeaf_of_cut sym hroom hcut.ge)
  · exact exists_raised_of_exec (exec_treeLeaf sym s) (State.tokenLeaf_of_seen hroom hsym hseen)

end Sys2Proof.Machine
end

section
/-! Proofs of the statements about what the host may do while a command runs (70_reset_and_hazards.md section 3). -/

namespace Sys2Proof.Machine

/-! ### START while BUSY (R308) -/

/-- Settles O13: every START row runs the one acceptance, which is the identity while BUSY. -/
theorem startWhileBusyIgnored : Obligations.StartWhileBusyIgnored := by
  intro s ign i op hbusy hrow
  rw [exec_of_mem_startRows hrow, State.start_of_busy s op hbusy]

/-! ### The step of each host event (R63, R70, R106) -/

theorem State.spendTurn_queue (s : State) : s.spendTurn.host.queue = s.host.queue := by
  rw [State.spendTurn_eq]

section
variable {s : State} {a : Access} {rest : List HostEvent}

theorem fetch_of_hostMoves (hmoves : s.nextAgent = some .host) : fetch s = s.spendTurn.hostStep := by
  unfold fetch
  rw [hmoves]

theorem fetch_of_access (hmoves : s.nextAgent = some .host) (hqueue : s.host.queue = .access a :: rest) :
    fetch s = s.spendTurn.accessStep a := by
  rw [fetch_of_hostMoves hmoves, State.hostStep, State.spendTurn_queue, hqueue]

theorem step_of_access_ok {i : Instr} (hmoves : s.nextAgent = some .host) (hqueue : s.host.queue = .access a :: rest)
    (hdecode : decode (.access a) = .ok i) : step s = exec i s.spendTurn.popEvent := by
  refine step_of_instr s _ (.access a) i ?_ hdecode
  rw [fetch_of_access hmoves hqueue, State.accessStep, hdecode]

theorem step_of_access_error {d : DecodeError} (hmoves : s.nextAgent = some .host)
    (hqueue : s.host.queue = .access a :: rest) (hdecode : decode (.access a) = .error d) :
    step s = .next (s.spendTurn.popEvent.nullAccess a) := by
  apply step_of_plain
  rw [fetch_of_access hmoves hqueue, State.accessStep, hdecode]

theorem step_of_poll (hmoves : s.nextAgent = some .host) (hqueue : s.host.queue = .poll :: rest) :
    step s = .next s.spendTurn.pollStep := by
  apply step_of_plain
  rw [fetch_of_hostMoves hmoves, State.hostStep, State.spendTurn_queue, hqueue]

end

/-! ### Only a reset decodes to SRST (R91, R135) -/

theorem decodeCtrl_srst {v : Word} {ign : BitVec 31} (h : decodeCtrl v = .srst ign) : v.getLsbD 31 = true := by
  unfold decodeCtrl at h
  split at h
  · assumption
  · split at h
    · split at h <;> cases h
    · cases h

theorem decodeRegWrite_srst {off : Nat} {v : Word} {ign : BitVec 31} (h : decodeRegWrite off v = .ok (.srst ign)) :
    off = 0x04 ∧ v.getLsbD 31 = true := by
  unfold decodeRegWrite at h
  split at h
  case h_2 => exact ⟨rfl, decodeCtrl_srst (Except.ok.inj h)⟩
  all_goals cases h

theorem regAccessError_none {w : Width} {off : Word} (h : regAccessError w off = none) : w = .word := by
  by_contra hw
  unfold regAccessError at h
  rw [if_pos hw] at h
  split at h <;> cases h

theorem resetEvent_of_decode_srst {a : Access} {ign : BitVec 31} (h : decode (.access a) = .ok (.srst ign)) :
    ResetEvent (.access a) := by
  cases a with
  | regWrite w off v =>
    simp only [decode, decodeAccess] at h
    split at h
    · cases h
    · next hwidth =>
      obtain rfl := regAccessError_none hwidth
      obtain ⟨hoff, hbit⟩ := decodeRegWrite_srst h
      exact ⟨BitVec.eq_of_toNat_eq hoff, hbit⟩
  | regRead w off =>
    simp only [decode, decodeAccess] at h
    split at h <;> cases h
  | inRead a => cases h
  | inWrite a v => cases h
  | outRead a => cases h
  | outWrite a v => cases h

/-! ### What the host can move while BUSY (R305) -/

/-- Nothing moved but IRQ_EN, the host's own side and the draws its reads use up. -/
structure OnlyIrqEnMoved (s t : State) : Prop where
  regs : t.regs = { s.regs with irqEn := t.regs.irqEn }
  eng : t.eng = s.eng
  inMem : t.inMem = s.inMem
  outMem : t.outMem = s.outMem

theorem OnlyIrqEnMoved.trans {s t u : State} (hst : OnlyIrqEnMoved s t) (htu : OnlyIrqEnMoved t u) :
    OnlyIrqEnMoved s u where
  regs := htu.regs.trans (by rw [hst.regs])
  eng := htu.eng.trans hst.eng
  inMem := htu.inMem.trans hst.inMem
  outMem := htu.outMem.trans hst.outMem

theorem onlyIrqEnMoved_of_eq {s t : State} (h : t = s) : OnlyIrqEnMoved s t := by
  subst h
  exact ⟨rfl, rfl, rfl, rfl⟩

theorem onlyIrqEnMoved_answer (s : State) (v : Word) : OnlyIrqEnMoved s (s.answer v) := ⟨rfl, rfl, rfl, rfl⟩

theorem onlyIrqEnMoved_popEvent (s : State) : OnlyIrqEnMoved s s.popEvent := ⟨rfl, rfl, rfl, rfl⟩

theorem onlyIrqEnMoved_spendTurn (s : State) : OnlyIrqEnMoved s s.spendTurn := by
  constructor <;> simp

/-- An access that reaches no register: a read answers 0, a write is nothing. -/
theorem onlyIrqEnMoved_nullAccess (s : State) (a : Access) : OnlyIrqEnMoved s (s.nullAccess a) := by
  cases a with
  | regRead | inRead | outRead => exact onlyIrqEnMoved_answer s 0
  | regWrite | inWrite | outWrite => exact onlyIrqEnMoved_of_eq rfl

theorem onlyIrqEnMoved_pollStep (s : State) : OnlyIrqEnMoved s s.pollStep := by
  unfold State.pollStep
  split
  · exact (onlyIrqEnMoved_answer s _).trans (onlyIrqEnMoved_popEvent _)
  · exact onlyIrqEnMoved_answer s _

theorem State.hostInWrite_of_busy {s : State} (a : Nat) (v : Byte) (hbusy : s.regs.busy = true) :
    s.hostInWrite a v = s := by
  simp [State.hostInWrite, hbusy]

/-- While BUSY every host row but SRST leaves what the command works on: the writes that wait for idle are lost, a read
answers, and a write to IRQ_EN moves IRQ_EN. -/
theorem exec_hostRow_of_busy {s : State} {i : Instr} (hbusy : s.regs.busy = true) (hhost : isEngineRow i = false)
    (hreset : ∀ ign, i ≠ .srst ign) : ∃ t, exec i s = .next t ∧ OnlyIrqEnMoved s t := by
  cases i
  case srst ign => exact absurd rfl (hreset ign)
  case setop | clrDone | wrInLen | wrOutCap =>
    exact ⟨_, rfl, onlyIrqEnMoved_of_eq (s.writeIdle_of_busy _ hbusy)⟩
  case startIllegalOp00 | startCompress | startDecompress | startIllegalOp11 =>
    exact ⟨_, rfl, onlyIrqEnMoved_of_eq (s.start_of_busy _ hbusy)⟩
  case hostInWrite a v => exact ⟨_, rfl, onlyIrqEnMoved_of_eq (State.hostInWrite_of_busy a v hbusy)⟩
  case wrIrqEn v => exact ⟨_, rfl, rfl, rfl, rfl, rfl⟩
  case rdReg | hostInRead => exact ⟨_, rfl, onlyIrqEnMoved_answer s _⟩
  case hostOutRead a => exact ⟨_, rfl, rfl, rfl, rfl, rfl⟩
  case wrRoId | wrRoOutLen | wrRoTreeLen | wrRoBitCount | wrRoNsym | wrRoParamInMax | wrRoParamOutMax |
      wrRoReserved30 | wrRoReserved34 | wrRoReserved38 | wrRoReserved3C | hostOutWrite =>
    exact ⟨s, rfl, onlyIrqEnMoved_of_eq rfl⟩
  all_goals cases hhost

/-- While BUSY a host event that is no reset moves nothing the command works on. -/
theorem step_hostEvent_of_busy {s : State} {e : HostEvent} {rest : List HostEvent} (hbusy : s.regs.busy = true)
    (hmoves : s.nextAgent = some .host) (hqueue : s.host.queue = e :: rest) (hreset : ¬ ResetEvent e) :
    ∃ t, step s = .next t ∧ OnlyIrqEnMoved s t := by
  have hturn := onlyIrqEnMoved_spendTurn s
  have hpop := hturn.trans (onlyIrqEnMoved_popEvent s.spendTurn)
  cases e with
  | access a =>
    cases hdecode : decode (.access a) with
    | ok i =>
      have hbusy' : s.spendTurn.popEvent.regs.busy = true := by simpa using hbusy
      have hnotSrst : ∀ ign, i ≠ .srst ign := by
        rintro ign rfl
        exact hreset (resetEvent_of_decode_srst hdecode)
      obtain ⟨t, hexec, hmoved⟩ := exec_hostRow_of_busy hbusy' (decode_access_host a i hdecode) hnotSrst
      exact ⟨t, (step_of_access_ok hmoves hqueue hdecode).trans hexec, hpop.trans hmoved⟩
    | error d =>
      exact ⟨_, step_of_access_error hmoves hqueue hdecode, hpop.trans (onlyIrqEnMoved_nullAccess _ a)⟩
  | poll => exact ⟨_, step_of_poll hmoves hqueue, hturn.trans (onlyIrqEnMoved_pollStep _)⟩
  | hardReset => exact absurd trivial hreset

/-- A host step that is a word write to IRQ_EN stores bit 0, BUSY or not. -/
theorem irqEn_of_step_irqEnWrite {s t : State} {v : Word} {rest : List HostEvent} (hmoves : s.nextAgent = some .host)
    (hqueue : s.host.queue = .access (.regWrite .word 0x24#32 v) :: rest) (hstep : step s = .next t) :
    t.regs.irqEn = v.getLsbD 0 := by
  rw [step_of_access_ok hmoves hqueue (decode_regWrite_wordSlot v rfl)] at hstep
  obtain rfl := Host.Outcome.next.inj hstep
  rfl

/-- Settles O52: the step's one outcome moves IRQ_EN alone, and a write to IRQ_EN stores its bit. -/
theorem busyBlocksHost : Obligations.BusyBlocksHost := by
  intro s t e rest hbusy hmoves hqueue hreset hstep
  obtain ⟨u, hu, hmoved⟩ := step_hostEvent_of_busy hbusy hmoves hqueue hreset
  obtain rfl := Host.Outcome.next.inj (hstep.symm.trans hu)
  refine ⟨hmoved.regs, hmoved.eng, fun a => by rw [hmoved.inMem], fun a => by rw [hmoved.outMem], ?_⟩
  rintro v rfl
  exact irqEn_of_step_irqEnWrite hmoves hqueue hstep

end Sys2Proof.Machine
end

section
/-! Proofs of the statements about the encoding of accesses, headers and tokens (30_encoding.md). -/

namespace Sys2Proof.Machine

/-! ### The fields of a CTRL word (R90) -/

section
variable (ign : BitVec 28) (op : BitVec 2) (start : BitVec 1)

theorem ctrlBits_srst : (ctrlBits ign op start).getLsbD 31 = false := by
  simp [ctrlBits]

theorem ctrlBits_start : (ctrlBits ign op start).getLsbD 0 = start.getLsbD 0 := by
  simp [ctrlBits]

theorem ctrlBits_op : (ctrlBits ign op start).extractLsb' 1 2 = op := by
  ext i hi
  interval_cases i <;> simp [ctrlBits]

theorem ctrlBits_ign : (ctrlBits ign op start).extractLsb' 3 28 = ign := by
  ext i hi
  interval_cases i <;> simp [ctrlBits]

end

/-- A word without SRST is its three fields. -/
theorem ctrlBits_of_fields {v : Word} (hsrst : v.getLsbD 31 = false) :
    ctrlBits (v.extractLsb' 3 28) (v.extractLsb' 1 2) (BitVec.ofBool (v.getLsbD 0)) = v := by
  ext i hi
  rw [BitVec.getLsbD_eq_getElem (by decide)] at hsrst
  interval_cases i <;> simp [ctrlBits, hsrst]

/-- A word with SRST is bit 31 and the ignored bits. -/
theorem srstWord_of_fields {v : Word} (hsrst : v.getLsbD 31 = true) :
    0x80000000#32 ||| (v.extractLsb' 0 31).setWidth 32 = v := by
  ext i hi
  rw [BitVec.getLsbD_eq_getElem (by decide)] at hsrst
  interval_cases i <;> simp [hsrst]

theorem decodeCtrl_srstWord (ign : BitVec 31) : decodeCtrl (0x80000000#32 ||| ign.setWidth 32) = .srst ign := by
  have hign : (0x80000000#32 ||| ign.setWidth 32).extractLsb' 0 31 = ign := by
    ext i hi
    interval_cases i <;> simp
  rw [decodeCtrl, hign]
  simp

theorem decodeCtrl_setopWord (ign : BitVec 28) (op : BitVec 2) : decodeCtrl (ctrlBits ign op 0#1) = .setop op ign := by
  rw [decodeCtrl, ctrlBits_srst, ctrlBits_start, ctrlBits_op, ctrlBits_ign]
  rfl

/-- The START row of an OP field (R92). -/
def startRow (ign : BitVec 28) (op : BitVec 2) : Instr :=
  match op.toNat with
  | 0 => .startIllegalOp00 ign
  | 1 => .startCompress ign
  | 2 => .startDecompress ign
  | _ => .startIllegalOp11 ign

theorem decodeCtrl_of_start {v : Word} (hsrst : v.getLsbD 31 = false) (hstart : v.getLsbD 0 = true) :
    decodeCtrl v = startRow (v.extractLsb' 3 28) (v.extractLsb' 1 2) := by
  rw [decodeCtrl, hsrst, hstart]
  rfl

theorem decodeCtrl_startWord (ign : BitVec 28) (op : BitVec 2) :
    decodeCtrl (ctrlBits ign op 1#1) = startRow ign op := by
  rw [decodeCtrl_of_start (ctrlBits_srst _ _ _) (ctrlBits_start _ _ _), ctrlBits_op, ctrlBits_ign]

theorem encode_startRow (ign : BitVec 28) (op : BitVec 2) :
    encode (startRow ign op) = encodeCtrl (ctrlBits ign op 1#1) := by
  rcases opField_cases op with rfl | rfl | rfl | rfl <;> rfl

theorem startRow_wellFormed (ign : BitVec 28) (op : BitVec 2) : (startRow ign op).wellFormed = true := by
  rcases opField_cases op with rfl | rfl | rfl | rfl <;> rfl

/-! ### Decoding what was encoded -/

theorem decode_encodeCtrl (v : Word) : decode (encodeCtrl v) = .ok (decodeCtrl v) :=
  decode_wrCtrl v

theorem decode_encodeReg {off : Word} (v : Word) (h : isWordSlot off = true) :
    decode (encodeReg off v) = decodeRegWrite off.toNat v :=
  decode_regWrite_wordSlot v h

theorem decode_encode_startRow (ign : BitVec 28) (op : BitVec 2) :
    decode (encode (startRow ign op)) = .ok (startRow ign op) := by
  rw [encode_startRow, decode_encodeCtrl, decodeCtrl_startWord]

theorem decode_header_toBE32 (t b : Word) : decode (.header (toBE32 t ++ toBE32 b)) = .ok (.header t b) :=
  congrArg₂ (fun x y => Except.ok (Instr.header x y)) (be32_toBE32 t) (be32_toBE32 b)

/-- A reserved marker is its row's leading 1 bit and the low bits the row leaves free (R98). -/
theorem decode_encode_reserved :
    (∀ low, decode (encode (.treeReserved02 low)) = .ok (.treeReserved02 low)) ∧
    (∀ low, decode (encode (.treeReserved04 low)) = .ok (.treeReserved04 low)) ∧
    (∀ low, decode (encode (.treeReserved08 low)) = .ok (.treeReserved08 low)) ∧
    (∀ low, decode (encode (.treeReserved10 low)) = .ok (.treeReserved10 low)) ∧
    (∀ low, decode (encode (.treeReserved20 low)) = .ok (.treeReserved20 low)) ∧
    (∀ low, decode (encode (.treeReserved40 low)) = .ok (.treeReserved40 low)) ∧
    (∀ low, decode (encode (.treeReserved80 low)) = .ok (.treeReserved80 low)) := by
  refine ⟨?_, ?_, ?_, ?_, ?_, ?_, ?_⟩ <;> decide

/-- Settles O1, by the instruction's format: a CTRL word by its fields, another register write by its slot, a header by
its byte order, a token by its marker. -/
theorem decodeEncodeRoundTrip : Obligations.DecodeEncodeRoundTrip := by
  intro i hwf
  obtain ⟨h02, h04, h08, h10, h20, h40, h80⟩ := decode_encode_reserved
  cases i with
  | srst ign => exact (decode_encodeCtrl _).trans (congrArg _ (decodeCtrl_srstWord ign))
  | setop op ign => exact (decode_encodeCtrl _).trans (congrArg _ (decodeCtrl_setopWord ign op))
  | startIllegalOp00 ign => exact decode_encode_startRow ign 0b00#2
  | startCompress ign => exact decode_encode_startRow ign 0b01#2
  | startDecompress ign => exact decode_encode_startRow ign 0b10#2
  | startIllegalOp11 ign => exact decode_encode_startRow ign 0b11#2
  | clrDone v | wrInLen v | wrOutCap v | wrIrqEn v | wrRoId v | wrRoOutLen v | wrRoTreeLen v | wrRoBitCount v
  | wrRoNsym v | wrRoParamInMax v | wrRoParamOutMax v | wrRoReserved30 v | wrRoReserved34 v | wrRoReserved38 v
  | wrRoReserved3C v => exact decode_encodeReg v rfl
  | rdReg off => exact decode_regRead_wordSlot hwf
  | hostInWrite | hostInRead | hostOutRead | hostOutWrite => rfl
  | header t b => exact decode_header_toBE32 t b
  | treeInternal | treeLeaf => rfl
  | treeReserved02 low => exact h02 low
  | treeReserved04 low => exact h04 low
  | treeReserved08 low => exact h08 low
  | treeReserved10 low => exact h10 low
  | treeReserved20 low => exact h20 low
  | treeReserved40 low => exact h40 low
  | treeReserved80 low => exact h80 low
  | payloadBit0 | payloadBit1 => rfl

/-! ### Encoding what was decoded -/

theorem encode_decodeCtrl (v : Word) :
    (decodeCtrl v).wellFormed = true ∧ encode (decodeCtrl v) = encodeCtrl v := by
  cases hsrst : v.getLsbD 31 with
  | true =>
    rw [decodeCtrl, if_pos hsrst]
    exact ⟨rfl, congrArg encodeCtrl (srstWord_of_fields hsrst)⟩
  | false =>
    have hword := ctrlBits_of_fields hsrst
    cases hstart : v.getLsbD 0 with
    | true =>
      rw [hstart] at hword
      rw [decodeCtrl_of_start hsrst hstart, encode_startRow]
      exact ⟨startRow_wellFormed _ _, congrArg encodeCtrl hword⟩
    | false =>
      rw [hstart] at hword
      rw [decodeCtrl, hsrst, hstart]
      exact ⟨rfl, congrArg encodeCtrl hword⟩

theorem regAccessError_eq_none {w : Width} {off : Word} (h : regAccessError w off = none) :
    w = .word ∧ isWordSlot off = true := by
  obtain rfl := regAccessError_none h
  refine ⟨rfl, ?_⟩
  unfold regAccessError at h
  by_cases halign : off.toNat % 4 = 0
  · by_cases hrange : off.toNat < 0x40
    · simp [isWordSlot, halign, hrange]
    · simp [halign, Nat.le_of_not_lt hrange] at h
  · simp [halign] at h

/-- A word write to a slot is encoded at that slot again. -/
theorem encode_decodeRegWrite {off v : Word} {i : Instr} (h : decodeRegWrite off.toNat v = .ok i) :
    i.wellFormed = true ∧ encode i = encodeReg off v := by
  have hslot {n : Word} (hn : off.toNat = n.toNat) : encodeReg n v = encodeReg off v :=
    congrArg (encodeReg · v) (BitVec.eq_of_toNat_eq hn.symm)
  unfold decodeRegWrite at h
  split at h
  case h_2 hoff =>
    obtain rfl := Except.ok.inj h
    exact ⟨(encode_decodeCtrl v).1, (encode_decodeCtrl v).2.trans (hslot hoff)⟩
  case h_17 => cases h
  all_goals
    rename_i hoff
    obtain rfl := Except.ok.inj h
    exact ⟨rfl, hslot hoff⟩

/-- Settles O2: an access that decodes passed the check of R63, so its slot and its value are what the row keeps. -/
theorem encodeDecodeAccess : Obligations.EncodeDecodeAccess := by
  intro a i h
  cases a with
  | regRead w off =>
    simp only [decode, decodeAccess] at h
    split at h
    · cases h
    · next hnone =>
      obtain ⟨rfl, hslot⟩ := regAccessError_eq_none hnone
      obtain rfl := Except.ok.inj h
      exact ⟨hslot, rfl⟩
  | regWrite w off v =>
    simp only [decode, decodeAccess] at h
    split at h
    · cases h
    · next hnone =>
      obtain ⟨rfl, -⟩ := regAccessError_eq_none hnone
      exact encode_decodeRegWrite h
  | inRead | inWrite | outRead | outWrite =>
    obtain rfl := Except.ok.inj h
    exact ⟨rfl, rfl⟩

/-! ### CTRL words by the masks of their rows (R91, R92) -/

theorem srstMask_bit {v : Word} (h : v &&& 0x80000000#32 = 0x80000000#32) : v.getLsbD 31 = true := by
  have := congrArg (·.getLsbD 31) h
  simpa using this

/-- The mask of a START row keeps SRST, START and the OP field. -/
theorem startMask_bits {v c : Word} (h : v &&& 0x80000007#32 = c) :
    v.getLsbD 31 = c.getLsbD 31 ∧ v.getLsbD 0 = c.getLsbD 0 ∧ v.extractLsb' 1 2 = c.extractLsb' 1 2 := by
  subst h
  refine ⟨by simp, by simp, ?_⟩
  ext i hi
  interval_cases i <;> simp

theorem decode_of_startMask {v : Word} (op : BitVec 2) (h : v &&& 0x80000007#32 = ctrlBits 0#28 op 1#1) :
    ∃ ign, decode (.access (.regWrite .word 0x04#32 v)) = .ok (startRow ign op) := by
  obtain ⟨hsrst, hstart, hop⟩ := startMask_bits h
  rw [ctrlBits_srst] at hsrst
  rw [ctrlBits_start] at hstart
  rw [ctrlBits_op] at hop
  exact ⟨_, by rw [decode_wrCtrl, decodeCtrl_of_start hsrst hstart, hop]⟩

/-- Settles O3: each mask keeps the bits the decoder tests, and its match says what they are. -/
theorem ctrlWordsByMask : Obligations.CtrlWordsByMask := by
  refine fun v => ⟨fun h => ⟨v.extractLsb' 0 31, ?_⟩, fun h => ⟨_, by rw [decode_wrCtrl, decodeCtrl_setop h]⟩,
    decode_of_startMask 0b00#2, decode_of_startMask 0b01#2, decode_of_startMask 0b10#2, decode_of_startMask 0b11#2⟩
  rw [decode_wrCtrl, decodeCtrl, if_pos (srstMask_bit h)]

/-! ### Byte order (R8, R94) -/

theorem be32_toNat (b0 b1 b2 b3 : Byte) :
    (be32 b0 b1 b2 b3).toNat = b0.toNat * 2 ^ 24 + b1.toNat * 2 ^ 16 + b2.toNat * 2 ^ 8 + b3.toNat := by
  have h0 := b0.isLt
  have h1 := b1.isLt
  have h2 := b2.isLt
  have h3 := b3.isLt
  have hbytes : be32 b0 b1 b2 b3 = b0 ++ b1 ++ b2 ++ b3 := by
    refine BitVec.eq_of_getLsbD_eq fun i hi => ?_
    simp only [be32, BitVec.getLsbD_or, BitVec.getLsbD_append]
    interval_cases i <;> simp
  rw [hbytes]
  simp only [BitVec.toNat_append]
  rw [← Nat.shiftLeft_add_eq_or_of_lt h1, ← Nat.shiftLeft_add_eq_or_of_lt h2, ← Nat.shiftLeft_add_eq_or_of_lt h3]
  simp only [Nat.shiftLeft_eq]
  omega

/-- Settles O4: both fields are `be32` of their four bytes. -/
theorem headerIsBigEndian : Obligations.HeaderIsBigEndian :=
  fun b0 b1 b2 b3 b4 b5 b6 b7 _ => ⟨_, _, rfl, be32_toNat b0 b1 b2 b3, be32_toNat b4 b5 b6 b7⟩

/-- Settles O6: each word is decoded by evaluation. -/
theorem specWordsDecode : Obligations.SpecWordsDecode :=
  ⟨rfl, rfl, rfl, rfl, rfl, rfl, rfl, rfl, rfl⟩

end Sys2Proof.Machine
end

section
/-! What one step of the machine can do, by agent and by rule, and the invariants that follow (R25, R34, R61, R62, R166). -/

namespace Sys2Proof.Machine

/-! ### Every step answers (93_implementation_defined.md) -/

theorem exec_next (i : Instr) (s : State) : ∃ t, exec i s = .next t := by
  cases i <;> exact ⟨_, rfl⟩

/-- Settles O10: a plain step is an answer, what is fetched decodes, and every row's meaning answers. -/
theorem stepNeverStops : Obligations.StepNeverStops := by
  intro s
  cases hfetch : fetch s with
  | plain t => exact ⟨t, step_of_plain s t hfetch⟩
  | instr c u =>
    obtain ⟨i, hdecode⟩ := fetch_decodes s u c hfetch
    obtain ⟨t, hexec⟩ := exec_next i u
    exact ⟨t, (step_of_instr s u c i hfetch hdecode).trans hexec⟩

/-! ### The rules of the engine -/

/-- The phases a phase can lead to (R34, R146, R160 to R197, R230 to R240). -/
def Phase.successors : Phase → List Phase
  | .idle => []
  | .check => [.finish, .cCount, .dHdr]
  | .cCount => [.cLeaf]
  | .cLeaf => [.cMerge]
  | .cMerge => [.cCode]
  | .cCode => [.cSize]
  | .cSize => [.finish, .cHdr]
  | .cHdr => [.cTree]
  | .cTree => [.cEnc]
  | .cEnc => [.finish]
  | .dHdr => [.finish, .dTree]
  | .dTree => [.finish, .dDec]
  | .dDec => [.finish]
  | .finish => [.idle]

/-- What the engine's step can be, phase by phase (R149, R150). -/
inductive EngineRule (s : State) : State → Prop where
  | check (h : s.eng.phase = .check) : EngineRule s s.checkStep
  | count (h : s.eng.phase = .cCount) : EngineRule s s.countStep
  | leaf (h : s.eng.phase = .cLeaf) : EngineRule s s.leafStep
  | merge (h : s.eng.phase = .cMerge) : EngineRule s s.mergeStep
  | code (h : s.eng.phase = .cCode) : EngineRule s s.codeStep
  | size (h : s.eng.phase = .cSize) : EngineRule s s.sizeStep
  | hdr (h : s.eng.phase = .cHdr) : EngineRule s s.hdrStep
  | tree (h : s.eng.phase = .cTree) : EngineRule s s.treeStep
  | enc (h : s.eng.phase = .cEnc) : EngineRule s s.encStep
  | raise (h : .finish ∈ s.eng.phase.successors) (k : ErrorKind) : EngineRule s (s.raise k)
  | header (h : s.eng.phase = .dHdr) (t b : Word) : EngineRule s (s.header t b)
  | parseEntry (h : s.eng.phase = .dTree) (he : s.eng.entering = true) : EngineRule s s.parseEntry
  | parseEnd (h : s.eng.phase = .dTree) : EngineRule s s.parseEnd
  | leafPastEnd (h : s.eng.phase = .dTree) : EngineRule s s.leafPastEnd
  | tokenInternal (h : s.eng.phase = .dTree) (he : s.eng.entering = false) : EngineRule s s.tokenInternal
  | tokenLeaf (h : s.eng.phase = .dTree) (he : s.eng.entering = false) (sym : Byte) : EngineRule s (s.tokenLeaf sym)
  | decEntry (h : s.eng.phase = .dDec) : EngineRule s s.decEntry
  | payloadBit (h : s.eng.phase = .dDec) (bit : Bool) : EngineRule s (s.payloadBit bit)
  | decEnd (h : s.eng.phase = .dDec) : EngineRule s s.decEnd
  | finish (h : s.eng.phase = .finish) : EngineRule s s.finish

/-- The run of a fetch, whichever kind it is. -/
def Fetched.run : Fetched → Host.Outcome State Fault Refusal
  | .plain t => .next t
  | .instr c t =>
    match decode c with
    | .ok i => exec i t
    | .error _ => .next t

theorem step_eq_run (s : State) : step s = (fetch s).run := rfl

theorem Fetched.run_plain (t : State) : (Fetched.plain t).run = .next t := rfl

theorem Fetched.run_instr {c : Code} {i : Instr} (t : State) (h : decode c = .ok i) :
    (Fetched.instr c t).run = exec i t := by
  simp [Fetched.run, h]

/-- A token's run, by its marker (R96 to R98). -/
theorem run_tokenCode_cases (s : State) :
    (Fetched.instr s.tokenCode s).run = .next s.tokenInternal ∨
      (∃ sym, (Fetched.instr s.tokenCode s).run = .next (s.tokenLeaf sym)) ∨
      (Fetched.instr s.tokenCode s).run = .next (s.raise .fmtTreeBadMarker) := by
  have hdecode := decode_tokenCode_eq s
  by_cases hinternal : s.markerByte = 0x00#8
  · rw [hinternal] at hdecode
    exact .inl (Fetched.run_instr s hdecode)
  by_cases hleaf : s.markerByte = 0x01#8
  · rw [hleaf] at hdecode
    exact .inr (.inl ⟨_, Fetched.run_instr s hdecode⟩)
  · rw [decode_token_reserved hinternal hleaf] at hdecode
    exact .inr (.inr ((Fetched.run_instr s hdecode).trans (exec_decodeReserved _ s)))

theorem engineRule_of_run {s t : State} (hphase : s.eng.phase ≠ .idle) (hrun : s.engineStep.run = .next t) :
    EngineRule s t := by
  unfold State.engineStep at hrun
  split at hrun
  case h_1 h => exact absurd h hphase
  case h_2 h => obtain rfl := Host.Outcome.next.inj hrun; exact .check h
  case h_3 h => obtain rfl := Host.Outcome.next.inj hrun; exact .count h
  case h_4 h => obtain rfl := Host.Outcome.next.inj hrun; exact .leaf h
  case h_5 h => obtain rfl := Host.Outcome.next.inj hrun; exact .merge h
  case h_6 h => obtain rfl := Host.Outcome.next.inj hrun; exact .code h
  case h_7 h => obtain rfl := Host.Outcome.next.inj hrun; exact .size h
  case h_8 h => obtain rfl := Host.Outcome.next.inj hrun; exact .hdr h
  case h_9 h => obtain rfl := Host.Outcome.next.inj hrun; exact .tree h
  case h_10 h => obtain rfl := Host.Outcome.next.inj hrun; exact .enc h
  case h_11 h =>
    split at hrun
    · obtain rfl := Host.Outcome.next.inj hrun; exact .raise (by simp [h, Phase.successors]) _
    · obtain rfl := Host.Outcome.next.inj hrun; exact .header h _ _
  case h_12 h =>
    split at hrun
    next he => obtain rfl := Host.Outcome.next.inj hrun; exact .parseEntry h he
    next he =>
      have he := Bool.eq_false_iff.mpr he
      split at hrun
      · obtain rfl := Host.Outcome.next.inj hrun; exact .parseEnd h
      split at hrun
      · obtain rfl := Host.Outcome.next.inj hrun; exact .raise (by simp [h, Phase.successors]) _
      split at hrun
      · obtain rfl := Host.Outcome.next.inj hrun; exact .leafPastEnd h
      rcases run_tokenCode_cases s with htoken | ⟨sym, htoken⟩ | htoken <;> rw [htoken] at hrun <;>
        obtain rfl := Host.Outcome.next.inj hrun
      · exact .tokenInternal h he
      · exact .tokenLeaf h he sym
      · exact .raise (by simp [h, Phase.successors]) _
  case h_13 h =>
    split at hrun
    · obtain rfl := Host.Outcome.next.inj hrun; exact .decEntry h
    split at hrun
    · rw [State.bitCode, Fetched.run_instr s (decode_payload _)] at hrun
      split at hrun <;> (obtain rfl := Host.Outcome.next.inj hrun; exact .payloadBit h _)
    · obtain rfl := Host.Outcome.next.inj hrun; exact .decEnd h
  case h_14 h => obtain rfl := Host.Outcome.next.inj hrun; exact .finish h

/-! ### The rules of the host -/

/-- A register write that waits for idle leaves BUSY, the error, the results and the parameters, and never sets DONE. -/
structure ConfigWrite (r r' : Regs) : Prop where
  busy : r'.busy = r.busy
  done : r'.done = true → r.done = true
  err : r'.err = r.err ∧ r'.errCode = r.errCode
  results : r'.outLen = r.outLen ∧ r'.treeLen = r.treeLen ∧ r'.bitCount = r.bitCount ∧ r'.nsym = r.nsym
  params : r'.inMax = r.inMax ∧ r'.outMax = r.outMax

/-- What the step of a host event can be, once the event is taken from the queue. -/
inductive HostRule (e : HostEvent) (s : State) : State → Prop where
  | same : HostRule e s s
  | answer (v : Word) : HostRule e s (s.answer v)
  | outRead (a : Nat) (v : Word) : HostRule e s ((s.spendOutDraw a).answer v)
  | inWrite (a : Nat) (v : Byte) : HostRule e s (s.hostInWrite a v)
  | write (r : Regs) (h : ConfigWrite s.regs r) : HostRule e s (s.writeIdle r)
  | irqEn (en : Bool) : HostRule e s { s with regs := { s.regs with irqEn := en } }
  | start (op : BitVec 2) : HostRule e s (s.start op)
  | softReset (h : ResetEvent e) : HostRule e s s.softReset
  | hardReset (h : ResetEvent e) : HostRule e s s.hardReset

theorem configWrite_clearDone (r : Regs) (b : Bool) : ConfigWrite r (if b then r.clearDone else r) := by
  cases b with
  | true => exact ⟨rfl, nofun, ⟨rfl, rfl⟩, ⟨rfl, rfl, rfl, rfl⟩, rfl, rfl⟩
  | false => exact ⟨rfl, id, ⟨rfl, rfl⟩, ⟨rfl, rfl, rfl, rfl⟩, rfl, rfl⟩

theorem hostRule_of_exec {a : Access} {i : Instr} {s t : State} (hdecode : decode (.access a) = .ok i)
    (hexec : exec i s = .next t) : HostRule (.access a) s t := by
  have hhost := decode_access_host a i hdecode
  cases i
  case srst ign =>
    obtain rfl := Host.Outcome.next.inj hexec
    exact .softReset (resetEvent_of_decode_srst hdecode)
  case setop | wrInLen | wrOutCap =>
    obtain rfl := Host.Outcome.next.inj hexec
    exact .write _ ⟨rfl, id, ⟨rfl, rfl⟩, ⟨rfl, rfl, rfl, rfl⟩, rfl, rfl⟩
  case clrDone =>
    obtain rfl := Host.Outcome.next.inj hexec
    exact .write _ (configWrite_clearDone _ _)
  case startIllegalOp00 | startCompress | startDecompress | startIllegalOp11 =>
    obtain rfl := Host.Outcome.next.inj hexec
    exact .start _
  case wrIrqEn => obtain rfl := Host.Outcome.next.inj hexec; exact .irqEn _
  case rdReg | hostInRead => obtain rfl := Host.Outcome.next.inj hexec; exact .answer _
  case hostOutRead => obtain rfl := Host.Outcome.next.inj hexec; exact .outRead _ _
  case hostInWrite => obtain rfl := Host.Outcome.next.inj hexec; exact .inWrite _ _
  case wrRoId | wrRoOutLen | wrRoTreeLen | wrRoBitCount | wrRoNsym | wrRoParamInMax | wrRoParamOutMax |
      wrRoReserved30 | wrRoReserved34 | wrRoReserved38 | wrRoReserved3C | hostOutWrite =>
    obtain rfl := Host.Outcome.next.inj hexec
    exact .same
  all_goals cases hhost

theorem hostRule_nullAccess (e : HostEvent) (s : State) (a : Access) : HostRule e s (s.nullAccess a) := by
  cases a with
  | regRead | inRead | outRead => exact .answer 0
  | regWrite | inWrite | outWrite => exact .same

theorem step_of_hardReset {s : State} {rest : List HostEvent} (hmoves : s.nextAgent = some .host)
    (hqueue : s.host.queue = .hardReset :: rest) : step s = .next s.spendTurn.popEvent.hardReset := by
  apply step_of_plain
  rw [fetch_of_hostMoves hmoves, State.hostStep, State.spendTurn_queue, hqueue]

theorem nextAgent_host_queue {s : State} (h : s.nextAgent = some .host) : ∃ e rest, s.host.queue = e :: rest := by
  cases hqueue : s.host.queue with
  | cons e rest => exact ⟨e, rest, rfl⟩
  | nil =>
    unfold State.nextAgent at h
    rw [hqueue] at h
    split at h <;> simp_all

/-- A host step is the rule of its event, in a state that differs from the old one outside the block alone. -/
theorem hostRule_of_step {s t : State} (hmoves : s.nextAgent = some .host) (hstep : step s = .next t) :
    ∃ e rest u, s.host.queue = e :: rest ∧ u = { s with host := u.host } ∧ HostRule e u t := by
  obtain ⟨e, rest, hqueue⟩ := nextAgent_host_queue hmoves
  have hturn : s.spendTurn = { s with host := s.spendTurn.host } := by rw [State.spendTurn_eq]
  have hpop : s.spendTurn.popEvent = { s with host := s.spendTurn.popEvent.host } := by rw [State.spendTurn_eq]; rfl
  cases e with
  | access a =>
    refine ⟨_, rest, s.spendTurn.popEvent, hqueue, hpop, ?_⟩
    cases hdecode : decode (.access a) with
    | ok i =>
      rw [step_of_access_ok hmoves hqueue hdecode] at hstep
      exact hostRule_of_exec hdecode hstep
    | error d =>
      rw [step_of_access_error hmoves hqueue hdecode] at hstep
      obtain rfl := Host.Outcome.next.inj hstep
      exact hostRule_nullAccess _ _ a
  | poll =>
    rw [step_of_poll hmoves hqueue] at hstep
    obtain rfl := Host.Outcome.next.inj hstep
    unfold State.pollStep
    split
    · exact ⟨_, rest, s.spendTurn.popEvent, hqueue, hpop, .answer (s.spendTurn.regRead 0x08)⟩
    · exact ⟨_, rest, s.spendTurn, hqueue, hturn, .answer _⟩
  | hardReset =>
    rw [step_of_hardReset hmoves hqueue] at hstep
    obtain rfl := Host.Outcome.next.inj hstep
    exact ⟨_, rest, s.spendTurn.popEvent, hqueue, hpop, .hardReset trivial⟩

/-! ### One step -/

theorem engineMoves_phase {s : State} (h : EngineMoves s) : s.eng.phase ≠ .idle := by
  intro hidle
  unfold EngineMoves State.nextAgent at h
  rw [hidle] at h
  split at h <;> simp_all

theorem engineRule_of_step {s t : State} (hmoves : EngineMoves s) (hstep : step s = .next t) :
    EngineRule s.spendTurn t := by
  rw [step_eq_run, fetch, show s.nextAgent = some .engine from hmoves] at hstep
  exact engineRule_of_run (by simpa using engineMoves_phase hmoves) hstep

/-- A step is nobody's and changes nothing, or it is the engine's, or it is the host's. -/
theorem step_agent_cases {s t : State} (hstep : step s = .next t) :
    (s.nextAgent = none ∧ t = s) ∨ (EngineMoves s ∧ EngineRule s.spendTurn t) ∨
      (s.nextAgent = some .host ∧
        ∃ e rest u, s.host.queue = e :: rest ∧ u = { s with host := u.host } ∧ HostRule e u t) := by
  cases hagent : s.nextAgent with
  | none =>
    rw [step_eq_run, fetch, hagent] at hstep
    exact .inl ⟨rfl, (Host.Outcome.next.inj hstep).symm⟩
  | some agent =>
    cases agent with
    | engine => exact .inr (.inl ⟨hagent, engineRule_of_step hagent hstep⟩)
    | host => exact .inr (.inr ⟨rfl, hostRule_of_step hagent hstep⟩)

/-! ### What the engine leaves alone -/

/-- A command that goes on: the engine and OUT_MEM alone moved, the phase stays or a successor is entered, and OUT_MEM
keeps its canonical form. -/
structure CommandGoesOn (s t : State) : Prop where
  only : t = { s with eng := t.eng, outMem := t.outMem }
  phase : t.eng.phase = s.eng.phase ∨ (t.eng.entering = true ∧ t.eng.phase ∈ s.eng.phase.successors)
  wf : s.outMem.wf = true → t.outMem.wf = true

section
variable {s : State}

theorem goesOn_of_enters {t : State} {p : Phase} (honly : t = { s with eng := t.eng, outMem := t.outMem })
    (hgoes : GoesTo p t) (hp : p ∈ s.eng.phase.successors) (hwf : s.outMem.wf = true → t.outMem.wf = true) :
    CommandGoesOn s t := by
  obtain ⟨rfl, henter⟩ := hgoes
  exact ⟨honly, .inr ⟨henter, hp⟩, hwf⟩

theorem goesOn_checkStep (h : s.eng.phase = .check) : CommandGoesOn s s.checkStep := by
  unfold State.checkStep
  split_ifs <;> exact goesOn_of_enters rfl ⟨rfl, rfl⟩ (by simp [h, Phase.successors]) id

theorem goesOn_countStep (h : s.eng.phase = .cCount) : CommandGoesOn s s.countStep := by
  unfold State.countStep
  split_ifs
  · exact ⟨rfl, .inl rfl, id⟩
  · exact ⟨rfl, .inl rfl, id⟩
  · exact goesOn_of_enters rfl ⟨rfl, rfl⟩ (by simp [h, Phase.successors]) id

theorem goesOn_leafStep (h : s.eng.phase = .cLeaf) : CommandGoesOn s s.leafStep := by
  unfold State.leafStep
  dsimp only
  split_ifs
  · exact ⟨rfl, .inl rfl, id⟩
  · exact ⟨rfl, .inl rfl, id⟩
  · exact ⟨rfl, .inl rfl, id⟩
  · exact goesOn_of_enters rfl ⟨rfl, rfl⟩ (by simp [h, Phase.successors]) id

theorem goesOn_mergeStep (h : s.eng.phase = .cMerge) : CommandGoesOn s s.mergeStep := by
  unfold State.mergeStep
  split
  · exact goesOn_of_enters rfl ⟨rfl, rfl⟩ (by simp [h, Phase.successors]) id
  · split
    · exact goesOn_of_enters rfl ⟨rfl, rfl⟩ (by simp [h, Phase.successors]) id
    · exact ⟨rfl, .inl rfl, id⟩

theorem goesOn_codeEntry (h : s.eng.phase = .cCode) : CommandGoesOn s s.codeEntry := by
  unfold State.codeEntry
  dsimp only
  split_ifs
  · split
    · exact goesOn_of_enters rfl ⟨rfl, rfl⟩ (by simp [h, Phase.successors]) id
    · exact ⟨rfl, .inl rfl, id⟩
  · exact goesOn_of_enters rfl ⟨rfl, rfl⟩ (by simp [h, Phase.successors]) id

theorem goesOn_codeStep (h : s.eng.phase = .cCode) : CommandGoesOn s s.codeStep := by
  unfold State.codeStep
  split_ifs
  · exact goesOn_codeEntry h
  · split
    · exact goesOn_of_enters rfl ⟨rfl, rfl⟩ (by simp [h, Phase.successors]) id
    · split <;> exact ⟨rfl, .inl rfl, id⟩

theorem goesOn_sizeStep (h : s.eng.phase = .cSize) : CommandGoesOn s s.sizeStep := by
  unfold State.sizeStep
  dsimp only
  split_ifs <;> exact goesOn_of_enters rfl ⟨rfl, rfl⟩ (by simp [h, Phase.successors]) id

theorem goesOn_hdrStep (h : s.eng.phase = .cHdr) : CommandGoesOn s s.hdrStep :=
  goesOn_of_enters (p := .cTree) rfl ⟨rfl, rfl⟩ (by simp [h, Phase.successors])
    fun hwf => Memory.writeList_wf _ _ _ (Memory.writeList_wf _ _ _ hwf)

theorem goesOn_treeStep (h : s.eng.phase = .cTree) : CommandGoesOn s s.treeStep := by
  unfold State.treeStep
  dsimp only
  split_ifs
  · exact ⟨rfl, .inl rfl, id⟩
  · exact goesOn_of_enters rfl ⟨rfl, rfl⟩ (by simp [h, Phase.successors]) id
  · split
    · exact goesOn_of_enters rfl ⟨rfl, rfl⟩ (by simp [h, Phase.successors]) id
    · split
      · exact ⟨rfl, .inl rfl, fun hwf => Memory.write_wf _ _ _ (Memory.write_wf _ _ _ hwf)⟩
      · exact ⟨rfl, .inl rfl, fun hwf => Memory.write_wf _ _ _ hwf⟩

/-- Packing a bit touches the engine and OUT_MEM, and never PHASE. -/
theorem State.packBit_frame (s : State) (bit : Bool) :
    s.packBit bit = { s with eng := (s.packBit bit).eng, outMem := (s.packBit bit).outMem } ∧
      (s.packBit bit).eng.phase = s.eng.phase ∧ (s.outMem.wf = true → (s.packBit bit).outMem.wf = true) := by
  unfold State.packBit
  dsimp only
  split_ifs
  · exact ⟨rfl, rfl, fun hwf => Memory.write_wf _ _ _ hwf⟩
  · exact ⟨rfl, rfl, id⟩

theorem Engine.nextCodeBit_phase (e : Engine) (sym : Byte) : (e.nextCodeBit sym).phase = e.phase := by
  unfold Engine.nextCodeBit
  split_ifs <;> rfl

theorem goesOn_encStep (h : s.eng.phase = .cEnc) : CommandGoesOn s s.encStep := by
  unfold State.encStep
  split_ifs
  · exact ⟨rfl, .inl rfl, id⟩
  · obtain ⟨honly, hphase, hwf⟩ := s.packBit_frame (s.eng.codeBit (s.memRead s.eng.iptr.toNat))
    refine ⟨?_, .inl ((Engine.nextCodeBit_phase _ _).trans hphase), hwf⟩
    dsimp only
    rw [honly]
  · exact goesOn_of_enters rfl ⟨rfl, rfl⟩ (by simp [h, Phase.successors]) id
  · exact goesOn_of_enters rfl ⟨rfl, rfl⟩ (by simp [h, Phase.successors]) fun hwf => Memory.write_wf _ _ _ hwf

theorem goesOn_raise (h : .finish ∈ s.eng.phase.successors) (k : ErrorKind) : CommandGoesOn s (s.raise k) :=
  goesOn_of_enters rfl ⟨rfl, rfl⟩ h id

theorem goesOn_header (h : s.eng.phase = .dHdr) (t b : Word) : CommandGoesOn s (s.header t b) := by
  unfold State.header
  dsimp only
  split_ifs <;> exact goesOn_of_enters rfl ⟨rfl, rfl⟩ (by simp [h, Phase.successors]) id

theorem goesOn_parseEntry (h : s.eng.phase = .dTree) : CommandGoesOn s s.parseEntry := by
  unfold State.parseEntry
  dsimp only
  split_ifs
  · exact goesOn_of_enters rfl ⟨rfl, rfl⟩ (by simp [h, Phase.successors]) id
  · exact ⟨rfl, .inl rfl, id⟩

theorem goesOn_parseEnd (h : s.eng.phase = .dTree) : CommandGoesOn s s.parseEnd := by
  unfold State.parseEnd
  dsimp only
  split_ifs <;> exact goesOn_of_enters rfl ⟨rfl, rfl⟩ (by simp [h, Phase.successors]) id

theorem goesOn_leafPastEnd (h : s.eng.phase = .dTree) : CommandGoesOn s s.leafPastEnd := by
  obtain ⟨-, ht⟩ | ⟨-, ht⟩ := s.leafPastEnd_cases <;> rw [ht] <;>
    exact goesOn_of_enters rfl ⟨rfl, rfl⟩ (by simp [h, Phase.successors]) id

@[simp] theorem Engine.attach_phase (e : Engine) (i : NodeIdx) : (e.attach i).phase = e.phase := by
  unfold Engine.attach
  split
  · rfl
  · split <;> rfl

@[simp] theorem Engine.alloc_phase (e : Engine) (n : Node) : (e.alloc n).phase = e.phase := rfl

theorem goesOn_tokenInternal (h : s.eng.phase = .dTree) : CommandGoesOn s s.tokenInternal := by
  unfold State.tokenInternal
  split_ifs
  · exact goesOn_raise (by simp [h, Phase.successors]) _
  · exact ⟨rfl, .inl (by simp), id⟩

theorem goesOn_tokenLeaf (h : s.eng.phase = .dTree) (sym : Byte) : CommandGoesOn s (s.tokenLeaf sym) := by
  have hfinish : .finish ∈ s.eng.phase.successors := by simp [h, Phase.successors]
  obtain ⟨-, ht⟩ | ⟨-, -, ht⟩ | ⟨-, -, -, ht⟩ | ⟨-, -, -, ht⟩ := s.tokenLeaf_cases sym <;> rw [ht]
  · exact goesOn_raise hfinish _
  · exact goesOn_of_enters rfl ⟨rfl, rfl⟩ hfinish id
  · exact goesOn_of_enters rfl ⟨rfl, rfl⟩ hfinish id
  · exact ⟨rfl, .inl (by simp), id⟩

theorem goesOn_decEntry (h : s.eng.phase = .dDec) : CommandGoesOn s s.decEntry := by
  unfold State.decEntry
  dsimp only
  split_ifs
  · exact ⟨rfl, .inl rfl, id⟩
  · exact goesOn_of_enters rfl ⟨rfl, rfl⟩ (by simp [h, Phase.successors]) id
  · exact goesOn_of_enters rfl ⟨rfl, rfl⟩ (by simp [h, Phase.successors]) id

theorem goesOn_emit (h : .finish ∈ s.eng.phase.successors) (sym : Byte) : CommandGoesOn s (s.emit sym) := by
  obtain ⟨-, hemit⟩ | ⟨-, hemit⟩ := s.emit_cases sym <;> rw [hemit]
  · exact goesOn_raise h _
  · exact ⟨rfl, .inl rfl, fun hwf => Memory.write_wf _ _ _ hwf⟩

theorem goesOn_decodeStep (h : .finish ∈ s.eng.phase.successors) (bit : Bool) :
    CommandGoesOn s (s.decodeStep bit) := by
  obtain ⟨-, hdec⟩ | ⟨sym, f, -, ⟨-, hdec⟩ | ⟨-, hdec⟩⟩ := s.decodeStep_cases bit _ rfl <;> rw [hdec]
  · exact ⟨rfl, .inl rfl, id⟩
  · exact goesOn_of_enters rfl ⟨rfl, rfl⟩ h id
  · exact ⟨rfl, .inl rfl, fun hwf => Memory.write_wf _ _ _ hwf⟩

theorem goesOn_decodeOneLeaf (h : .finish ∈ s.eng.phase.successors) (bit : Bool) :
    CommandGoesOn s (s.decodeOneLeaf bit) := by
  unfold State.decodeOneLeaf
  split_ifs
  · exact goesOn_raise h _
  · exact goesOn_emit h _

/-- Counting a payload bit as read moves only RPOS. -/
theorem goesOn_of_bitRead {t : State}
    (hread : CommandGoesOn { s with eng := { s.eng with rpos := s.eng.rpos + 1 } } t) : CommandGoesOn s t :=
  ⟨hread.only, hread.phase, hread.wf⟩

theorem goesOn_payloadBit (h : s.eng.phase = .dDec) (bit : Bool) : CommandGoesOn s (s.payloadBit bit) := by
  unfold State.payloadBit
  dsimp only
  split_ifs
  · exact goesOn_of_bitRead (goesOn_decodeOneLeaf (by simp [h, Phase.successors]) bit)
  · exact goesOn_of_bitRead (goesOn_decodeStep (by simp [h, Phase.successors]) bit)

theorem goesOn_decEnd (h : s.eng.phase = .dDec) : CommandGoesOn s s.decEnd := by
  unfold State.decEnd
  split_ifs <;> exact goesOn_of_enters rfl ⟨rfl, rfl⟩ (by simp [h, Phase.successors]) id

/-- Before FINISH the engine's step moves the engine and OUT_MEM alone, and the command goes on. -/
theorem EngineRule.goesOn {t : State} (hrule : EngineRule s t) (hfinish : s.eng.phase ≠ .finish) :
    CommandGoesOn s t := by
  cases hrule with
  | check h => exact goesOn_checkStep h
  | count h => exact goesOn_countStep h
  | leaf h => exact goesOn_leafStep h
  | merge h => exact goesOn_mergeStep h
  | code h => exact goesOn_codeStep h
  | size h => exact goesOn_sizeStep h
  | hdr h => exact goesOn_hdrStep h
  | tree h => exact goesOn_treeStep h
  | enc h => exact goesOn_encStep h
  | raise h k => exact goesOn_raise h k
  | header h t b => exact goesOn_header h t b
  | parseEntry h => exact goesOn_parseEntry h
  | parseEnd h => exact goesOn_parseEnd h
  | leafPastEnd h => exact goesOn_leafPastEnd h
  | tokenInternal h => exact goesOn_tokenInternal h
  | tokenLeaf h _ sym => exact goesOn_tokenLeaf h sym
  | decEntry h => exact goesOn_decEntry h
  | payloadBit h bit => exact goesOn_payloadBit h bit
  | decEnd h => exact goesOn_decEnd h
  | finish h => exact absurd h hfinish

theorem EngineRule.eq_finish {t : State} (hrule : EngineRule s t) (hfinish : s.eng.phase = .finish) :
    t = s.finish := by
  cases hrule with
  | finish => rfl
  | raise h => simp [hfinish, Phase.successors] at h
  | _ h => exact nomatch hfinish.symm.trans h

theorem CommandGoesOn.running {t : State} (hgoes : CommandGoesOn s t) (hidle : s.eng.phase ≠ .idle)
    (hfinish : s.eng.phase ≠ .finish) : t.eng.phase ≠ .idle := by
  obtain hsame | ⟨-, hsucc⟩ := hgoes.phase
  · rwa [hsame]
  · intro hto
    rw [hto] at hsucc
    cases hphase : s.eng.phase <;> simp_all [Phase.successors]

theorem EngineRule.inMem {t : State} (hrule : EngineRule s t) : t.inMem = s.inMem := by
  by_cases hfinish : s.eng.phase = .finish
  · rw [hrule.eq_finish hfinish, State.finish_inMem]
  · rw [(hrule.goesOn hfinish).only]

end

/-! ### What a host rule leaves alone -/

section
variable {e : HostEvent} {s t : State}

theorem State.writeIdle_param {r : Regs} (h : ConfigWrite s.regs r) :
    (s.writeIdle r).regs.inMax = s.regs.inMax ∧ (s.writeIdle r).regs.outMax = s.regs.outMax := by
  rw [State.writeIdle_regs]
  split
  · exact ⟨rfl, rfl⟩
  · exact h.params

theorem HostRule.params (hrule : HostRule e s t) :
    t.regs.inMax = s.regs.inMax ∧ t.regs.outMax = s.regs.outMax := by
  cases hrule with
  | same | answer | outRead | inWrite | irqEn => exact ⟨rfl, rfl⟩
  | write r h => exact State.writeIdle_param h
  | start op => unfold State.start; split <;> exact ⟨rfl, rfl⟩
  | softReset => rw [State.softReset_regs]; exact ⟨rfl, rfl⟩
  | hardReset => exact ⟨rfl, rfl⟩

theorem HostRule.outMem (hrule : HostRule e s t) (hreset : ¬ ResetEvent e) : t.outMem = s.outMem := by
  cases hrule with
  | same | answer | outRead | inWrite | irqEn => rfl
  | write r => exact State.writeIdle_outMem s r
  | start op => exact State.start_outMem s op
  | softReset h | hardReset h => exact absurd h hreset

theorem HostRule.results (hrule : HostRule e s t) (hreset : ¬ ResetEvent e) :
    t.regs.outLen = s.regs.outLen ∧ t.regs.treeLen = s.regs.treeLen ∧ t.regs.bitCount = s.regs.bitCount ∧
      t.regs.nsym = s.regs.nsym := by
  cases hrule with
  | same | answer | outRead | inWrite | irqEn => exact ⟨rfl, rfl, rfl, rfl⟩
  | write r h =>
    rw [State.writeIdle_regs]
    split
    · exact ⟨rfl, rfl, rfl, rfl⟩
    · exact h.results
  | start op => unfold State.start; split <;> exact ⟨rfl, rfl, rfl, rfl⟩
  | softReset h | hardReset h => exact absurd h hreset

/-- A host rule leaves the engine, takes it to CHECK, or resets it. -/
theorem HostRule.eng (hrule : HostRule e s t) :
    t.eng = s.eng ∨ t.eng.phase = .check ∨ t.eng = Engine.atReset := by
  cases hrule with
  | same | answer | outRead | inWrite | irqEn => exact .inl rfl
  | write r => exact .inl (State.writeIdle_eng s r)
  | start op =>
    unfold State.start
    split
    · exact .inl rfl
    · exact .inr (.inl rfl)
  | softReset => exact .inr (.inr (State.softReset_eng s))
  | hardReset => exact .inr (.inr rfl)

end

/-! ### Parameters, buffers and results -/

/-- Settles O49: the engine moves no register but at FINISH, which keeps the parameters, and so do all host rules. -/
theorem parametersConstant : Obligations.ParametersConstant := by
  intro s t hstep
  suffices h : t.regs.inMax = s.regs.inMax ∧ t.regs.outMax = s.regs.outMax from ⟨h.1, h.2, rfl⟩
  obtain ⟨-, rfl⟩ | ⟨-, hrule⟩ | ⟨-, e, rest, u, -, hu, hrule⟩ := step_agent_cases hstep
  · exact ⟨rfl, rfl⟩
  · by_cases hfinish : s.spendTurn.eng.phase = .finish
    · rw [hrule.eq_finish hfinish, State.finish_regs]
      unfold State.publish
      cases s.spendTurn.eng.pending <;> simp [Regs.finishFlags, Regs.setResults]
    · rw [(hrule.goesOn hfinish).only]
      simp
  · rw [hrule.params.1, hrule.params.2, hu]
    exact ⟨rfl, rfl⟩

/-- Settles O50: no engine rule moves IN_MEM, and no host rule but a reset moves OUT_MEM. -/
theorem buffersHaveOneWriter : Obligations.BuffersHaveOneWriter := by
  intro s t hstep
  refine ⟨fun hmoves a => ?_, fun hmoves hreset a => ?_⟩
  · rw [(engineRule_of_step hmoves hstep).inMem, State.spendTurn_inMem]
  · obtain ⟨e, rest, u, hqueue, hu, hrule⟩ := hostRule_of_step hmoves hstep
    rw [hrule.outMem (hreset e rest hqueue), hu]

/-- Settles O51: the engine moves no register before FINISH, and no host rule but a reset moves a result. -/
theorem resultsHoldUntilFinish : Obligations.ResultsHoldUntilFinish := by
  intro s t hstep hfinish hreset
  obtain ⟨-, rfl⟩ | ⟨hmoves, hrule⟩ | ⟨hmoves, e, rest, u, hqueue, hu, hrule⟩ := step_agent_cases hstep
  · exact ⟨rfl, rfl, rfl, rfl⟩
  · rw [(hrule.goesOn (by simpa using hfinish hmoves)).only]
    simp
  · have hresults := hrule.results (hreset hmoves e rest hqueue)
    rw [hu] at hresults
    exact hresults

end Sys2Proof.Machine
end

section
/-! Tree tokens (43_decoder.md section 2), and the invariants every step keeps (R25, R34, R166, R232, R233, R270, R306). -/

namespace Sys2Proof.Machine

/-! ### Hanging a node under the innermost open one (R232) -/

section
variable {e : Engine} {i p : NodeIdx} {rest : List NodeIdx}

theorem Engine.attach_of_nil (h : e.parseStack = []) (i : NodeIdx) : e.attach i = e := by
  simp [Engine.attach, h]

theorem Engine.attach_of_left (h : e.parseStack = p :: rest) (hi : i.val = p.val + 1) :
    e.attach i = e.setNode p ((e.nodeAt p).setChild false i) := by
  simp [Engine.attach, h, hi]

theorem Engine.attach_of_right (h : e.parseStack = p :: rest) (hi : i.val ≠ p.val + 1) :
    e.attach i = { e.setNode p ((e.nodeAt p).setChild true i) with parseStack := rest } := by
  simp [Engine.attach, h, hi]

/-- Hanging a node moves the arena and the stack of open nodes alone. -/
theorem Engine.attach_frame (e : Engine) (i : NodeIdx) :
    e.attach i = { e with node := (e.attach i).node, parseStack := (e.attach i).parseStack } := by
  unfold Engine.attach
  split
  · rfl
  · split <;> rfl

theorem Engine.attach_nodeAt_other {j : NodeIdx} (hj : ∀ q rest, e.parseStack = q :: rest → j ≠ q) (i : NodeIdx) :
    (e.attach i).nodeAt j = e.nodeAt j := by
  cases hstack : e.parseStack with
  | nil => rw [Engine.attach_of_nil hstack]
  | cons q rest =>
    by_cases hi : i.val = q.val + 1
    · rw [Engine.attach_of_left hstack hi, Engine.nodeAt_setNode_other _ _ (hj q rest hstack)]
    · rw [Engine.attach_of_right hstack hi]
      exact Engine.nodeAt_setNode_other _ _ (hj q rest hstack)

end

theorem Node.setChild_isLeaf (n : Node) (bit : Bool) (i : NodeIdx) : (n.setChild bit i).isLeaf = n.isLeaf := by
  cases n with
  | leaf => rfl
  | internal => cases bit <;> rfl

theorem Node.setChild_child {n : Node} (h : n.isLeaf = false) (bit : Bool) (i : NodeIdx) :
    (n.setChild bit i).child bit = i ∧ (n.setChild bit i).child (!bit) = n.child (!bit) := by
  cases n with
  | leaf => cases h
  | internal => cases bit <;> exact ⟨rfl, rfl⟩

/-- A new entry put where the pre-order wants it hangs there, the open nodes being entries before it. -/
theorem hangsInPreOrder_attach {s t : State} {i : NodeIdx} {n : Node} (hopen : OpenNodeBefore s i)
    (hnode : t.eng.node = ((s.eng.attach i).setNode i n).node) :
    HangsInPreOrder s t i (s.eng.attach i).parseStack := by
  have hother {j : NodeIdx} (hj : j ≠ i) : t.eng.nodeAt j = (s.eng.attach i).nodeAt j := by
    rw [← (s.eng.attach i).nodeAt_setNode_other n hj, Engine.nodeAt, hnode, Engine.nodeAt]
  unfold HangsInPreOrder
  split
  next hstack =>
    rw [Engine.attach_of_nil hstack] at hother ⊢
    exact ⟨hstack, fun _ hj => hother hj⟩
  next p rest hstack =>
    obtain ⟨hbefore, hinternal⟩ := hopen p rest hstack
    have hpi : p ≠ i := Fin.ne_of_lt hbefore
    have hp := hother hpi
    refine ⟨fun j hj hjp => ?_, ?_⟩
    · rw [hother hj, Engine.attach_nodeAt_other fun q _ hq => ?_]
      rw [hstack] at hq
      exact (List.cons.inj hq).1 ▸ hjp
    · by_cases hi : i.val = p.val + 1
      · rw [Engine.attach_of_left hstack hi] at hp ⊢
        rw [Engine.nodeAt_setNode_same] at hp
        obtain ⟨hchild, hkept⟩ := Node.setChild_child hinternal false i
        rw [if_pos hi, hp, Node.setChild_isLeaf]
        exact ⟨hinternal, hstack, hchild, hkept⟩
      · rw [Engine.attach_of_right hstack hi] at hp ⊢
        have hp := hp.trans (s.eng.nodeAt_setNode_same p _)
        obtain ⟨hchild, hkept⟩ := Node.setChild_child hinternal true i
        rw [if_neg hi, hp, Node.setChild_isLeaf]
        exact ⟨hinternal, rfl, hchild, hkept⟩

/-! ### The tokens that place a node -/

/-- The engine after a token that places n: the entry is hung and written, and the marker is passed. -/
def Engine.place (e : Engine) (n : Node) : Engine :=
  { (e.attach e.nextIdx).alloc n with tpos := e.tpos + 1 }

theorem Engine.place_eq {e : Engine} {i : NodeIdx} (hi : i.val = e.ncount.toNat) (n : Node) :
    e.place n = { e with
      node := ((e.attach i).setNode i n).node
      parseStack := (e.attach i).parseStack
      ncount := e.ncount + 1
      tpos := e.tpos + 1 } := by
  have hnext : (e.attach i).nextIdx = i := by
    rw [Engine.attach_frame]
    exact Engine.nextIdx_eq hi
  rw [Engine.place, Engine.nextIdx_eq hi, Engine.alloc, hnext, Engine.setNode, Engine.attach_frame]

theorem State.tokenInternal_of_room {s : State} (hroom : s.eng.ncount ≠ 511) :
    s.tokenInternal = { s with eng := { s.eng.place (.internal 0 0 0) with
      parseStack := s.eng.nextIdx :: (s.eng.place (.internal 0 0 0)).parseStack } } :=
  if_neg hroom

theorem State.tokenLeaf_of_new {s : State} {sym : Byte} (hroom : s.eng.ncount ≠ 511)
    (hsym : s.eng.tpos.toNat + 1 < s.eng.tReg.toNat) (hnew : sym ∉ s.eng.seen) :
    s.tokenLeaf sym = { s with eng := { s.eng.place (.leaf sym 0) with
      tpos := s.eng.tpos + 1 + 1, seen := sym :: s.eng.seen } } := by
  obtain ⟨h, -⟩ | ⟨-, h, -⟩ | ⟨-, -, h, -⟩ | ⟨-, -, -, h⟩ := s.tokenLeaf_cases sym
  · exact absurd h hroom
  · omega
  · exact absurd h hnew
  · rw [h, Engine.place, Engine.attach_frame]
    rfl

/-- Settles O25: the token's one effect is `Engine.place` and the push of the new index. -/
theorem internalTokenOpensNode : Obligations.InternalTokenOpensNode := by
  intro s i hi hopen
  have hroom : s.eng.ncount ≠ 511 := ncount_ne_of_room (hi ▸ i.isLt)
  have htoken := State.tokenInternal_of_room hroom
  rw [Engine.nextIdx_eq hi, Engine.place_eq hi] at htoken
  refine ⟨_, (s.eng.attach i).parseStack, (exec_treeInternal s).trans (congrArg _ htoken), ?_,
    hangsInPreOrder_attach hopen rfl, rfl, rfl, rfl, memKept_of_eq rfl rfl rfl, rfl⟩
  exact congrArg Node.isLeaf ((s.eng.attach i).nodeAt_setNode_same i (.internal 0 0 0))

/-- Settles O26: the token's one effect is `Engine.place`, the symbol passed and added to SEEN. -/
theorem leafTokenPlacesSymbol : Obligations.LeafTokenPlacesSymbol := by
  intro s sym i hi hopen hsym hnew
  have hroom : s.eng.ncount ≠ 511 := ncount_ne_of_room (hi ▸ i.isLt)
  have htoken := State.tokenLeaf_of_new hroom hsym hnew
  rw [Engine.place_eq hi] at htoken
  have htpos : s.eng.tpos + 1 + 1 = s.eng.tpos + 2 := by rw [BitVec.add_assoc]; rfl
  rw [htpos] at htoken
  exact ⟨_, (s.eng.attach i).parseStack, 0, (exec_treeLeaf sym s).trans (congrArg _ htoken),
    (s.eng.attach i).nodeAt_setNode_same i (.leaf sym 0), hangsInPreOrder_attach hopen rfl, rfl,
    fun _ => List.mem_cons, rfl, rfl, rfl, memKept_of_eq rfl rfl rfl, rfl⟩

/-! ### The flags (R25, R34, R270, R306) -/

section
variable {s t : State}

theorem flagsOk_of_eq (hregs : t.regs = s.regs) (heng : t.eng = s.eng) (hok : s.FlagsOk) : t.FlagsOk := by
  obtain ⟨hbusy, hboth, herr, hcode, hquiet⟩ := hok
  exact ⟨by rwa [hregs, heng], by rwa [hregs], by rwa [hregs], by rwa [hregs], by rwa [hregs]⟩

theorem errorCode_range (k : ErrorKind) : k.code ≠ 0 ∧ k.code ≠ 15 := by
  cases k <;> decide

theorem flagsOk_of_finished {r : Regs} {p : Option ErrorKind} (hregs : t.regs = r.finishFlags p)
    (hphase : t.eng.phase = .idle) : t.FlagsOk := by
  cases p with
  | none => constructor <;> simp [hregs, hphase, Regs.finishFlags]
  | some k =>
    obtain ⟨hzero, hfifteen⟩ := errorCode_range k
    constructor
    · simp [hregs, hphase]
    · simp [hregs]
    · simpa [hregs, Regs.finishFlags] using hzero
    · simpa [hregs, Regs.finishFlags] using hfifteen
    · simp [hregs]

theorem flagsOk_of_reset {inMax outMax : Word} (hregs : t.regs = Regs.atReset inMax outMax)
    (heng : t.eng = Engine.atReset) : t.FlagsOk := by
  constructor <;> simp [hregs, heng, Regs.atReset, Engine.atReset]

theorem flagsOk_writeIdle {r : Regs} (h : ConfigWrite s.regs r) (hok : s.FlagsOk) : (s.writeIdle r).FlagsOk := by
  cases hbusy : s.regs.busy with
  | true => rwa [State.writeIdle_of_busy s r hbusy]
  | false =>
    rw [State.writeIdle_of_idle s r hbusy]
    have hidle : r.busy = false := h.busy.trans hbusy
    obtain ⟨herr, hcode⟩ := h.err
    constructor
    · rw [h.busy]; exact hok.busy_iff
    · simp [hidle]
    · rw [herr, hcode]; exact hok.err_iff
    · rw [hcode]; exact hok.not_15
    · simp [hidle]

theorem flagsOk_start (op : BitVec 2) (hok : s.FlagsOk) : (s.start op).FlagsOk := by
  cases hbusy : s.regs.busy with
  | true => rwa [State.start_of_busy s op hbusy]
  | false =>
    rw [State.start_of_idle s op hbusy]
    constructor <;> simp

theorem HostRule.flagsOk {e : HostEvent} (hrule : HostRule e s t) (hok : s.FlagsOk) : t.FlagsOk := by
  cases hrule with
  | same | answer | outRead | inWrite => exact flagsOk_of_eq (s := s) rfl rfl hok
  | write r h => exact flagsOk_writeIdle h hok
  | irqEn => exact ⟨hok.busy_iff, hok.not_both, hok.err_iff, hok.not_15, hok.quiet⟩
  | start op => exact flagsOk_start op hok
  | softReset => exact flagsOk_of_reset s.softReset_regs s.softReset_eng
  | hardReset => exact flagsOk_of_reset rfl rfl

theorem EngineRule.flagsOk (hrule : EngineRule s t) (hidle : s.eng.phase ≠ .idle) (hok : s.FlagsOk) : t.FlagsOk := by
  by_cases hfinish : s.eng.phase = .finish
  · rw [hrule.eq_finish hfinish]
    exact flagsOk_of_finished s.finish_regs (by simp)
  · have hgoes := hrule.goesOn hfinish
    have hregs : t.regs = s.regs := by rw [hgoes.only]
    have hbusy := hok.busy_iff.mpr hidle
    refine ⟨?_, ?_, ?_, ?_, ?_⟩ <;> rw [hregs]
    · exact ⟨fun _ => hgoes.running hidle hfinish, fun _ => hbusy⟩
    · exact hok.not_both
    · exact hok.err_iff
    · exact hok.not_15
    · exact hok.quiet

end

/-- Settles O45: before FINISH the engine moves no flag and stays out of IDLE; FINISH, an acceptance and a reset set
PHASE and all the flags together. -/
theorem flagsInvariant : Obligations.FlagsInvariant := by
  intro s t hok hstep
  obtain ⟨-, rfl⟩ | ⟨hmoves, hrule⟩ | ⟨-, e, rest, u, -, hu, hrule⟩ := step_agent_cases hstep
  · exact hok
  · exact hrule.flagsOk (by simpa using engineMoves_phase hmoves) (flagsOk_of_eq (by simp) (by simp) hok)
  · exact hrule.flagsOk (flagsOk_of_eq (by rw [hu]) (by rw [hu]) hok)

/-! ### The canonical form of the memories -/

section
variable {s t : State}

theorem HostRule.memOk {e : HostEvent} (hrule : HostRule e s t) (hok : s.MemOk) : t.MemOk := by
  obtain ⟨hin, hout⟩ := hok
  cases hrule with
  | same | answer | outRead | irqEn => exact ⟨hin, hout⟩
  | inWrite a v =>
    refine ⟨?_, hout⟩
    rw [State.hostInWrite_inMem]
    split
    · exact Memory.write_wf _ _ _ hin
    · exact hin
  | write r => exact ⟨by rwa [State.writeIdle_inMem], by rwa [State.writeIdle_outMem]⟩
  | start op => exact ⟨by rwa [State.start_inMem], by rwa [State.start_outMem]⟩
  | softReset =>
    refine ⟨by rwa [State.softReset_inMem], ?_⟩
    rw [State.softReset_outMem]
    split
    · exact Memory.scramble_wf _ _ _ hout
    · exact hout
  | hardReset => exact ⟨Memory.blank_wf _, Memory.blank_wf _⟩

theorem EngineRule.memOk (hrule : EngineRule s t) (hok : s.MemOk) : t.MemOk := by
  obtain ⟨hin, hout⟩ := hok
  refine ⟨by rwa [hrule.inMem], ?_⟩
  by_cases hfinish : s.eng.phase = .finish
  · rw [hrule.eq_finish hfinish, State.finish_outMem]
    split
    · exact Memory.scramble_wf _ _ _ hout
    · exact hout
  · exact (hrule.goesOn hfinish).wf hout

end

/-- Settles O46: every rule writes, scrambles or blanks a memory, each of which keeps its canonical form. -/
theorem memoryInvariant : Obligations.MemoryInvariant := by
  intro s t hok hstep
  obtain ⟨-, rfl⟩ | ⟨-, hrule⟩ | ⟨-, e, rest, u, -, hu, hrule⟩ := step_agent_cases hstep
  · exact hok
  · exact hrule.memOk (by simpa [State.MemOk] using hok)
  · exact hrule.memOk (by rw [hu]; exact hok)

/-! ### The arena's bookkeeping (R166, R232, R233) -/

section
variable {s t : State}

theorem arenaOk_of_eng (heng : t.eng = s.eng) (hok : s.ArenaOk) : t.ArenaOk := by
  obtain ⟨h1, h2, h3, h4⟩ := hok
  constructor <;> rwa [heng]

/-- Outside the loops of C_LEAF, C_MERGE and D_TREE there is nothing to keep. -/
theorem arenaOk_of_outside (hmerge : t.eng.phase ≠ .cMerge)
    (hloop : t.eng.entering = true ∨ (t.eng.phase ≠ .cLeaf ∧ t.eng.phase ≠ .dTree)) : t.ArenaOk := by
  have hleaf (h : t.eng.phase = .cLeaf) (he : t.eng.entering = false) : False := by simp_all
  have htree (h : t.eng.phase = .dTree) (he : t.eng.entering = false) : False := by simp_all
  refine ⟨?_, fun h he => (hleaf h he).elim, fun h => absurd h hmerge, fun h he => (htree h he).elim⟩
  rintro (⟨h, he⟩ | h)
  · exact (hleaf h he).elim
  · exact absurd h hmerge

/-- A command that goes on outside those three phases, and does not come to C_MERGE, has nothing to keep. -/
theorem CommandGoesOn.arenaOk (hgoes : CommandGoesOn s t) (hleaf : s.eng.phase ≠ .cLeaf)
    (hmerge : s.eng.phase ≠ .cMerge) (htree : s.eng.phase ≠ .dTree) : t.ArenaOk := by
  obtain hsame | ⟨henter, hsucc⟩ := hgoes.phase
  · exact arenaOk_of_outside (hsame ▸ hmerge) (.inr ⟨hsame ▸ hleaf, hsame ▸ htree⟩)
  · refine arenaOk_of_outside (fun hto => ?_) (.inl henter)
    rw [hto] at hsucc
    cases hphase : s.eng.phase <;> simp_all [Phase.successors]

/-- A D_TREE step that leaves the loop has nothing to keep. -/
theorem CommandGoesOn.arenaOk_of_leaves (hgoes : CommandGoesOn s t) (htree : s.eng.phase = .dTree)
    (henter : t.eng.entering = true) : t.ArenaOk := by
  refine arenaOk_of_outside (fun hto => ?_) (.inl henter)
  obtain hsame | ⟨-, hsucc⟩ := hgoes.phase
  · rw [hto, htree] at hsame
    cases hsame
  · simp [hto, htree, Phase.successors] at hsucc

/-! #### C_LEAF -/

theorem bitVec_toNat_add_one {w : Nat} {n : BitVec w} (h : n.toNat + 1 < 2 ^ w) : (n + 1).toNat = n.toNat + 1 := by
  have hlt : 1 < 2 ^ w := by omega
  have hone : (1 : BitVec w).toNat = 1 := Nat.mod_eq_of_lt hlt
  rw [BitVec.toNat_add, hone, Nat.mod_eq_of_lt h]

/-- What C_LEAF keeps of the arena: the active nodes are the entries made so far, and so many byte values were seen. -/
structure LeavesOk (e : Engine) : Prop where
  nodup : e.active.Nodup
  below : ∀ x ∈ e.active, x.val < e.ncount.toNat
  length : e.active.length = e.ncount.toNat
  count : e.ncount.toNat ≤ e.leafSym.toNat
  seen : e.leafSym.toNat ≤ 256

theorem State.ArenaOk.leavesOk (hok : s.ArenaOk) (hphase : s.eng.phase = .cLeaf) (henter : s.eng.entering = false) :
    LeavesOk s.eng := by
  obtain ⟨hnodup, hbelow⟩ := hok.active (.inl ⟨hphase, henter⟩)
  obtain ⟨hlength, hcount, hseen⟩ := hok.leaves hphase henter
  exact ⟨hnodup, hbelow, hlength, hcount, hseen⟩

theorem arenaOk_of_leavesOk (hphase : t.eng.phase = .cLeaf) (h : LeavesOk t.eng) : t.ArenaOk :=
  ⟨fun _ => ⟨h.nodup, h.below⟩, fun _ _ => ⟨h.length, h.count, h.seen⟩,
    fun hmerge => absurd hmerge (by simp [hphase]), fun htree => absurd htree (by simp [hphase])⟩

/-- A node index above all active ones can join them. -/
theorem nodup_append_new {l : List NodeIdx} {i : NodeIdx} (hnodup : l.Nodup) (hbelow : ∀ x ∈ l, x.val < i.val) :
    (l ++ [i]).Nodup := by
  rw [← List.concat_eq_append]
  exact hnodup.concat fun hmem => (hbelow i hmem).false

theorem leavesOk_addLeaf {e : Engine} {sym : Byte} (h : LeavesOk e) (hseen : e.leafSym.toNat < 256) :
    LeavesOk { e.addLeaf sym with leafSym := e.leafSym + 1 } := by
  obtain ⟨hnodup, hbelow, hlength, hcount, -⟩ := h
  have hi : (⟨e.ncount.toNat, by omega⟩ : NodeIdx).val = e.ncount.toNat := rfl
  have hncount : (e.ncount + 1).toNat = e.ncount.toNat + 1 := bitVec_toNat_add_one (by omega)
  have hleafSym : (e.leafSym + 1).toNat = e.leafSym.toNat + 1 := bitVec_toNat_add_one (by omega)
  rw [Engine.addLeaf, Engine.alloc, Engine.nextIdx_eq hi]
  refine ⟨nodup_append_new hnodup hbelow, fun x hx => ?_, ?_, ?_, ?_⟩
  · rw [hncount]
    rcases List.mem_append.mp hx with hx | hx
    · exact Nat.lt_succ_of_lt (hbelow x hx)
    · rw [List.mem_singleton.mp hx]
      exact Nat.lt_succ_self _
  · rw [List.length_append, hncount, hlength, List.length_singleton]
  · rw [hncount, hleafSym]
    exact Nat.succ_le_succ hcount
  · rw [hleafSym]
    exact hseen

theorem leavesOk_skip {e : Engine} (h : LeavesOk e) (hseen : e.leafSym.toNat < 256) :
    LeavesOk { e with leafSym := e.leafSym + 1 } := by
  have hleafSym : (e.leafSym + 1).toNat = e.leafSym.toNat + 1 := bitVec_toNat_add_one (by omega)
  refine ⟨h.nodup, h.below, h.length, ?_, ?_⟩ <;> rw [hleafSym]
  · exact h.count.trans (Nat.le_succ _)
  · exact hseen

theorem arenaOk_leafStep (hphase : s.eng.phase = .cLeaf) (hok : s.ArenaOk) : s.leafStep.ArenaOk := by
  unfold State.leafStep
  split_ifs with henter hseen
  · exact arenaOk_of_leavesOk hphase ⟨List.nodup_nil, nofun, rfl, Nat.le_refl _, Nat.zero_le _⟩
  · have hleaves := hok.leavesOk hphase (Bool.eq_false_iff.mpr henter)
    dsimp only
    split_ifs
    · exact arenaOk_of_leavesOk hphase (leavesOk_skip hleaves hseen)
    · exact arenaOk_of_leavesOk hphase (leavesOk_addLeaf hleaves hseen)
  · obtain ⟨hnodup, hbelow, hlength, hcount, hbound⟩ := hok.leavesOk hphase (Bool.eq_false_iff.mpr henter)
    refine ⟨fun _ => ⟨hnodup, hbelow⟩, nofun, fun _ => ?_, nofun⟩
    simp only [State.goto_eng]
    omega

/-! #### C_MERGE -/

/-- What C_MERGE keeps of the arena: distinct active entries, and an index for each merge to come. -/
structure MergesOk (e : Engine) : Prop where
  nodup : e.active.Nodup
  below : ∀ x ∈ e.active, x.val < e.ncount.toNat
  room : e.ncount.toNat + e.active.length ≤ 512

theorem arenaOk_of_mergesOk (hphase : t.eng.phase = .cMerge) (h : MergesOk t.eng) : t.ArenaOk :=
  ⟨fun _ => ⟨h.nodup, h.below⟩, fun hleaf => absurd hleaf (by simp [hphase]), fun _ => h.room,
    fun htree => absurd htree (by simp [hphase])⟩

theorem mergesOk_merge {e : Engine} {a b : NodeIdx} (h : MergesOk e) (ha : a ∈ e.active) (hb : b ∈ e.active.erase a) :
    MergesOk (e.merge a b ((e.active.erase a).erase b)) := by
  obtain ⟨hnodup, hbelow, hroom⟩ := h
  have hlengtha := List.length_erase_of_mem ha
  have hlengthb := List.length_erase_of_mem hb
  have hposb := List.length_pos_of_mem hb
  have hi : (⟨e.ncount.toNat, by omega⟩ : NodeIdx).val = e.ncount.toNat := rfl
  have hncount : (e.ncount + 1).toNat = e.ncount.toNat + 1 := bitVec_toNat_add_one (by omega)
  have hrest : ∀ x ∈ (e.active.erase a).erase b, x.val < e.ncount.toNat := fun x hx =>
    hbelow x (List.mem_of_mem_erase (List.mem_of_mem_erase hx))
  have hncount' : (e.merge a b ((e.active.erase a).erase b)).ncount = e.ncount + 1 := rfl
  refine ⟨?_, fun x hx => ?_, ?_⟩
  · rw [Engine.merge_active hi]
    exact nodup_append_new ((hnodup.erase a).erase b) hrest
  · rw [hncount', hncount]
    rw [Engine.merge_active hi] at hx
    rcases List.mem_append.mp hx with hx | hx
    · exact Nat.lt_succ_of_lt (hrest x hx)
    · rw [List.mem_singleton.mp hx]
      exact Nat.lt_succ_self _
  · rw [hncount', hncount, Engine.merge_active hi, List.length_append, List.length_singleton]
    omega

theorem arenaOk_mergeStep (hphase : s.eng.phase = .cMerge) (hok : s.ArenaOk) : s.mergeStep.ArenaOk := by
  obtain ⟨hnodup, hbelow⟩ := hok.active (.inr hphase)
  unfold State.mergeStep
  split
  · exact arenaOk_of_outside nofun (.inl rfl)
  next a ha =>
    split
    · exact arenaOk_of_outside nofun (.inl rfl)
    next b hb =>
      have hmerges := mergesOk_merge ⟨hnodup, hbelow, hok.merges hphase⟩ (s.eng.leastKey_mem _ a ha)
        (s.eng.leastKey_mem _ b hb)
      exact arenaOk_of_mergesOk hphase hmerges

/-! #### D_TREE -/

/-- What D_TREE keeps of the arena: at most 511 entries, and the open nodes are internal ones among them. -/
structure OpenOk (e : Engine) : Prop where
  count : e.ncount.toNat ≤ 511
  stack : ∀ p ∈ e.parseStack, p.val < e.ncount.toNat ∧ (e.nodeAt p).isLeaf = false

theorem arenaOk_of_openOk (hphase : t.eng.phase = .dTree) (h : OpenOk t.eng) : t.ArenaOk :=
  ⟨fun hactive => absurd hactive (by simp [hphase]), fun hleaf => absurd hleaf (by simp [hphase]),
    fun hmerge => absurd hmerge (by simp [hphase]), fun _ _ => ⟨h.count, h.stack⟩⟩

/-- The nodes still open after a new one is hung were open before, and are internal as before. -/
theorem HangsInPreOrder.below_internal {i : NodeIdx} {below : List NodeIdx} (h : HangsInPreOrder s t i below)
    (hbefore : ∀ p ∈ s.eng.parseStack, p.val < i.val ∧ (s.eng.nodeAt p).isLeaf = false) :
    ∀ q ∈ below, q.val < i.val ∧ (t.eng.nodeAt q).isLeaf = false := by
  unfold HangsInPreOrder at h
  split at h
  next =>
    obtain ⟨rfl, -⟩ := h
    nofun
  next p rest hstack =>
    obtain ⟨hother, hp, hbelow⟩ := h
    have hsub : ∀ q ∈ below, q ∈ s.eng.parseStack := by
      rw [hstack]
      split at hbelow
      · rw [hbelow.1]; exact fun _ => id
      · rw [hbelow.1]; exact fun _ => List.mem_cons_of_mem p
    intro q hq
    obtain ⟨hlt, hleaf⟩ := hbefore q (hsub q hq)
    refine ⟨hlt, ?_⟩
    by_cases hqp : q = p
    · rwa [hqp]
    · rwa [hother q (Fin.ne_of_lt hlt) hqp]

/-- A token that places a node keeps the open nodes what they are. -/
theorem openOk_place {e : Engine} {n : Node} (h : OpenOk e) (hroom : e.ncount ≠ 511) :
    OpenOk (e.place n) ∧ e.nextIdx.val < (e.place n).ncount.toNat ∧ (e.place n).nodeAt e.nextIdx = n := by
  obtain ⟨hcount, hstack⟩ := h
  have hlt : e.ncount.toNat < 511 := by
    have : e.ncount.toNat ≠ 511 := fun h => hroom (BitVec.eq_of_toNat_eq h)
    omega
  obtain ⟨i, hi⟩ : ∃ i : NodeIdx, i.val = e.ncount.toNat := ⟨⟨_, hlt⟩, rfl⟩
  have hncount : (e.ncount + 1).toNat = e.ncount.toNat + 1 := bitVec_toNat_add_one (by omega)
  have hhangs : HangsInPreOrder { State.reset with eng := e } { State.reset with eng := e.place n } i
      (e.attach i).parseStack := by
    refine hangsInPreOrder_attach (n := n) (fun p rest hp => ?_) ?_
    · rw [hi]
      exact hstack p (hp ▸ List.mem_cons_self)
    · rw [Engine.place_eq hi]
  have hbelow := hhangs.below_internal (fun p hp => by rw [hi]; exact hstack p hp)
  rw [Engine.nextIdx_eq hi]
  rw [Engine.place_eq hi] at hbelow ⊢
  refine ⟨⟨?_, fun q hq => ?_⟩, ?_, (e.attach i).nodeAt_setNode_same i n⟩
  · rw [hncount]
    exact hlt
  · rw [hncount, ← hi]
    exact ⟨Nat.lt_succ_of_lt (hbelow q hq).1, (hbelow q hq).2⟩
  · rw [hncount, ← hi]
    exact Nat.lt_succ_self _

theorem State.ArenaOk.openOk (hok : s.ArenaOk) (hphase : s.eng.phase = .dTree) (henter : s.eng.entering = false) :
    OpenOk s.eng :=
  ⟨(hok.parsing hphase henter).1, (hok.parsing hphase henter).2⟩

theorem Engine.place_phase (e : Engine) (n : Node) : (e.place n).phase = e.phase := by
  simp [Engine.place]

theorem arenaOk_tokenInternal (hphase : s.eng.phase = .dTree) (henter : s.eng.entering = false) (hok : s.ArenaOk) :
    s.tokenInternal.ArenaOk := by
  by_cases hfull : s.eng.ncount = 511
  · rw [State.tokenInternal_of_full hfull]
    exact arenaOk_of_outside nofun (.inl rfl)
  · obtain ⟨⟨hcount, hstack⟩, hnew, hnode⟩ := openOk_place (n := .internal 0 0 0) (hok.openOk hphase henter) hfull
    rw [State.tokenInternal_of_room hfull]
    refine arenaOk_of_openOk ((Engine.place_phase _ (.internal 0 0 0)).trans hphase) ⟨hcount, fun p hp => ?_⟩
    rcases List.mem_cons.mp hp with rfl | hp
    · exact ⟨hnew, congrArg Node.isLeaf hnode⟩
    · exact hstack p hp

theorem arenaOk_tokenLeaf (hphase : s.eng.phase = .dTree) (henter : s.eng.entering = false) (hok : s.ArenaOk)
    (sym : Byte) : (s.tokenLeaf sym).ArenaOk := by
  obtain ⟨-, ht⟩ | ⟨-, -, ht⟩ | ⟨-, -, -, ht⟩ | ⟨hroom, hsym, hnew, -⟩ := s.tokenLeaf_cases sym
  · rw [ht]; exact arenaOk_of_outside nofun (.inl rfl)
  · rw [ht]; exact arenaOk_of_outside nofun (.inl rfl)
  · rw [ht]; exact arenaOk_of_outside nofun (.inl rfl)
  · obtain ⟨⟨hcount, hstack⟩, -, -⟩ := openOk_place (n := .leaf sym 0) (hok.openOk hphase henter) hroom
    rw [State.tokenLeaf_of_new hroom hsym hnew]
    exact arenaOk_of_openOk ((Engine.place_phase _ (.leaf sym 0)).trans hphase) ⟨hcount, hstack⟩

theorem arenaOk_parseEntry (hphase : s.eng.phase = .dTree) : s.parseEntry.ArenaOk := by
  unfold State.parseEntry
  dsimp only
  split
  · exact arenaOk_of_outside nofun (.inl rfl)
  · exact arenaOk_of_openOk hphase ⟨Nat.zero_le _, nofun⟩

/-! #### Every rule -/

theorem EngineRule.arenaOk (hrule : EngineRule s t) (hok : s.ArenaOk) : t.ArenaOk := by
  cases hrule with
  | check h => exact (goesOn_checkStep h).arenaOk (by simp [h]) (by simp [h]) (by simp [h])
  | count h => exact (goesOn_countStep h).arenaOk (by simp [h]) (by simp [h]) (by simp [h])
  | leaf h => exact arenaOk_leafStep h hok
  | merge h => exact arenaOk_mergeStep h hok
  | code h => exact (goesOn_codeStep h).arenaOk (by simp [h]) (by simp [h]) (by simp [h])
  | size h => exact (goesOn_sizeStep h).arenaOk (by simp [h]) (by simp [h]) (by simp [h])
  | hdr h => exact (goesOn_hdrStep h).arenaOk (by simp [h]) (by simp [h]) (by simp [h])
  | tree h => exact (goesOn_treeStep h).arenaOk (by simp [h]) (by simp [h]) (by simp [h])
  | enc h => exact (goesOn_encStep h).arenaOk (by simp [h]) (by simp [h]) (by simp [h])
  | raise => exact arenaOk_of_outside nofun (.inl rfl)
  | header h t b => exact (goesOn_header h t b).arenaOk (by simp [h]) (by simp [h]) (by simp [h])
  | parseEntry h => exact arenaOk_parseEntry h
  | parseEnd h =>
    refine (goesOn_parseEnd h).arenaOk_of_leaves h ?_
    unfold State.parseEnd
    dsimp only
    split <;> rfl
  | leafPastEnd h =>
    refine (goesOn_leafPastEnd h).arenaOk_of_leaves h ?_
    obtain ⟨-, ht⟩ | ⟨-, ht⟩ := s.leafPastEnd_cases <;> rw [ht] <;> rfl
  | tokenInternal h he => exact arenaOk_tokenInternal h he hok
  | tokenLeaf h he sym => exact arenaOk_tokenLeaf h he hok sym
  | decEntry h => exact (goesOn_decEntry h).arenaOk (by simp [h]) (by simp [h]) (by simp [h])
  | payloadBit h bit => exact (goesOn_payloadBit h bit).arenaOk (by simp [h]) (by simp [h]) (by simp [h])
  | decEnd h => exact (goesOn_decEnd h).arenaOk (by simp [h]) (by simp [h]) (by simp [h])
  | finish h =>
    refine arenaOk_of_outside ?_ (.inl ?_) <;> rw [State.finish_eng]
    exact nofun

theorem HostRule.arenaOk {e : HostEvent} (hrule : HostRule e s t) (hok : s.ArenaOk) : t.ArenaOk := by
  obtain heng | hcheck | hreset := hrule.eng
  · exact arenaOk_of_eng heng hok
  · exact arenaOk_of_outside (by simp [hcheck]) (.inr (by simp [hcheck]))
  · exact arenaOk_of_outside (by rw [hreset]; exact nofun) (.inl (by rw [hreset]; rfl))

end

/-- Settles O47: C_LEAF, C_MERGE and D_TREE each keep their part, and every other phase enters them or has nothing to
keep. -/
theorem arenaInvariant : Obligations.ArenaInvariant := by
  intro s t hok hstep
  obtain ⟨-, rfl⟩ | ⟨-, hrule⟩ | ⟨-, e, rest, u, -, hu, hrule⟩ := step_agent_cases hstep
  · exact hok
  · exact hrule.arenaOk (arenaOk_of_eng s.spendTurn_eng hok)
  · exact hrule.arenaOk (arenaOk_of_eng (by rw [hu]) hok)

end Sys2Proof.Machine
end

section
/-! Proofs of the statements about single steps: accesses, resets, and the phases of the engine (20_memory.md, 40_commands.md,
41_tree_builder.md, 42_encoder.md, 43_decoder.md). -/

namespace Sys2Proof.Machine

/-! ### A step runs what is decoded -/

theorem contended_of_queue {s : State} {e : HostEvent} {rest : List HostEvent} (hqueue : s.host.queue = e :: rest) :
    s.contended = decide (s.eng.phase ≠ .idle) := by
  simp [State.contended, hqueue]

/-- Settles O7: spending the turn and taking the event from the queue are what the statement writes out. -/
theorem hostAccessRunsInstruction : Obligations.HostAccessRunsInstruction := by
  intro s a rest i hqueue hmoves hdecode
  rw [step_of_access_ok hmoves hqueue hdecode, State.spendTurn_eq, contended_of_queue hqueue]
  by_cases hidle : s.eng.phase = .idle <;> simp [State.popEvent, hqueue, hidle]

/-- A step of the engine is the run of what it fetches. -/
theorem step_of_engineMoves {s : State} (hmoves : EngineMoves s) : step s = s.spendTurn.engineStep.run := by
  rw [step_eq_run, fetch, show s.nextAgent = some .engine from hmoves]

theorem engineStep_dHdr_of_long {s : State} (hphase : s.eng.phase = .dHdr) (hlong : 8 ≤ s.regs.inLen.toNat) :
    s.engineStep = .instr s.headerCode s := by
  simp [State.engineStep, hphase, hlong.not_gt]

/-- The parse is not over while no node exists or a node is open. -/
theorem Engine.parsed_eq_false {e : Engine} (h : e.ncount = 0 ∨ e.parseStack ≠ []) : e.parsed = false := by
  rcases h with h | h <;> simp [Engine.parsed, h]

theorem Engine.parsed_eq_true {e : Engine} (hcount : e.ncount ≠ 0) (hstack : e.parseStack = []) : e.parsed = true := by
  have hcount' : ¬ e.ncount = 0#10 := hcount
  simp [Engine.parsed, hstack, hcount']

section
variable {s : State}

theorem engineStep_dTree_token (hphase : s.eng.phase = .dTree) (henter : s.eng.entering = false)
    (hparsing : s.eng.ncount = 0 ∨ s.eng.parseStack ≠ []) (htpos : s.eng.tpos.toNat < s.eng.tReg.toNat)
    (hcut : s.leafCut = false) : s.engineStep = .instr s.tokenCode s := by
  simp [State.engineStep, hphase, henter, Engine.parsed_eq_false hparsing, htpos.not_ge, hcut]

theorem State.leafCut_eq_false (h : s.markerByte = 0x01#8 → s.eng.tpos.toNat + 1 < s.eng.tReg.toNat) :
    s.leafCut = false := by
  unfold State.leafCut State.symbolOutside
  by_cases hleaf : s.markerByte = 0x01#8
  · simp [(h hleaf).not_ge]
  · simp [hleaf]

theorem engineStep_dDec_bit (hphase : s.eng.phase = .dDec) (henter : s.eng.entering = false)
    (hrpos : s.eng.rpos.toNat < s.eng.bReg.toNat) : s.engineStep = .instr s.bitCode s := by
  simp [State.engineStep, hphase, henter, hrpos]

end

/-- Settles O8: in each of the three phases what is fetched is the code of the bytes named. -/
theorem engineReadRunsInstruction : Obligations.EngineReadRunsInstruction := by
  intro s u i hmoves hu
  rw [step_of_engineMoves hmoves, State.spendTurn_eq, ← hu]
  have heng : u.eng = s.eng := by rw [hu]
  have hregs : u.regs = s.regs := by rw [hu]
  have hin : u.inMem = s.inMem := by rw [hu]
  rw [← heng, ← hregs, ← hin]
  refine ⟨fun hphase hlong hdecode => ?_, fun hphase henter hparsing htpos hsym hdecode => ?_,
    fun hphase henter hrpos hi => ?_⟩
  · rw [engineStep_dHdr_of_long hphase hlong]
    exact Fetched.run_instr _ hdecode
  · rw [engineStep_dTree_token hphase henter hparsing htpos (State.leafCut_eq_false hsym)]
    exact Fetched.run_instr _ ((decode_tokenCode_eq _).trans hdecode)
  · rw [engineStep_dDec_bit hphase henter hrpos, hi]
    exact Fetched.run_instr _ (decode_payload _)

/-! ### REG accesses that reach no register (R63) -/

theorem regAccessError_bad {w : Width} {off : Word} (h : w ≠ .word ∨ off.toNat % 4 ≠ 0 ∨ 0x40 ≤ off.toNat) :
    ∃ d, regAccessError w off = some d := by
  by_contra hnone
  obtain ⟨rfl, hslot⟩ := regAccessError_eq_none (Option.eq_none_iff_forall_ne_some.mpr (not_exists.mp hnone))
  obtain ⟨halign, hrange⟩ : off.toNat % 4 = 0 ∧ off.toNat < 0x40 := by simpa [isWordSlot] using hslot
  rcases h with h | h | h
  · exact h rfl
  · exact h halign
  · omega

theorem State.popEvent_spendTurn_queue {s : State} {e : HostEvent} {rest : List HostEvent}
    (hqueue : s.host.queue = e :: rest) : s.spendTurn.popEvent.host.queue = rest := by
  rw [State.spendTurn_eq]
  simp [hqueue]

/-- Settles O9: the decoder rejects the access, so the step is `State.nullAccess`. -/
theorem badRegisterAccess : Obligations.BadRegisterAccess := by
  intro s w off v rest hbad hmoves
  obtain ⟨d, hd⟩ := regAccessError_bad hbad
  have hread : decode (.access (.regRead w off)) = .error d := by simp [decode, decodeAccess, hd]
  have hwrite : decode (.access (.regWrite w off v)) = .error d := by simp [decode, decodeAccess, hd]
  refine ⟨fun hqueue => ⟨_, step_of_access_error hmoves hqueue hread, rfl, ?_⟩,
    fun hqueue => ⟨_, step_of_access_error hmoves hqueue hwrite, ?_, ?_⟩⟩
  · refine ⟨State.popEvent_spendTurn_queue hqueue, ?_, ?_, memKept_of_eq ?_ ?_ ?_⟩ <;> simp [State.nullAccess]
  · rw [State.spendTurn_eq]
    rfl
  · refine ⟨State.popEvent_spendTurn_queue hqueue, ?_, ?_, memKept_of_eq ?_ ?_ ?_⟩ <;> simp [State.nullAccess]

/-! ### Resets (R300, R301) -/

theorem Regs.statusWord_atReset (inMax outMax : Word) : (Regs.atReset inMax outMax).statusWord = 0 := by
  simp [Regs.statusWord, Regs.atReset, bitOf]

theorem Regs.read_atReset_zero (inMax outMax : Word) {off : Nat}
    (h : off ∈ [0x04, 0x08, 0x0C, 0x10, 0x14, 0x18, 0x1C, 0x20, 0x24, 0x30, 0x34, 0x38, 0x3C]) :
    (Regs.atReset inMax outMax).read off = 0 := by
  simp only [List.mem_cons, List.not_mem_nil, or_false] at h
  rcases h with rfl | rfl | rfl | rfl | rfl | rfl | rfl | rfl | rfl | rfl | rfl | rfl | rfl
  case inr.inl => exact Regs.statusWord_atReset inMax outMax
  all_goals rfl

/-- The registers a reset puts at 0 are among those that read 0 after it. -/
theorem reset_offsets_subset {off : Nat} (h : off ∈ [0x04, 0x08, 0x0C, 0x10, 0x14, 0x18, 0x1C, 0x20, 0x24]) :
    off ∈ [0x04, 0x08, 0x0C, 0x10, 0x14, 0x18, 0x1C, 0x20, 0x24, 0x30, 0x34, 0x38, 0x3C] :=
  List.mem_append_left [0x30, 0x34, 0x38, 0x3C] h

/-- What scrambling OUT_MEM leaves: the bytes from the bound on, and below it the free bytes of the draw. -/
theorem scramble_spec (m : Memory) (bound d : Nat) :
    BytesKeptFrom bound m (m.scramble bound d) ∧
      ∀ a, a < bound → (m.scramble bound d).read a = Config.freeByte d a :=
  ⟨fun a ha => Memory.read_scramble_kept m bound d a ha, fun a ha => Memory.read_scramble_free m bound d a ha⟩

/-- Settles O14: SRST is `State.softReset`, whose registers and engine are those of a reset. -/
theorem softResetResets : Obligations.SoftResetResets := by
  intro s ign
  have hregs := s.softReset_regs
  refine ⟨s.softReset, rfl, fun off hoff => ?_, rfl, ?_, ?_, ?_, ?_, s.softReset_host,
    fun a => by rw [State.softReset_inMem], fun hidle => ?_, fun hbusy => ?_⟩
  · rw [State.regRead, hregs]
    exact Regs.read_atReset_zero _ _ (reset_offsets_subset hoff)
  · rw [State.regRead, hregs]; rfl
  · rw [State.regRead, hregs]; rfl
  · rw [hregs]; rfl
  · rw [State.softReset_eng]; rfl
  · rw [State.softReset_outMem, State.softReset_draws, hidle]
    exact ⟨fun _ => rfl, rfl⟩
  · rw [State.softReset_outMem, State.softReset_draws, hbusy]
    obtain ⟨hkept, hfree⟩ := scramble_spec s.outMem s.regs.outCap.toNat s.draws
    exact ⟨hkept, rfl, hfree⟩

/-- Settles O15: the reset event's step is `State.hardReset` once the event is taken from the queue. -/
theorem hardResetResets : Obligations.HardResetResets := by
  intro s rest hqueue hmoves
  have hregs : s.spendTurn.popEvent.hardReset.regs = Regs.atReset s.regs.inMax s.regs.outMax := by simp
  refine ⟨_, step_of_hardReset hmoves hqueue, fun off hoff => ?_, rfl, ?_, ?_, ?_, rfl,
    State.popEvent_spendTurn_queue hqueue, fun a => ?_, fun a => ?_, by simp⟩
  · rw [State.regRead, hregs]
    exact Regs.read_atReset_zero _ _ (reset_offsets_subset hoff)
  · rw [State.regRead, hregs]; rfl
  · rw [State.regRead, hregs]; rfl
  · rw [hregs]; rfl
  · simp only [State.hardReset_inMem, State.popEvent_draws, State.spendTurn_draws]
    rfl
  · simp only [State.hardReset_outMem, State.popEvent_draws, State.spendTurn_draws]
    rfl

/-- Settles O48: the registers and the flags at reset are evaluated, the memories have nothing listed, and IDLE keeps no
arena. -/
theorem resetState : Obligations.ResetState :=
  ⟨fun _ hoff => Regs.read_atReset_zero _ _ hoff, rfl, rfl, rfl, flagsOk_of_reset rfl rfl, ⟨rfl, rfl⟩,
    arenaOk_of_outside nofun (.inl rfl), by decide, by decide, by decide⟩

/-! ### Buffer accesses (R64, R65) -/

/-- Settles O21: the guard of `State.hostInWrite` is the rule's. -/
theorem hostInWriteStores : Obligations.HostInWriteStores := by
  intro s a v
  refine ⟨s.hostInWrite a v, rfl, ?_, fun _ => rfl, rfl, rfl, rfl, rfl⟩
  by_cases h : a < s.regs.inMax.toNat ∧ s.regs.busy = false
  · rw [if_pos h, State.hostInWrite_inMem, if_pos (by simp [h])]
    exact ⟨Memory.read_write_same _ _ _, fun x hx => Memory.read_write_other _ _ _ _ hx⟩
  · rw [if_neg h, State.hostInWrite_inMem, if_neg (by simpa using h)]
    exact fun _ => rfl

/-- A byte the host reads is zero-extended. -/
theorem setWidth_byte_toNat (b : Byte) : (b.setWidth 32).toNat = b.toNat := by
  rw [BitVec.toNat_setWidth, Nat.mod_eq_of_lt (by have := b.isLt; omega)]

/-- Settles O22: each read answers the byte of its three-way rule. -/
theorem hostReadsAnswer : Obligations.HostReadsAnswer := by
  intro s a
  refine ⟨⟨_, rfl, ?_, rfl, rfl, memKept_of_eq rfl rfl rfl, rfl, rfl⟩,
    ⟨_, rfl, fun hrange => ?_, fun hrange hidle => ?_, fun hrange hbusy => ?_, rfl, rfl, fun _ => rfl, fun _ => rfl,
      rfl, rfl⟩⟩
  · rw [State.answer_host, setWidth_byte_toNat, State.hostInRead]
    split <;> rfl
  · simp [State.hostOutRead, hrange.not_gt]
  · simp only [State.answer_host, setWidth_byte_toNat, State.answer_draws, State.spendOutDraw_draws, State.hostOutRead,
      hrange, hidle]
    exact ⟨rfl, rfl⟩
  · simp only [State.answer_host, setWidth_byte_toNat, State.answer_draws, State.spendOutDraw_draws, State.hostOutRead,
      hrange, hbusy]
    exact ⟨rfl, rfl⟩

/-! ### Headers and reserved markers (R98, R230) -/

theorem State.header_of_fits {s : State} {t b : Word} (htree : t.toNat ≤ s.regs.inLen.toNat - 8)
    (hbits : b.toNat ≤ 8 * (s.regs.inLen.toNat - 8 - t.toNat)) :
    s.header t b = { s with eng := { s.eng with tReg := t, bReg := b } }.goto .dTree :=
  (if_neg htree.not_gt).trans (if_neg hbits.not_gt)

/-- Settles O23: both checks of the header pass. -/
theorem headerAccepted : Obligations.HeaderAccepted := by
  intro s t b _ htree hbits
  exact ⟨_, (exec_header t b s).trans (congrArg _ (State.header_of_fits htree hbits)), ⟨rfl, rfl⟩, rfl,
    ⟨memKept_of_eq rfl rfl rfl, rfl⟩, rfl⟩

/-- Settles O28: every reserved row is the same raise. -/
theorem reservedMarkersRaise : Obligations.ReservedMarkersRaise := by
  intro s i hi
  refine ⟨s.raise .fmtTreeBadMarker, ?_, raised_after_engine s s.eng _, rfl, rfl⟩
  rcases hi with ⟨low, rfl⟩ | ⟨low, rfl⟩ | ⟨low, rfl⟩ | ⟨low, rfl⟩ | ⟨low, rfl⟩ | ⟨low, rfl⟩ | ⟨low, rfl⟩ <;> rfl

/-! ### The output after an error (R287) -/

theorem leavesOutputOpen_iff (op : BitVec 2) (k : ErrorKind) : leavesOutputOpen op (some k) = true ↔
    k = .fmtBadBit ∨ k = .fmtTruncated ∨ (k = .capacity ∧ op = 0b10#2) := by
  cases k
  case capacity =>
    simp only [leavesOutputOpen, reduceCtorEq, false_or, true_and]
    exact ⟨of_decide_eq_true, decide_eq_true⟩
  all_goals simp [leavesOutputOpen]

/-- Settles O36: FINISH scrambles OUT_MEM below OUT_CAP exactly when the error leaves the output open. -/
theorem outputAfterError : Obligations.OutputAfterError := by
  intro s t k hmoves hphase hpending hstep
  obtain rfl := Host.Outcome.next.inj (hstep.symm.trans (step_finish hmoves hphase).1)
  have hout := s.spendTurn.finish_outMem
  have hdraws := s.spendTurn.finish_draws
  simp only [State.spendTurn_eng, State.spendTurn_regs, State.spendTurn_outMem, State.spendTurn_draws, hpending,
    leavesOutputOpen_iff] at hout hdraws
  split_ifs at hout hdraws ⊢
  · obtain ⟨hkept, hfree⟩ := scramble_spec s.outMem s.regs.outCap.toNat s.draws
    rw [hout, hdraws]
    exact ⟨hkept, rfl, hfree⟩
  · exact ⟨fun _ => by rw [hout], hdraws⟩

/-! ### Steps of the engine, whatever waits outside -/

section
variable {s : State}

/-- A plain step that moves the engine alone, written as a function f of what waits outside. -/
theorem quietStep_of_plain {f : HostSide → State} (hmoves : EngineMoves s)
    (hplain : ∀ h, { s with host := h }.engineStep = .plain (f h))
    (honly : ∀ h, f h = { s with host := h, eng := (f h).eng } := by exact fun _ => rfl) :
    QuietStep s (f s.spendTurn.host) := by
  have hturn : s.spendTurn = { s with host := s.spendTurn.host } := by rw [State.spendTurn_eq]
  refine quietStep_of_engineOnly hmoves ?_ ?_ <;> rw [hturn]
  · exact hplain _
  · exact honly _

/-- A plain step that moves the engine and OUT_MEM alone. -/
theorem writingStep_of_plain {f : HostSide → State} (hmoves : EngineMoves s)
    (hplain : ∀ h, { s with host := h }.engineStep = .plain (f h))
    (honly : ∀ h, f h = { s with host := h, eng := (f h).eng, outMem := (f h).outMem } := by exact fun _ => rfl) :
    WritingStep s (f s.spendTurn.host) := by
  have hturn : s.spendTurn = { s with host := s.spendTurn.host } := by rw [State.spendTurn_eq]
  refine writingStep_of_engineAndOut hmoves ?_ ?_ <;> rw [hturn]
  · exact hplain _
  · exact honly _

/-- A plain step that raises k after it has moved the engine alone. -/
theorem exists_raisedStep {f : HostSide → State} {k : ErrorKind} (hmoves : EngineMoves s)
    (hplain : ∀ h, { s with host := h }.engineStep = .plain ((f h).raise k))
    (honly : ∀ h, f h = { s with host := h, eng := (f h).eng } := by exact fun _ => rfl) :
    ∃ t, step s = .next t ∧ Raised k s t ∧ HostAfterEngine s t := by
  obtain ⟨hstep, hhost, hregs, hmem⟩ := quietStep_of_plain hmoves hplain fun h => by
    rw [honly h]
    rfl
  exact ⟨_, hstep, ⟨rfl, rfl, hregs, hmem⟩, hhost⟩

/-! ### C_COUNT (R160) -/

theorem byteIdx_val_inj {a b : Byte} : (byteIdx a).val = (byteIdx b).val ↔ a = b :=
  BitVec.toNat_inj

theorem Engine.freqAt_countSym (e : Engine) (sym b : Byte) :
    (e.countSym sym).freqAt b = if b = sym then e.freqAt b + 1 else e.freqAt b := by
  have hget := Vector.getElem_set (xs := e.freq) (x := e.freqAt sym + 1) (byteIdx sym).isLt (byteIdx b).isLt
  simp only [byteIdx_val_inj] at hget
  rw [show (e.countSym sym).freqAt b = _ from hget]
  by_cases h : b = sym
  · rw [if_pos h, if_pos h.symm, h]
  · rw [if_neg h, if_neg (Ne.symm h)]
    rfl

/-- The engine at the start of C_COUNT's loop. -/
def Engine.startCount (e : Engine) : Engine :=
  { e with entering := false, freq := Vector.replicate 256 0, iptr := 0 }

theorem engineStep_cCount_entry (hphase : s.eng.phase = .cCount) (henter : s.eng.entering = true) :
    s.engineStep = .plain { s with eng := s.eng.startCount } := by
  simp [State.engineStep, hphase, State.countStep, henter, Engine.startCount]

theorem engineStep_cCount_byte (hphase : s.eng.phase = .cCount) (henter : s.eng.entering = false)
    (hiptr : s.eng.iptr.toNat < s.regs.inLen.toNat) :
    s.engineStep = .plain { s with eng := { s.eng.countSym (s.inMem.read s.eng.iptr.toNat) with
      iptr := s.eng.iptr + 1 } } := by
  simp [State.engineStep, hphase, State.countStep, henter, hiptr, State.memRead]

theorem engineStep_cCount_end (hphase : s.eng.phase = .cCount) (henter : s.eng.entering = false)
    (hiptr : s.regs.inLen.toNat ≤ s.eng.iptr.toNat) :
    s.engineStep = .plain { s with eng := { s.eng with phase := .cLeaf, entering := true } } := by
  simp [State.engineStep, hphase, State.countStep, henter, hiptr.not_gt, State.goto]

end

theorem Vector.get_replicate_eq {α : Type} {n : Nat} (x : α) (i : Fin n) : (Vector.replicate n x).get i = x :=
  Vector.getElem_replicate i.isLt

theorem Engine.freqAt_startCount (e : Engine) (b : Byte) : e.startCount.freqAt b = 0 :=
  Vector.get_replicate_eq 0 (byteIdx b)

/-- Settles O37: entry, one byte, end. -/
theorem countPhase : Obligations.CountPhase := by
  refine fun s hmoves hphase => ⟨fun henter => ?_, fun henter hiptr => ?_, fun henter hiptr => ?_⟩
  · exact ⟨_, quietStep_of_plain hmoves fun _ => engineStep_cCount_entry hphase henter, ⟨rfl, rfl⟩,
      s.eng.freqAt_startCount, rfl⟩
  · exact ⟨_, quietStep_of_plain hmoves fun _ => engineStep_cCount_byte hphase henter hiptr, ⟨rfl, henter⟩, rfl,
      fun b => s.eng.freqAt_countSym _ b⟩
  · exact ⟨_, quietStep_of_plain hmoves fun _ => engineStep_cCount_end hphase henter hiptr, ⟨rfl, rfl⟩, rfl⟩

/-! ### C_LEAF (R163) -/

section
variable {s : State}

/-- The engine at the start of C_LEAF's loop. -/
def Engine.startLeaf (e : Engine) : Engine :=
  { e with entering := false, ncount := 0, active := [], leafSym := 0 }

theorem engineStep_cLeaf_entry (hphase : s.eng.phase = .cLeaf) (henter : s.eng.entering = true) :
    s.engineStep = .plain { s with eng := s.eng.startLeaf } := by
  simp [State.engineStep, hphase, State.leafStep, henter, Engine.startLeaf]

theorem setWidth_eq_of_toNat {n : BitVec 9} {b : Byte} (h : n.toNat = b.toNat) : n.setWidth 8 = b := by
  apply BitVec.eq_of_toNat_eq
  rw [BitVec.toNat_setWidth, h, Nat.mod_eq_of_lt b.isLt]

theorem engineStep_cLeaf_absent {b : Byte} (hphase : s.eng.phase = .cLeaf) (henter : s.eng.entering = false)
    (hsym : s.eng.leafSym.toNat = b.toNat) (hfreq : s.eng.freqAt b = 0) :
    s.engineStep = .plain { s with eng := { s.eng with leafSym := s.eng.leafSym + 1 } } := by
  have hlt : s.eng.leafSym.toNat < 256 := hsym ▸ b.isLt
  simp only [State.engineStep, hphase, State.leafStep, henter, hlt, setWidth_eq_of_toNat hsym, hfreq, if_true,
    Bool.false_eq_true, if_false]

theorem engineStep_cLeaf_present {b : Byte} (hphase : s.eng.phase = .cLeaf) (henter : s.eng.entering = false)
    (hsym : s.eng.leafSym.toNat = b.toNat) (hfreq : s.eng.freqAt b ≠ 0) :
    s.engineStep = .plain { s with eng := { s.eng.addLeaf b with leafSym := s.eng.leafSym + 1 } } := by
  have hlt : s.eng.leafSym.toNat < 256 := hsym ▸ b.isLt
  simp only [State.engineStep, hphase, State.leafStep, henter, hlt, setWidth_eq_of_toNat hsym, hfreq, if_true,
    Bool.false_eq_true, if_false]

theorem engineStep_cLeaf_end (hphase : s.eng.phase = .cLeaf) (henter : s.eng.entering = false)
    (hsym : 256 ≤ s.eng.leafSym.toNat) :
    s.engineStep = .plain { s with eng := { s.eng with
      phase := .cMerge, entering := true, kReg := s.eng.ncount.setWidth 9 } } := by
  simp [State.engineStep, hphase, State.leafStep, henter, hsym.not_gt, State.goto]

theorem Engine.addLeaf_eq {e : Engine} {i : NodeIdx} (hi : i.val = e.ncount.toNat) (b : Byte) :
    e.addLeaf b = { e.setNode i (.leaf b (e.freqAt b)) with
      ncount := e.ncount + 1, active := e.active ++ [i] } := by
  rw [Engine.addLeaf, Engine.alloc, Engine.nextIdx_eq hi]

end

/-- Settles O38: entry, one byte value, end. -/
theorem leafPhase : Obligations.LeafPhase := by
  refine fun s hmoves hphase => ⟨fun henter => ?_, fun b i henter hsym hi => ?_, fun henter hsym => ?_⟩
  · exact ⟨_, quietStep_of_plain hmoves fun _ => engineStep_cLeaf_entry hphase henter, ⟨rfl, rfl⟩, rfl, rfl, rfl, rfl⟩
  · have hnext : (s.eng.leafSym + 1).toNat = b.toNat + 1 := by
      have := b.isLt
      rw [bitVec_toNat_add_one (by omega), hsym]
    by_cases hfreq : s.eng.freqAt b = 0
    · refine ⟨_, quietStep_of_plain hmoves fun _ => engineStep_cLeaf_absent hphase henter hsym hfreq, ⟨rfl, henter⟩, rfl,
        hnext, ?_⟩
      rw [if_pos hfreq]
      exact ⟨rfl, rfl, rfl⟩
    · refine ⟨_, quietStep_of_plain hmoves fun _ => engineStep_cLeaf_present hphase henter hsym hfreq, ?_⟩
      rw [if_neg hfreq, Engine.addLeaf_eq hi]
      exact ⟨⟨rfl, henter⟩, rfl, hnext, rfl, fun x => by simp, s.eng.nodeAt_setNode_same i _,
        fun j hj => s.eng.nodeAt_setNode_other _ hj⟩
  · exact ⟨_, quietStep_of_plain hmoves fun _ => engineStep_cLeaf_end hphase henter hsym, ⟨rfl, rfl⟩, rfl, rfl, rfl, rfl⟩

/-! ### C_CODE (R190, R191) -/

theorem Engine.codeAt_setCode (e : Engine) (sym b : Byte) (p : List Bool) :
    (e.setCode sym p).codeAt b = if b = sym then p else e.codeAt b := by
  have hget := Vector.getElem_set (xs := e.code) (x := p) (byteIdx sym).isLt (byteIdx b).isLt
  simp only [byteIdx_val_inj] at hget
  rw [show (e.setCode sym p).codeAt b = _ from hget]
  by_cases h : b = sym
  · rw [if_pos h, if_pos h.symm]
  · rw [if_neg h, if_neg (Ne.symm h)]
    rfl

/-- The engine with the code table cleared (R190). -/
def Engine.clearCode (e : Engine) : Engine :=
  { e with entering := false, code := Vector.replicate 256 [] }

theorem Engine.codeAt_clearCode (e : Engine) (b : Byte) : e.clearCode.codeAt b = [] :=
  Vector.get_replicate_eq [] (byteIdx b)

section
variable {s : State}

theorem engineStep_cCode_noTree (hphase : s.eng.phase = .cCode) (henter : s.eng.entering = true)
    (hvalid : s.eng.rootValid = false) :
    s.engineStep = .plain { s with eng := { s.eng.clearCode with phase := .cSize, entering := true } } := by
  simp [State.engineStep, hphase, State.codeStep, State.codeEntry, henter, hvalid, State.goto, Engine.clearCode]

theorem engineStep_cCode_oneLeaf {sym : Byte} {f : Word} (hphase : s.eng.phase = .cCode)
    (henter : s.eng.entering = true) (hvalid : s.eng.rootValid = true)
    (hroot : s.eng.nodeAt s.eng.root = .leaf sym f) :
    s.engineStep = .plain { s with eng := { s.eng.clearCode.setCode sym [false] with
      phase := .cSize, entering := true } } := by
  simp [State.engineStep, hphase, State.codeStep, State.codeEntry, henter, hvalid, hroot, State.goto, Engine.clearCode,
    Engine.setCode]

theorem engineStep_cCode_entry {f : Word} {l r : NodeIdx} (hphase : s.eng.phase = .cCode)
    (henter : s.eng.entering = true) (hvalid : s.eng.rootValid = true)
    (hroot : s.eng.nodeAt s.eng.root = .internal f l r) :
    s.engineStep = .plain { s with eng := { s.eng.clearCode with codeStack := [(s.eng.root, [])] } } := by
  simp [State.engineStep, hphase, State.codeStep, State.codeEntry, henter, hvalid, hroot, Engine.clearCode]

theorem engineStep_cCode_end (hphase : s.eng.phase = .cCode) (henter : s.eng.entering = false)
    (hstack : s.eng.codeStack = []) :
    s.engineStep = .plain { s with eng := { s.eng with phase := .cSize, entering := true } } := by
  simp [State.engineStep, hphase, State.codeStep, henter, hstack, State.goto]

theorem engineStep_cCode_leaf {n : NodeIdx} {p : List Bool} {rest : List (NodeIdx × List Bool)} {sym : Byte} {f : Word}
    (hphase : s.eng.phase = .cCode) (henter : s.eng.entering = false) (hstack : s.eng.codeStack = (n, p) :: rest)
    (hnode : s.eng.nodeAt n = .leaf sym f) :
    s.engineStep = .plain { s with eng := { s.eng.setCode sym p with codeStack := rest } } := by
  simp [State.engineStep, hphase, State.codeStep, henter, hstack, hnode]

theorem engineStep_cCode_internal {n l r : NodeIdx} {p : List Bool} {rest : List (NodeIdx × List Bool)} {f : Word}
    (hphase : s.eng.phase = .cCode) (henter : s.eng.entering = false) (hstack : s.eng.codeStack = (n, p) :: rest)
    (hnode : s.eng.nodeAt n = .internal f l r) :
    s.engineStep = .plain { s with eng := { s.eng with
      codeStack := (l, p ++ [false]) :: (r, p ++ [true]) :: rest } } := by
  simp [State.engineStep, hphase, State.codeStep, henter, hstack, hnode]

theorem Node.internal_of_isLeaf {n : Node} (h : n.isLeaf = false) : ∃ f l r, n = .internal f l r := by
  cases n with
  | leaf => cases h
  | internal f l r => exact ⟨f, l, r, rfl⟩

end

/-- Settles O40: the three entries, the two nodes, end. -/
theorem codePhase : Obligations.CodePhase := by
  refine fun s hmoves hphase => ⟨fun henter hvalid => ?_, fun sym f henter hvalid hroot => ?_,
    fun henter hvalid hroot => ?_, fun henter hstack => ?_, fun n p rest sym f henter hstack hnode => ?_,
    fun n p rest f l r henter hstack hnode => ?_⟩
  · exact ⟨_, quietStep_of_plain hmoves fun _ => engineStep_cCode_noTree hphase henter hvalid, ⟨rfl, rfl⟩,
      s.eng.codeAt_clearCode⟩
  · refine ⟨_, quietStep_of_plain hmoves fun _ => engineStep_cCode_oneLeaf hphase henter hvalid hroot, ⟨rfl, rfl⟩,
      fun b => ?_⟩
    have hcode := s.eng.clearCode.codeAt_setCode sym b [false]
    rw [s.eng.codeAt_clearCode b] at hcode
    exact hcode
  · obtain ⟨f, l, r, hroot⟩ := Node.internal_of_isLeaf hroot
    exact ⟨_, quietStep_of_plain hmoves fun _ => engineStep_cCode_entry hphase henter hvalid hroot, ⟨rfl, rfl⟩, rfl,
      s.eng.codeAt_clearCode⟩
  · exact ⟨_, quietStep_of_plain hmoves fun _ => engineStep_cCode_end hphase henter hstack, ⟨rfl, rfl⟩, rfl⟩
  · exact ⟨_, quietStep_of_plain hmoves fun _ => engineStep_cCode_leaf hphase henter hstack hnode, ⟨rfl, henter⟩, rfl,
      fun b => s.eng.codeAt_setCode sym b p⟩
  · exact ⟨_, quietStep_of_plain hmoves fun _ => engineStep_cCode_internal hphase henter hstack hnode, ⟨rfl, henter⟩, rfl,
      rfl⟩

/-! ### C_TREE (R196) -/

section
variable {s : State}

theorem engineStep_cTree_noTree (hphase : s.eng.phase = .cTree) (henter : s.eng.entering = true)
    (hvalid : s.eng.rootValid = false) :
    s.engineStep = .plain { s with eng := { s.eng with phase := .cEnc, entering := true, optr := 8 } } := by
  simp [State.engineStep, hphase, State.treeStep, henter, hvalid, State.goto]

theorem engineStep_cTree_entry (hphase : s.eng.phase = .cTree) (henter : s.eng.entering = true)
    (hvalid : s.eng.rootValid = true) :
    s.engineStep = .plain { s with eng := { s.eng with
      entering := false, optr := 8, treeStack := [s.eng.root] } } := by
  simp [State.engineStep, hphase, State.treeStep, henter, hvalid]

theorem engineStep_cTree_end (hphase : s.eng.phase = .cTree) (henter : s.eng.entering = false)
    (hstack : s.eng.treeStack = []) :
    s.engineStep = .plain { s with eng := { s.eng with phase := .cEnc, entering := true } } := by
  simp [State.engineStep, hphase, State.treeStep, henter, hstack, State.goto]

theorem engineStep_cTree_leaf {n : NodeIdx} {rest : List NodeIdx} {sym : Byte} {f : Word}
    (hphase : s.eng.phase = .cTree) (henter : s.eng.entering = false) (hstack : s.eng.treeStack = n :: rest)
    (hnode : s.eng.nodeAt n = .leaf sym f) :
    s.engineStep = .plain { s with
      eng := { s.eng with optr := s.eng.optr + 2, treeStack := rest }
      outMem := s.outMem.writeList s.eng.optr.toNat [0x01#8, sym] } := by
  simp [State.engineStep, hphase, State.treeStep, henter, hstack, hnode, State.memWrite, Memory.writeList]

theorem engineStep_cTree_internal {n l r : NodeIdx} {rest : List NodeIdx} {f : Word}
    (hphase : s.eng.phase = .cTree) (henter : s.eng.entering = false) (hstack : s.eng.treeStack = n :: rest)
    (hnode : s.eng.nodeAt n = .internal f l r) :
    s.engineStep = .plain { s with
      eng := { s.eng with optr := s.eng.optr + 1, treeStack := l :: r :: rest }
      outMem := s.outMem.write s.eng.optr.toNat 0x00#8 } := by
  simp [State.engineStep, hphase, State.treeStep, henter, hstack, hnode, State.memWrite]

end

/-- Settles O43: the two entries, the two nodes, end. -/
theorem treePhase : Obligations.TreePhase := by
  refine fun s hmoves hphase => ⟨fun henter => ?_, fun henter hstack => ?_,
    fun n rest sym f henter hstack hnode => ?_, fun n rest f l r henter hstack hnode => ?_⟩
  · cases hvalid : s.eng.rootValid with
    | true => exact ⟨_, quietStep_of_plain hmoves fun _ => engineStep_cTree_entry hphase henter hvalid, rfl, rfl,
        ⟨rfl, rfl⟩, rfl⟩
    | false => exact ⟨_, quietStep_of_plain hmoves fun _ => engineStep_cTree_noTree hphase henter hvalid, rfl, rfl,
        rfl, rfl⟩
  · exact ⟨_, quietStep_of_plain hmoves fun _ => engineStep_cTree_end hphase henter hstack, ⟨rfl, rfl⟩, rfl⟩
  · refine ⟨_, writingStep_of_plain hmoves fun _ => engineStep_cTree_leaf hphase henter hstack hnode, ?_, ?_,
      fun a ha ha1 => ?_, rfl⟩
    · exact Memory.read_writeList [0x01#8, sym] _ _ 0 (by simp)
    · exact Memory.read_writeList [0x01#8, sym] _ _ 1 (by simp)
    · exact Memory.read_writeList_other _ _ _ _ (by simp only [List.length_cons, List.length_nil]; omega)
  · exact ⟨_, writingStep_of_plain hmoves fun _ => engineStep_cTree_internal hphase henter hstack hnode,
      Memory.read_write_same _ _ _, fun a ha => Memory.read_write_other _ _ _ _ ha, rfl⟩

/-! ### C_ENC (R197) -/

/-- Bit 7 - n of an accumulator set to b. -/
theorem setStreamBit_getLsbD (v : Byte) {n : Nat} (hn : n < 8) (b : Bool) {k : Nat} (hk : k < 8) :
    (setStreamBit v n b).getLsbD k = if k = 7 - n then b else v.getLsbD k := by
  have hmask : (0x80#8 >>> n).getLsbD k = decide (k = 7 - n) := by
    interval_cases n <;> interval_cases k <;> rfl
  cases b with
  | true =>
    rw [show setStreamBit v n true = v ||| 0x80#8 >>> n from rfl, BitVec.getLsbD_or, hmask]
    by_cases hkn : k = 7 - n <;> simp [hkn]
  | false =>
    rw [show setStreamBit v n false = v &&& ~~~(0x80#8 >>> n) from rfl, BitVec.getLsbD_and, BitVec.getLsbD_not, hmask]
    by_cases hkn : k = 7 - n <;> simp [hkn, hk]

section
variable {s : State}

/-- The engine at the start of C_ENC's loop. -/
def Engine.startEnc (e : Engine) : Engine :=
  { e with entering := false, iptr := 0, cbit := 0, acc := 0, accN := 0, bits := 0, optr := 8 + e.tReg }

theorem engineStep_cEnc_entry (hphase : s.eng.phase = .cEnc) (henter : s.eng.entering = true) :
    s.engineStep = .plain { s with eng := s.eng.startEnc } := by
  simp [State.engineStep, hphase, State.encStep, henter, Engine.startEnc]

/-- The engine after a packed bit that leaves the accumulator part-filled. -/
def Engine.pack (e : Engine) (bit : Bool) : Engine :=
  { e with acc := setStreamBit e.acc e.accN.toNat bit, accN := e.accN + 1, bits := e.bits + 1 }

/-- The engine after a packed bit that fills the accumulator, which is then written and emptied. -/
def Engine.packFull (e : Engine) : Engine :=
  { e with acc := 0, accN := 0, bits := e.bits + 1, optr := e.optr + 1 }

theorem State.packBit_of_room (hroom : s.eng.accN ≠ 7) (bit : Bool) :
    s.packBit bit = { s with eng := s.eng.pack bit } :=
  if_neg hroom

theorem State.packBit_of_full (hfull : s.eng.accN = 7) (bit : Bool) :
    s.packBit bit = { s with
      eng := s.eng.packFull
      outMem := s.outMem.write s.eng.optr.toNat (setStreamBit s.eng.acc 7 bit) } := by
  unfold State.packBit
  rw [hfull]
  rfl

theorem State.encStep_of_bit {sym : Byte} {bit : Bool} (henter : s.eng.entering = false)
    (hiptr : s.eng.iptr.toNat < s.regs.inLen.toNat) (hsym : sym = s.inMem.read s.eng.iptr.toNat)
    (hbit : (s.eng.codeAt sym)[s.eng.cbit.toNat]? = some bit) :
    s.encStep = { s.packBit bit with eng := (s.packBit bit).eng.nextCodeBit sym } := by
  subst hsym
  simp [State.encStep, henter, hiptr, State.memRead, Engine.codeBit, hbit]

theorem engineStep_cEnc (hphase : s.eng.phase = .cEnc) : s.engineStep = .plain s.encStep := by
  simp [State.engineStep, hphase]

theorem engineStep_cEnc_bit {sym : Byte} {bit : Bool} (hphase : s.eng.phase = .cEnc) (henter : s.eng.entering = false)
    (hiptr : s.eng.iptr.toNat < s.regs.inLen.toNat) (hsym : sym = s.inMem.read s.eng.iptr.toNat)
    (hbit : (s.eng.codeAt sym)[s.eng.cbit.toNat]? = some bit) (hroom : s.eng.accN ≠ 7) :
    s.engineStep = .plain { s with eng := (s.eng.pack bit).nextCodeBit sym } := by
  rw [engineStep_cEnc hphase, State.encStep_of_bit henter hiptr hsym hbit, State.packBit_of_room hroom]

theorem engineStep_cEnc_bitFull {sym : Byte} {bit : Bool} (hphase : s.eng.phase = .cEnc)
    (henter : s.eng.entering = false) (hiptr : s.eng.iptr.toNat < s.regs.inLen.toNat)
    (hsym : sym = s.inMem.read s.eng.iptr.toNat)
    (hbit : (s.eng.codeAt sym)[s.eng.cbit.toNat]? = some bit) (hfull : s.eng.accN = 7) :
    s.engineStep = .plain { s with
      eng := s.eng.packFull.nextCodeBit sym
      outMem := s.outMem.write s.eng.optr.toNat (setStreamBit s.eng.acc 7 bit) } := by
  rw [engineStep_cEnc hphase, State.encStep_of_bit henter hiptr hsym hbit, State.packBit_of_full hfull]

theorem engineStep_cEnc_end (hphase : s.eng.phase = .cEnc) (henter : s.eng.entering = false)
    (hiptr : s.regs.inLen.toNat ≤ s.eng.iptr.toNat) (hempty : s.eng.accN = 0) :
    s.engineStep = .plain { s with eng := { s.eng with phase := .finish, entering := true, pending := none } } := by
  simp [State.engineStep, hphase, State.encStep, henter, hiptr.not_gt, hempty, State.succeed]

theorem engineStep_cEnc_flush (hphase : s.eng.phase = .cEnc) (henter : s.eng.entering = false)
    (hiptr : s.regs.inLen.toNat ≤ s.eng.iptr.toNat) (hfilled : s.eng.accN ≠ 0) :
    s.engineStep = .plain { s with
      eng := { s.eng with phase := .finish, entering := true, pending := none, optr := s.eng.optr + 1 }
      outMem := s.outMem.write s.eng.optr.toNat s.eng.acc } := by
  have hfilled' : ¬ s.eng.accN = 0#3 := hfilled
  simp [State.engineStep, hphase, State.encStep, henter, hiptr.not_gt, hfilled', State.succeed, State.writeAcc,
    State.memWrite]

/-- The code bit pointer moves, and nothing else does. -/
theorem Engine.nextCodeBit_frame (e : Engine) (sym : Byte) :
    e.nextCodeBit sym = { e with cbit := (e.nextCodeBit sym).cbit, iptr := (e.nextCodeBit sym).iptr } := by
  unfold Engine.nextCodeBit
  split <;> rfl

theorem Engine.nextCodeBit_pointer (e : Engine) (sym : Byte) :
    if e.cbit.toNat + 1 = (e.codeAt sym).length then
      (e.nextCodeBit sym).cbit = 0 ∧ (e.nextCodeBit sym).iptr = e.iptr + 1
    else (e.nextCodeBit sym).cbit = e.cbit + 1 ∧ (e.nextCodeBit sym).iptr = e.iptr := by
  unfold Engine.nextCodeBit
  split <;> exact ⟨rfl, rfl⟩

theorem accN_eq_seven {n : BitVec 3} : n.toNat = 7 ↔ n = 7 :=
  BitVec.toNat_inj (y := 7#3)

end

/-- Settles O44: entry, one bit into a part-filled or a filled accumulator, and the two ends. -/
theorem encodePhase : Obligations.EncodePhase := by
  refine fun s hmoves hphase => ⟨fun henter => ?_, fun sym bit henter hiptr hsym hbit => ?_, fun henter hiptr => ?_⟩
  · exact ⟨_, quietStep_of_plain hmoves fun _ => engineStep_cEnc_entry hphase henter, ⟨rfl, rfl⟩, rfl, rfl, rfl, rfl, rfl,
      rfl⟩
  · by_cases hfull : s.eng.accN = 7
    · refine ⟨_, writingStep_of_plain hmoves fun _ => engineStep_cEnc_bitFull hphase henter hiptr hsym hbit hfull, ?_⟩
      have hpointer := s.eng.packFull.nextCodeBit_pointer sym
      rw [if_pos (accN_eq_seven.mpr hfull)]
      rw [Engine.nextCodeBit_frame]
      refine ⟨⟨rfl, henter⟩, rfl, hpointer, rfl, rfl, rfl, fun k hk => ?_,
        fun a ha => Memory.read_write_other _ _ _ _ ha⟩
      exact (congrArg (·.getLsbD k) (Memory.read_write_same _ _ _)).trans (setStreamBit_getLsbD _ (n := 7) (by decide) _ hk)
    · refine ⟨_, writingStep_of_plain hmoves
        fun _ => engineStep_cEnc_bit hphase henter hiptr hsym hbit hfull, ?_⟩
      have hpointer := (s.eng.pack bit).nextCodeBit_pointer sym
      rw [if_neg (mt accN_eq_seven.mp hfull)]
      rw [Engine.nextCodeBit_frame]
      exact ⟨⟨rfl, henter⟩, rfl, hpointer, rfl, rfl, fun k hk => setStreamBit_getLsbD _ s.eng.accN.isLt _ hk,
        fun _ => rfl⟩
  · by_cases hempty : s.eng.accN = 0
    · refine ⟨_, writingStep_of_plain hmoves fun _ => engineStep_cEnc_end hphase henter hiptr hempty,
        ⟨rfl, rfl⟩, rfl, ?_⟩
      rw [if_pos hempty]
      exact fun _ => rfl
    · refine ⟨_, writingStep_of_plain hmoves fun _ => engineStep_cEnc_flush hphase henter hiptr hempty, ⟨rfl, rfl⟩, rfl, ?_⟩
      rw [if_neg hempty]
      exact ⟨Memory.read_write_same _ _ _, fun a ha => Memory.read_write_other _ _ _ _ ha⟩

/-! ### D_TREE's steps that read no whole token (R232, R234, R274) -/

section
variable {s : State}

/-- The engine at the start of a parse. -/
def Engine.startParse (e : Engine) : Engine :=
  { e with entering := false, tpos := 0, ncount := 0, seen := [], parseStack := [] }

theorem engineStep_dTree_empty (hphase : s.eng.phase = .dTree) (henter : s.eng.entering = true)
    (hempty : s.eng.tReg = 0) :
    s.engineStep = .plain { s with eng := { s.eng.startParse with
      phase := .dDec, entering := true, rootValid := false } } := by
  simp [State.engineStep, hphase, henter, State.parseEntry, hempty, State.goto, Engine.startParse]

theorem engineStep_dTree_entry (hphase : s.eng.phase = .dTree) (henter : s.eng.entering = true)
    (hsome : s.eng.tReg ≠ 0) : s.engineStep = .plain { s with eng := s.eng.startParse } := by
  have hsome' : ¬ s.eng.tReg = 0#32 := hsome
  simp [State.engineStep, hphase, henter, State.parseEntry, hsome', Engine.startParse]

theorem engineStep_dTree_pastEnd (hphase : s.eng.phase = .dTree) (henter : s.eng.entering = false)
    (hparsing : s.eng.ncount = 0 ∨ s.eng.parseStack ≠ []) (htpos : s.eng.tReg.toNat ≤ s.eng.tpos.toNat) :
    s.engineStep = .plain (s.raise .fmtTreePastEnd) := by
  simp [State.engineStep, hphase, henter, Engine.parsed_eq_false hparsing, htpos]

theorem engineStep_dTree_cut (hphase : s.eng.phase = .dTree) (henter : s.eng.entering = false)
    (hparsing : s.eng.ncount = 0 ∨ s.eng.parseStack ≠ []) (htpos : s.eng.tpos.toNat + 1 = s.eng.tReg.toNat)
    (hleaf : s.inMem.read (8 + s.eng.tpos.toNat) = 0x01#8) : s.engineStep = .plain s.leafPastEnd := by
  have hinside : ¬ s.eng.tReg.toNat ≤ s.eng.tpos.toNat := by omega
  have hcut : s.leafCut = true := by
    simp [State.leafCut, State.symbolOutside, State.markerByte, State.memRead, hleaf, htpos]
  simp [State.engineStep, hphase, henter, Engine.parsed_eq_false hparsing, hinside, hcut]

theorem engineStep_dTree_end (hphase : s.eng.phase = .dTree) (henter : s.eng.entering = false)
    (hcount : s.eng.ncount ≠ 0) (hstack : s.eng.parseStack = []) (htpos : s.eng.tpos = s.eng.tReg) :
    s.engineStep = .plain { s with eng := { s.eng with
      phase := .dDec, entering := true, root := 0, rootValid := true } } := by
  simp [State.engineStep, hphase, henter, Engine.parsed_eq_true hcount hstack, State.parseEnd, htpos, State.goto]

theorem engineStep_dTree_trailing (hphase : s.eng.phase = .dTree) (henter : s.eng.entering = false)
    (hcount : s.eng.ncount ≠ 0) (hstack : s.eng.parseStack = []) (htpos : s.eng.tpos ≠ s.eng.tReg) :
    s.engineStep = .plain ({ s with eng := { s.eng with root := 0, rootValid := true } }.raise .fmtTreeTrailing) := by
  simp [State.engineStep, hphase, henter, Engine.parsed_eq_true hcount hstack, State.parseEnd, htpos]

end

/-- Settles O29: entry, a token at or beyond T, a leaf cut off, and the two ends. -/
theorem treeRegionBounds : Obligations.TreeRegionBounds := by
  refine ⟨rfl, fun s hmoves hphase => ⟨fun henter => ?_, fun henter hparsing htpos => ?_,
    fun henter hparsing htpos hleaf => ?_, fun henter hcount hstack htpos => ?_,
    fun henter hcount hstack htpos => ?_⟩⟩
  · by_cases hempty : s.eng.tReg = 0
    · refine ⟨_, quietStep_of_plain hmoves fun _ => engineStep_dTree_empty hphase henter hempty, rfl, rfl, rfl, rfl, rfl,
        rfl, ?_⟩
      rw [if_pos hempty]
      exact ⟨rfl, rfl, rfl⟩
    · refine ⟨_, quietStep_of_plain hmoves fun _ => engineStep_dTree_entry hphase henter hempty, rfl, rfl, rfl, rfl, rfl,
        rfl, ?_⟩
      rw [if_neg hempty]
      exact ⟨rfl, rfl⟩
  · exact exists_raisedStep hmoves fun _ => engineStep_dTree_pastEnd hphase henter hparsing htpos
  · have hcut (h : HostSide) := engineStep_dTree_cut (s := { s with host := h }) hphase henter hparsing htpos hleaf
    by_cases hfull : s.eng.ncount = 511
    · obtain ⟨t, hstep, hraised, hhost⟩ := exists_raisedStep hmoves
        fun h => (hcut h).trans (congrArg _ (if_pos hfull))
      exact ⟨t, hstep, hhost, by rwa [if_pos hfull]⟩
    · obtain ⟨t, hstep, hraised, hhost⟩ := exists_raisedStep hmoves
        fun h => (hcut h).trans (congrArg _ (if_neg hfull))
      exact ⟨t, hstep, hhost, by rwa [if_neg hfull]⟩
  · exact ⟨_, quietStep_of_plain hmoves fun _ => engineStep_dTree_end hphase henter hcount hstack htpos, ⟨rfl, rfl⟩, rfl,
      rfl, rfl, rfl, rfl, rfl⟩
  · exact exists_raisedStep hmoves fun _ => engineStep_dTree_trailing hphase henter hcount hstack htpos

/-! ### D_DEC (R236, R237, R239, R240) -/

section
variable {s : State}

/-- The engine with a payload bit counted as read. -/
def Engine.countBit (e : Engine) : Engine :=
  { e with rpos := e.rpos + 1 }

theorem exec_bitInstr (bit : Bool) (s : State) : exec (bitInstr bit) s = .next (s.payloadBit bit) := by
  cases bit <;> rfl

theorem State.payloadBit_of_internalRoot (hroot : (s.eng.nodeAt s.eng.root).isLeaf = false) (bit : Bool) :
    s.payloadBit bit = { s with eng := s.eng.countBit }.decodeStep bit := by
  unfold State.payloadBit
  rw [hroot]
  rfl

theorem State.payloadBit_internal {bit : Bool} {c : NodeIdx} (hroot : (s.eng.nodeAt s.eng.root).isLeaf = false)
    (hc : c = (s.eng.nodeAt s.eng.cur).child bit) (hnode : (s.eng.nodeAt c).isLeaf = false) :
    s.payloadBit bit = { s with eng := { s.eng.countBit with cur := c } } := by
  rw [State.payloadBit_of_internalRoot hroot]
  obtain ⟨-, h⟩ | ⟨sym, f, hleaf, -⟩ := { s with eng := s.eng.countBit }.decodeStep_cases bit c hc
  · exact h
  · exact nomatch hnode.symm.trans (congrArg Node.isLeaf hleaf)

theorem State.payloadBit_leaf {bit : Bool} {c : NodeIdx} {sym : Byte} {f : Word}
    (hroot : (s.eng.nodeAt s.eng.root).isLeaf = false) (hc : c = (s.eng.nodeAt s.eng.cur).child bit)
    (hnode : s.eng.nodeAt c = .leaf sym f) :
    (s.regs.outCap.toNat ≤ s.eng.optr.toNat ∧
      s.payloadBit bit = { s with eng := { s.eng.countBit with cur := c } }.raise .capacity) ∨
    (s.eng.optr.toNat < s.regs.outCap.toNat ∧
      s.payloadBit bit = { s with
        outMem := s.outMem.write s.eng.optr.toNat sym
        eng := { s.eng.countBit with optr := s.eng.optr + 1, cur := s.eng.root } }) := by
  rw [State.payloadBit_of_internalRoot hroot]
  obtain ⟨hinternal, -⟩ | ⟨sym', f', hleaf, h⟩ := { s with eng := s.eng.countBit }.decodeStep_cases bit c hc
  · exact nomatch hinternal.symm.trans (congrArg Node.isLeaf hnode)
  · obtain ⟨rfl, rfl⟩ := Node.leaf.inj (hnode.symm.trans hleaf)
    exact h

theorem engineStep_dDec_entry (hphase : s.eng.phase = .dDec) (henter : s.eng.entering = true)
    (hvalid : s.eng.rootValid = true) :
    s.engineStep = .plain { s with eng := { s.eng with
      entering := false, rpos := 0, optr := 0, cur := s.eng.root } } := by
  simp [State.engineStep, hphase, henter, State.decEntry, hvalid]

theorem engineStep_dDec_emptyTree (hphase : s.eng.phase = .dDec) (henter : s.eng.entering = true)
    (hvalid : s.eng.rootValid = false) (hbits : s.eng.bReg = 0) :
    s.engineStep = .plain { s with eng := { s.eng with
      phase := .finish, entering := true, pending := none, rpos := 0, optr := 0 } } := by
  simp [State.engineStep, hphase, henter, State.decEntry, hvalid, hbits, State.succeed]

theorem engineStep_dDec_emptyTreeBits (hphase : s.eng.phase = .dDec) (henter : s.eng.entering = true)
    (hvalid : s.eng.rootValid = false) (hbits : s.eng.bReg ≠ 0) :
    s.engineStep = .plain ({ s with eng := { s.eng with
      entering := false, rpos := 0, optr := 0 } }.raise .fmtEmptyTreeBits) := by
  have hbits' : ¬ s.eng.bReg = 0#32 := hbits
  simp [State.engineStep, hphase, henter, State.decEntry, hvalid, hbits']

theorem engineStep_dDec_end (hphase : s.eng.phase = .dDec) (henter : s.eng.entering = false)
    (hrpos : s.eng.bReg.toNat ≤ s.eng.rpos.toNat) (hcur : s.eng.cur = s.eng.root) :
    s.engineStep = .plain { s with eng := { s.eng with phase := .finish, entering := true, pending := none } } := by
  simp [State.engineStep, hphase, henter, hrpos.not_gt, State.decEnd, hcur, State.succeed]

theorem engineStep_dDec_truncated (hphase : s.eng.phase = .dDec) (henter : s.eng.entering = false)
    (hrpos : s.eng.bReg.toNat ≤ s.eng.rpos.toNat) (hcur : s.eng.cur ≠ s.eng.root) :
    s.engineStep = .plain (s.raise .fmtTruncated) := by
  simp [State.engineStep, hphase, henter, hrpos.not_gt, State.decEnd, hcur]

end

/-- Settles O30: the child reached is internal, or a leaf with or without room. -/
theorem payloadBitWalksTree : Obligations.PayloadBitWalksTree := by
  refine ⟨rfl, fun s bit c hroot hc => ⟨fun hnode => ?_, fun sym f hnode => ?_⟩⟩
  · refine ⟨_, exec_bitInstr bit s, ?_⟩
    rw [State.payloadBit_internal hroot hc hnode]
    exact ⟨rfl, rfl, memKept_of_eq rfl rfl rfl, rfl⟩
  · obtain ⟨hfull, hbit⟩ | ⟨hroom, hbit⟩ := State.payloadBit_leaf hroot hc hnode
    · refine ⟨fun hroom => absurd hroom hfull.not_gt, fun _ => ?_⟩
      exact exists_raised_of_exec (exec_bitInstr bit s) hbit
    · refine ⟨fun _ => ⟨_, exec_bitInstr bit s, ?_⟩, fun hfull => absurd hroom hfull.not_gt⟩
      rw [hbit]
      exact ⟨Memory.read_write_same _ _ _, fun a ha => Memory.read_write_other _ _ _ _ ha, rfl, rfl, fun _ => rfl, rfl,
        rfl⟩

/-- Settles O32: the three entries and the two ends. -/
theorem decodeEntryAndEnd : Obligations.DecodeEntryAndEnd := by
  refine ⟨rfl, rfl, fun s hmoves hphase => ⟨fun henter hvalid => ?_, fun henter hvalid hbits => ?_,
    fun henter hvalid hbits => ?_, fun henter hrpos hcur => ?_, fun henter hrpos hcur => ?_⟩⟩
  · exact ⟨_, quietStep_of_plain hmoves fun _ => engineStep_dDec_entry hphase henter hvalid, ⟨rfl, rfl⟩, rfl⟩
  · exact ⟨_, quietStep_of_plain hmoves fun _ => engineStep_dDec_emptyTree hphase henter hvalid hbits, ⟨rfl, rfl⟩, rfl,
      rfl⟩
  · exact exists_raisedStep hmoves fun _ => engineStep_dDec_emptyTreeBits hphase henter hvalid hbits
  · exact ⟨_, quietStep_of_plain hmoves fun _ => engineStep_dDec_end hphase henter hrpos hcur, ⟨rfl, rfl⟩, rfl, rfl⟩
  · exact exists_raisedStep hmoves fun _ => engineStep_dDec_truncated hphase henter hrpos hcur

end Sys2Proof.Machine
end

section
/-! Proofs of the statements about the functional definitions (30_encoding.md, 41_tree_builder.md, 42_encoder.md). -/

namespace Sys2Proof.Machine

open scoped List

/-- Settles O53: `PTree.ser_length` with the one leaf every tree has. -/
theorem treeLengthByLeaves : Obligations.TreeLengthByLeaves := by
  intro tree
  have hlength := tree.ser_length
  exact ⟨tree.syms_length_pos, by omega⟩

/-- Settles O55: BuildTree's leaves are the byte values that occur. -/
theorem leavesArePresentBytes : Obligations.LeavesArePresentBytes := by
  intro input
  have hpresent (b : Byte) : occurrences input b ≠ 0 ↔ b ∈ input := by
    rw [occurrences, ← Nat.pos_iff_ne_zero, List.count_pos_iff]
  obtain ⟨hnone, habsent⟩ | ⟨tree, hbuild, hnodup, hleaves⟩ := buildTree_cases (occurrences input)
  · rw [hnone]
    exact List.eq_nil_iff_forall_not_mem.mpr fun b hb => (hpresent b).mpr hb (habsent b)
  · rw [hbuild]
    exact ⟨hnodup, fun b => (hleaves b).trans (hpresent b)⟩

/-! ### The order of the input (R172) -/

theorem occurrences_perm {a b : List Byte} (h : a ~ b) : occurrences a = occurrences b :=
  funext fun s => h.count_eq s

theorem payloadOf_length_perm (tree : PTree) {a b : List Byte} (h : a ~ b) :
    (payloadOf tree a).length = (payloadOf tree b).length :=
  (h.flatMap_right tree.codeOf).length_eq

theorem compressedBuffer_take (t b : Word) (region payload : List Byte) :
    (compressedBuffer t b region payload).take (8 + region.length) = toBE32 t ++ toBE32 b ++ region := by
  rw [compressedBuffer, List.take_append_of_le_length (by simp only [List.length_append, toBE32_length]; omega),
    List.take_of_length_le (by simp only [List.length_append, toBE32_length]; omega)]

/-- Settles O54: the tree is built from the counts, and the number of payload bits is a sum over the input. -/
theorem treeDependsOnFrequencies : Obligations.TreeDependsOnFrequencies := by
  intro a b hperm
  have hcounts := occurrences_perm hperm
  cases hbuild : buildTree (occurrences a) with
  | none =>
    rw [compress_of_no_tree hbuild, compress_of_no_tree (hcounts ▸ hbuild)]
    exact ⟨rfl, rfl, rfl, rfl⟩
  | some tree =>
    have hbits := payloadOf_length_perm tree hperm
    rw [compress_of_tree hbuild, compress_of_tree (hcounts ▸ hbuild)]
    refine ⟨rfl, hbits, rfl, ?_⟩
    rw [compressedBuffer_take, compressedBuffer_take, hbits]

/-! ### Prefix-free codes (R192, R193) -/

/-- Different leaves lie on different paths, and no path goes on beyond a leaf. -/
theorem PTree.path_not_prefix {tree : PTree} {a b : Byte} {p q : List Bool} (hab : a ≠ b) (ha : tree.path a = some p)
    (hb : tree.path b = some q) : ¬ p <+: q := by
  induction tree generalizing p q with
  | leaf sym => exact absurd ((PTree.path_leaf_cases ha).1.symm.trans (PTree.path_leaf_cases hb).1) hab
  | node l r ihl ihr =>
    obtain ⟨bit, p, rfl, hp⟩ := PTree.path_node_cases ha
    obtain ⟨bit', q, rfl, hq⟩ := PTree.path_node_cases hb
    rw [List.cons_prefix_cons]
    rintro ⟨rfl, hprefix⟩
    cases bit with
    | false => exact ihl hp hq hprefix
    | true => exact ihr hp hq hprefix

theorem PTree.mem_syms_of_path {tree : PTree} {s : Byte} {p : List Bool} (h : tree.path s = some p) : s ∈ tree.syms := by
  induction tree generalizing p with
  | leaf sym => exact List.mem_singleton.mpr (PTree.path_leaf_cases h).1.symm
  | node l r ihl ihr =>
    obtain ⟨bit, q, -, hq⟩ := PTree.path_node_cases h
    cases bit with
    | false => exact List.mem_append_left _ (ihl hq)
    | true => exact List.mem_append_right _ (ihr hq)

theorem PTree.codeOf_node {l r : PTree} {s : Byte} {p : List Bool} (h : (PTree.node l r).path s = some p) :
    (PTree.node l r).codeOf s = p := by
  rw [PTree.codeOf, h, Option.getD_some]

theorem PTree.codeOf_leaf (sym : Byte) : (PTree.leaf sym).codeOf sym = [false] := if_pos rfl

theorem PTree.codeOf_of_not_mem {tree : PTree} {s : Byte} (h : s ∉ tree.syms) : tree.codeOf s = [] := by
  cases tree with
  | leaf sym => exact if_neg fun heq => h (List.mem_singleton.mpr heq.symm)
  | node l r =>
    cases hpath : (PTree.node l r).path s with
    | none => rw [PTree.codeOf, hpath, Option.getD_none]
    | some p => exact absurd (PTree.mem_syms_of_path hpath) h

theorem PTree.codeOf_length_pos {tree : PTree} {s : Byte} (h : s ∈ tree.syms) : 0 < (tree.codeOf s).length := by
  cases tree with
  | leaf sym =>
    obtain rfl := List.mem_singleton.mp h
    rw [PTree.codeOf_leaf]
    exact Nat.zero_lt_one
  | node l r =>
    obtain ⟨p, hp⟩ := PTree.exists_path h
    obtain ⟨bit, q, rfl, -⟩ := PTree.path_node_cases hp
    rw [PTree.codeOf_node hp]
    exact Nat.succ_pos _

theorem PTree.codeOf_not_prefix {tree : PTree} {a b : Byte} (ha : a ∈ tree.syms) (hb : b ∈ tree.syms) (hab : a ≠ b) :
    ¬ tree.codeOf a <+: tree.codeOf b := by
  cases tree with
  | leaf sym => exact absurd ((List.mem_singleton.mp ha).trans (List.mem_singleton.mp hb).symm) hab
  | node l r =>
    obtain ⟨p, hp⟩ := PTree.exists_path ha
    obtain ⟨q, hq⟩ := PTree.exists_path hb
    rw [PTree.codeOf_node hp, PTree.codeOf_node hq]
    exact PTree.path_not_prefix hab hp hq

/-- Settles O56: the codes are the paths but in a one-leaf tree, whose leaf has no other to be compared with. -/
theorem codesArePrefixFree : Obligations.CodesArePrefixFree := by
  refine fun tree _ => ⟨fun _ _ => PTree.codeOf_not_prefix, fun _ => PTree.codeOf_length_pos, ?_,
    fun _ => PTree.codeOf_of_not_mem⟩
  rintro a rfl
  exact PTree.codeOf_leaf a

end Sys2Proof.Machine
end

section
/-! Runs of the engine left alone: how steps chain, what a run leaves as it was, and how it ends (R147 to R150, R311). -/

namespace Sys2Proof.Machine

/-! ### Steps of the engine left alone -/

/-- The engine and OUT_MEM alone differ. -/
def SameBlock (s t : State) : Prop :=
  t = { s with eng := t.eng, outMem := t.outMem }

section
variable {s t u : State}

theorem sameBlock_eng (s : State) (e : Engine) : SameBlock s { s with eng := e } := rfl

theorem sameBlock_eng_out (s : State) (e : Engine) (m : Memory) : SameBlock s { s with eng := e, outMem := m } := rfl

theorem SameBlock.trans (hst : SameBlock s t) (htu : SameBlock t u) : SameBlock s u := by
  unfold SameBlock at *
  rw [htu, hst]

theorem SameBlock.regs (h : SameBlock s t) : t.regs = s.regs := by rw [h]

theorem SameBlock.inMem (h : SameBlock s t) : t.inMem = s.inMem := by rw [h]

theorem SameBlock.host (h : SameBlock s t) : t.host = s.host := by rw [h]

theorem engineMoves_of_alone (hqueue : s.host.queue = []) (hphase : s.eng.phase ≠ .idle) : EngineMoves s := by
  unfold EngineMoves State.nextAgent
  rw [hqueue]
  split <;> simp_all

theorem State.spendTurn_of_alone (hqueue : s.host.queue = []) : s.spendTurn = s := by
  simp [State.spendTurn, State.contended, hqueue]

/-- With nothing waiting outside, a step is the run of what the engine fetches. -/
theorem step_alone (hqueue : s.host.queue = []) (hphase : s.eng.phase ≠ .idle) : step s = s.engineStep.run := by
  rw [step_of_engineMoves (engineMoves_of_alone hqueue hphase), State.spendTurn_of_alone hqueue]

theorem step_alone_plain (hqueue : s.host.queue = []) (hphase : s.eng.phase ≠ .idle)
    (hplain : s.engineStep = .plain t) : step s = .next t := by
  rw [step_alone hqueue hphase, hplain, Fetched.run_plain]

/-! ### Runs -/

theorem runFor_add (m n : Nat) (s : State) : runFor (m + n) s = (runFor m s).bind (runFor n) := by
  induction m generalizing s with
  | zero => simp [runFor]
  | succ m ih =>
    rw [Nat.succ_add, runFor, runFor]
    cases step s with
    | next t => exact ih t
    | fault | refused => rfl

/-- s comes to t in at most n steps. -/
def ReachesIn (n : Nat) (s t : State) : Prop :=
  ∃ m, m ≤ n ∧ runFor m s = some t

theorem ReachesIn.refl (s : State) : ReachesIn 0 s s := ⟨0, le_rfl, rfl⟩

theorem ReachesIn.of_step (h : step s = .next t) : ReachesIn 1 s t :=
  ⟨1, le_rfl, by rw [runFor, h]; rfl⟩

theorem ReachesIn.trans {m n : Nat} (hst : ReachesIn m s t) (htu : ReachesIn n t u) : ReachesIn (m + n) s u := by
  obtain ⟨i, hi, hst⟩ := hst
  obtain ⟨j, hj, htu⟩ := htu
  exact ⟨i + j, Nat.add_le_add hi hj, by rw [runFor_add, hst]; exact htu⟩

theorem ReachesIn.mono {m n : Nat} (h : ReachesIn m s t) (hmn : m ≤ n) : ReachesIn n s t := by
  obtain ⟨i, hi, hst⟩ := h
  exact ⟨i, hi.trans hmn, hst⟩

/-- A loop: from P i each step comes to P (i + 1), as long as i is below n. -/
theorem exists_reachesIn_of_loop {P : Nat → State → Prop} {n : Nat}
    (hstep : ∀ i s, i < n → P i s → ∃ t, step s = .next t ∧ P (i + 1) t) {i : Nat} (hi : i ≤ n) (hP : P i s) :
    ∃ t, ReachesIn (n - i) s t ∧ P n t := by
  induction hk : n - i generalizing i s with
  | zero =>
    obtain rfl : i = n := by omega
    exact ⟨s, .refl s, hP⟩
  | succ k ih =>
    obtain ⟨t, hst, hPt⟩ := hstep i s (by omega) hP
    obtain ⟨u, htu, hPu⟩ := ih (by omega) hPt (by omega)
    exact ⟨u, ((ReachesIn.of_step hst).trans htu).mono (by omega), hPu⟩

/-! ### What a run keeps, and that it ends in one state -/

theorem EngineRule.host (hrule : EngineRule s t) : t.host = s.host := by
  by_cases hfinish : s.eng.phase = .finish
  · rw [hrule.eq_finish hfinish, State.finish_host]
  · rw [(hrule.goesOn hfinish).only]

theorem step_alone_keeps_queue (hqueue : s.host.queue = []) (hstep : step s = .next t) : t.host.queue = [] := by
  obtain ⟨-, rfl⟩ | ⟨-, hrule⟩ | ⟨-, e, rest, u, hcons, -, -⟩ := step_agent_cases hstep
  · exact hqueue
  · rwa [hrule.host, State.spendTurn_queue]
  · rw [hqueue] at hcons
    cases hcons

theorem runFor_alone_keeps_queue {n : Nat} (hqueue : s.host.queue = []) (hrun : runFor n s = some t) :
    t.host.queue = [] := by
  induction n generalizing s with
  | zero => exact Option.some.inj hrun ▸ hqueue
  | succ n ih =>
    obtain ⟨u, hu⟩ := stepNeverStops s
    rw [runFor, hu] at hrun
    exact ih (step_alone_keeps_queue hqueue hu) hrun

theorem step_idle (hqueue : s.host.queue = []) (hidle : s.eng.phase = .idle) : step s = .next s := by
  apply step_of_plain
  simp [fetch, State.nextAgent, hqueue, hidle]

theorem runFor_idle (n : Nat) (hqueue : s.host.queue = []) (hidle : s.eng.phase = .idle) : runFor n s = some s := by
  induction n with
  | zero => rfl
  | succ n ih => rw [runFor, step_idle hqueue hidle]; exact ih

/-- Left alone, a command ends in one state, however long it is watched. -/
theorem runFor_idle_unique {m n : Nat} (hqueue : s.host.queue = []) (ht : runFor m s = some t)
    (htidle : t.eng.phase = .idle) (hu : runFor n s = some u) (huidle : u.eng.phase = .idle) : t = u := by
  have hstays {i j : Nat} {v w : State} (hij : i ≤ j) (hv : runFor i s = some v) (hvidle : v.eng.phase = .idle)
      (hw : runFor j s = some w) : v = w := by
    rw [← Nat.add_sub_cancel' hij, runFor_add, hv, Option.bind_some,
      runFor_idle _ (runFor_alone_keeps_queue hqueue hv) hvidle] at hw
    exact Option.some.inj hw
  obtain hmn | hnm := Nat.le_total m n
  · exact hstays hmn ht htidle hu
  · exact (hstays hnm hu huidle ht).symm

/-! ### FINISH -/

/-- The command's last step: the registers FINISH writes, and OUT_MEM, which an error of D_DEC leaves open. -/
theorem finish_alone (hqueue : s.host.queue = []) (hphase : s.eng.phase = .finish) :
    ∃ t, ReachesIn 1 s t ∧ t.eng.phase = .idle ∧ t.inMem = s.inMem ∧
      t.regs = s.publish.finishFlags s.eng.pending ∧
      t.outMem = if leavesOutputOpen s.regs.op s.eng.pending then s.outMem.scramble s.regs.outCap.toNat s.draws
        else s.outMem :=
  ⟨s.finish, .of_step (step_alone_plain hqueue (by simp [hphase]) (engineStep_finish hphase)), by simp, by simp, by simp,
    s.finish_outMem⟩

/-! ### CHECK -/

theorem check_alone_illegalOp (hqueue : s.host.queue = []) (hphase : s.eng.phase = .check)
    (hop : s.regs.op ≠ opCompress ∧ s.regs.op ≠ opDecompress) : ReachesIn 1 s (s.raise .illegalOp) :=
  .of_step (step_alone_plain hqueue (by simp [hphase]) ((engineStep_check hphase).trans (congrArg _ (if_pos hop))))

theorem check_alone_config (hqueue : s.host.queue = []) (hphase : s.eng.phase = .check)
    (hop : s.regs.op = opCompress ∨ s.regs.op = opDecompress)
    (hconfig : s.regs.inMax.toNat < s.regs.inLen.toNat ∨ s.regs.outMax.toNat < s.regs.outCap.toNat) :
    ReachesIn 1 s (s.raise .config) := by
  have hstep : s.checkStep = s.raise .config := by
    unfold State.checkStep
    rw [if_neg (by tauto), if_pos hconfig]
  exact .of_step (step_alone_plain hqueue (by simp [hphase]) ((engineStep_check hphase).trans (congrArg _ hstep)))

/-- A legal configuration. -/
def Regs.ConfigOk (r : Regs) : Prop :=
  r.inLen.toNat ≤ r.inMax.toNat ∧ r.outCap.toNat ≤ r.outMax.toNat

theorem check_alone_compress (hqueue : s.host.queue = []) (hphase : s.eng.phase = .check)
    (hop : s.regs.op = opCompress) (hconfig : s.regs.ConfigOk) : ReachesIn 1 s (s.goto .cCount) := by
  obtain ⟨hin, hout⟩ := hconfig
  have hstep : s.checkStep = s.goto .cCount := by
    unfold State.checkStep
    rw [if_neg (by simp [hop]), if_neg (by omega), if_pos hop]
  exact .of_step (step_alone_plain hqueue (by simp [hphase]) ((engineStep_check hphase).trans (congrArg _ hstep)))

theorem check_alone_decompress (hqueue : s.host.queue = []) (hphase : s.eng.phase = .check)
    (hop : s.regs.op = opDecompress) (hconfig : s.regs.ConfigOk) : ReachesIn 1 s (s.goto .dHdr) := by
  obtain ⟨hin, hout⟩ := hconfig
  have hstep : s.checkStep = s.goto .dHdr := by
    unfold State.checkStep
    rw [if_neg (by simp [hop]), if_neg (by omega), if_neg (by rw [hop]; decide)]
  exact .of_step (step_alone_plain hqueue (by simp [hphase]) ((engineStep_check hphase).trans (congrArg _ hstep)))

end

/-! ### Bytes of a buffer -/

theorem Memory.readList_length (m : Memory) (a n : Nat) : (m.readList a n).length = n := by
  simp [Memory.readList]

theorem Memory.readList_getElem (m : Memory) (a : Nat) {n i : Nat} (hi : i < n) :
    (m.readList a n)[i]'(by rwa [Memory.readList_length]) = m.read (a + i) := by
  simp [Memory.readList]

theorem Memory.readList_succ (m : Memory) (a n : Nat) : m.readList a (n + 1) = m.readList a n ++ [m.read (a + n)] := by
  simp [Memory.readList, List.range_succ]

theorem Memory.writeList_append (m : Memory) (a : Nat) (xs ys : List Byte) :
    m.writeList a (xs ++ ys) = (m.writeList a xs).writeList (a + xs.length) ys := by
  induction xs generalizing m a with
  | nil => rfl
  | cons x xs ih =>
    rw [List.cons_append, Memory.writeList, Memory.writeList, ih, List.length_cons, Nat.add_assoc, Nat.add_comm 1]

theorem Memory.writeList_singleton (m : Memory) (a : Nat) (v : Byte) : m.writeList a [v] = m.write a v := rfl

/-- What is written from an address on is read back. -/
theorem Memory.readList_writeList (m : Memory) (a : Nat) (vs : List Byte) :
    (m.writeList a vs).readList a vs.length = vs := by
  apply List.ext_getElem
  · exact Memory.readList_length _ _ _
  · intro i _ hi
    rw [Memory.readList_getElem _ _ hi, Memory.read_writeList _ _ _ _ hi]

theorem Memory.writeList_kept_from (m : Memory) (a : Nat) (vs : List Byte) :
    BytesKeptFrom (a + vs.length) m (m.writeList a vs) :=
  fun _ hx => Memory.read_writeList_other _ _ _ _ (.inr hx)

end Sys2Proof.Machine
end

section
/-! The tree builder computes BuildTree: C_COUNT, C_LEAF and C_MERGE run to their ends (41_tree_builder.md, R160 to R170). -/

namespace Sys2Proof.Machine

open scoped List

/-! ### A tree in the arena -/

/-- The tree stands in the arena at node x, on nodes of S alone. -/
def PTree.StandsAt (e : Engine) (S : NodeIdx → Prop) : PTree → NodeIdx → Prop
  | .leaf sym, x => S x ∧ ∃ f, e.nodeAt x = .leaf sym f
  | .node l r, x => S x ∧ ∃ f a b, e.nodeAt x = .internal f a b ∧ l.StandsAt e S a ∧ r.StandsAt e S b

section
variable {e e' : Engine} {S S' : NodeIdx → Prop} {tree tree' : PTree} {x : NodeIdx}

theorem PTree.StandsAt.mem (h : tree.StandsAt e S x) : S x := by
  cases tree <;> exact h.1

/-- A tree goes on standing where its nodes are kept. -/
theorem PTree.StandsAt.frame (h : tree.StandsAt e S x) (hS : ∀ j, S j → S' j)
    (hnode : ∀ j, S j → e'.nodeAt j = e.nodeAt j) : tree.StandsAt e' S' x := by
  induction tree generalizing x with
  | leaf sym =>
    obtain ⟨hx, f, hleaf⟩ := h
    exact ⟨hS x hx, f, (hnode x hx).trans hleaf⟩
  | node l r ihl ihr =>
    obtain ⟨hx, f, a, b, hinternal, hl, hr⟩ := h
    exact ⟨hS x hx, f, a, b, (hnode x hx).trans hinternal, ihl hl, ihr hr⟩

/-- One tree stands at a node. -/
theorem PTree.StandsAt.unique (h : tree.StandsAt e S x) (h' : tree'.StandsAt e S' x) : tree = tree' := by
  induction tree generalizing tree' x with
  | leaf sym =>
    obtain ⟨-, f, hleaf⟩ := h
    cases tree' with
    | leaf sym' =>
      obtain ⟨-, f', hleaf'⟩ := h'
      rw [(Node.leaf.inj (hleaf.symm.trans hleaf')).1]
    | node l' r' =>
      obtain ⟨-, f', a', b', hinternal', -, -⟩ := h'
      cases hleaf.symm.trans hinternal'
  | node l r ihl ihr =>
    obtain ⟨-, f, a, b, hinternal, hl, hr⟩ := h
    cases tree' with
    | leaf sym' =>
      obtain ⟨-, f', hleaf'⟩ := h'
      cases hinternal.symm.trans hleaf'
    | node l' r' =>
      obtain ⟨-, f', a', b', hinternal', hl', hr'⟩ := h'
      obtain ⟨-, rfl, rfl⟩ := Node.internal.inj (hinternal.symm.trans hinternal')
      rw [ihl hl hl', ihr hr hr']

end

/-! ### ACTIVE and the entries of BuildTree (R164, R169) -/

/-- The node x of ACTIVE is the entry a. -/
structure Represents (e : Engine) (x : NodeIdx) (a : Entry) : Prop where
  idx : a.idx = x.val
  freq : (e.nodeAt x).freq.toNat = a.freq
  tree : a.tree.StandsAt e (fun j => j.val < e.ncount.toNat) x

section
variable {e e' : Engine} {x y : NodeIdx} {a b : Entry} {l : List NodeIdx} {act : List Entry}

theorem Represents.eq_iff (hx : Represents e x a) (hy : Represents e y b) : x = y ↔ a = b := by
  constructor
  · rintro rfl
    obtain ⟨fa, ia, ta⟩ := a
    obtain ⟨fb, ib, tb⟩ := b
    rw [Entry.mk.injEq]
    exact ⟨hx.freq.symm.trans hy.freq, hx.idx.trans hy.idx.symm, hx.tree.unique hy.tree⟩
  · rintro rfl
    exact Fin.ext (hx.idx.symm.trans hy.idx)

/-- An entry goes on being represented while the arena grows. -/
theorem Represents.frame (h : Represents e x a) (hncount : e.ncount.toNat ≤ e'.ncount.toNat)
    (hnode : ∀ j, j.val < e.ncount.toNat → e'.nodeAt j = e.nodeAt j) : Represents e' x a where
  idx := h.idx
  freq := by rw [hnode x h.tree.mem, h.freq]
  tree := h.tree.frame (fun _ hj => hj.trans_le hncount) hnode

/-- A new node joins ACTIVE as a new entry. -/
theorem forall₂_append_new {i : NodeIdx} (h : List.Forall₂ (Represents e) l act)
    (hncount : e.ncount.toNat ≤ e'.ncount.toNat)
    (hnode : ∀ j, j.val < e.ncount.toNat → e'.nodeAt j = e.nodeAt j) (hnew : Represents e' i a) :
    List.Forall₂ (Represents e') (l ++ [i]) (act ++ [a]) :=
  List.rel_append (h.imp fun _ _ hxa => hxa.frame hncount hnode) (.cons hnew .nil)

theorem keyLt_eq_lt (hx : Represents e x a) (hy : Represents e y b) : e.keyLt x y = a.lt b := by
  simp only [Engine.keyLt, Entry.lt, hx.freq, hy.freq, hx.idx, hy.idx]

theorem forall₂_erase (h : List.Forall₂ (Represents e) l act) (hx : Represents e x a) :
    List.Forall₂ (Represents e) (l.erase x) (act.erase a) := by
  induction h with
  | nil => exact .nil
  | cons hyb _ ih =>
    rw [List.erase_cons, List.erase_cons]
    have hiff := hyb.eq_iff hx
    simp only [beq_iff_eq, hiff]
    split_ifs
    · assumption
    · exact .cons hyb ih

/-- The least key and the least entry are found together. -/
theorem leastKey_leastEntry (h : List.Forall₂ (Represents e) l act) :
    (e.leastKey l = none ∧ leastEntry act = none) ∨
      ∃ x a, e.leastKey l = some x ∧ leastEntry act = some a ∧ Represents e x a := by
  induction h with
  | nil => exact .inl ⟨rfl, rfl⟩
  | @cons y b _ _ hyb _ ih =>
    right
    unfold Engine.leastKey leastEntry
    obtain ⟨hkey, hentry⟩ | ⟨x, a, hkey, hentry, hxa⟩ := ih
    · exact ⟨y, b, by rw [hkey], by rw [hentry], hyb⟩
    · simp only [hkey, hentry, keyLt_eq_lt hxa hyb]
      split_ifs
      · exact ⟨x, a, rfl, rfl, hxa⟩
      · exact ⟨y, b, rfl, rfl, hyb⟩

end

/-! ### C_MERGE (R165 to R168) -/

/-- C_MERGE stands where BuildTree stands with the entries act. -/
structure Merging (e : Engine) (act : List Entry) : Prop where
  ok : MergesOk e
  represents : List.Forall₂ (Represents e) e.active act
  sum : (act.map Entry.freq).sum < 2 ^ 32

theorem sum_freq_erase {act : List Entry} {a : Entry} (h : a ∈ act) :
    a.freq + ((act.erase a).map Entry.freq).sum = (act.map Entry.freq).sum := by
  have hperm := (List.perm_cons_erase h).map Entry.freq
  rw [hperm.sum_eq, List.map_cons, List.sum_cons]

/-- The entry a merge makes. -/
def mergedEntry (a b : Entry) (next : Nat) : Entry :=
  ⟨a.freq + b.freq, next, .node a.tree b.tree⟩

theorem merging_merge {e : Engine} {act : List Entry} {x y : NodeIdx} {a b : Entry} (h : Merging e act)
    (hx : x ∈ e.active) (hy : y ∈ e.active.erase x) (ha : a ∈ act) (hb : b ∈ act.erase a)
    (hxa : Represents e x a) (hyb : Represents e y b) :
    Merging (e.merge x y ((e.active.erase x).erase y))
      ((act.erase a).erase b ++ [mergedEntry a b e.ncount.toNat]) := by
  have hsuma := sum_freq_erase ha
  have hsumb := sum_freq_erase hb
  have hsum := h.sum
  have hok := mergesOk_merge h.ok hx hy
  have hroom : e.ncount.toNat < 511 := by
    have hlength := h.ok.room
    have hposy := List.length_pos_of_mem hy
    rw [List.length_erase_of_mem hx] at hposy
    omega
  obtain ⟨i, hi⟩ : ∃ i : NodeIdx, i.val = e.ncount.toNat := ⟨⟨_, hroom⟩, rfl⟩
  have hncount : (e.merge x y ((e.active.erase x).erase y)).ncount.toNat = e.ncount.toNat + 1 :=
    bitVec_toNat_add_one (by omega)
  have hkept : ∀ j : NodeIdx, j.val < e.ncount.toNat →
      (e.merge x y ((e.active.erase x).erase y)).nodeAt j = e.nodeAt j := fun j hj =>
    Engine.nodeAt_merge_other hi x y _ (Fin.ne_of_lt (by rw [Fin.lt_def, hi]; exact hj))
  have hgrows {z : NodeIdx} {c : Entry} (hzc : Represents e z c) := hzc.frame (by omega) hkept
  refine ⟨hok, ?_, ?_⟩
  · rw [Engine.merge_active hi]
    refine forall₂_append_new (forall₂_erase (forall₂_erase h.represents hxa) hyb) (by omega) hkept
      ⟨hi.symm, ?_, ?_⟩
    · rw [Engine.nodeAt_merge_new hi, Node.freq, BitVec.toNat_add, hxa.freq, hyb.freq, Nat.mod_eq_of_lt (by omega)]
      rfl
    · exact ⟨by omega, _, x, y, Engine.nodeAt_merge_new hi x y _, (hgrows hxa).tree, (hgrows hyb).tree⟩
  · rw [List.map_append, List.sum_append, List.map_singleton, List.sum_singleton, mergedEntry]
    dsimp only
    omega

theorem State.mergeStep_of_one {s : State} {a : NodeIdx} (ha : s.eng.leastKey s.eng.active = some a)
    (hb : s.eng.leastKey (s.eng.active.erase a) = none) :
    s.mergeStep = { s with eng := { s.eng with root := a, rootValid := true } }.goto .cCode := by
  simp [State.mergeStep, ha, hb]

/-- What C_MERGE may move: the arena, ACTIVE and the root. -/
def Engine.MergeFrame (e e' : Engine) : Prop :=
  e' = { e with
    phase := e'.phase, entering := e'.entering, node := e'.node, ncount := e'.ncount, active := e'.active
    root := e'.root, rootValid := e'.rootValid }

/-- C_MERGE runs to the tree of the greedy merge. -/
theorem exists_merged {fuel : Nat} {s : State} {act : List Entry} (hqueue : s.host.queue = [])
    (hphase : s.eng.phase = .cMerge) (hlength : act.length = fuel) (hne : act ≠ []) (h : Merging s.eng act) :
    ∃ tree t, mergeEntries fuel s.eng.ncount.toNat act = some tree ∧ ReachesIn fuel s t ∧ SameBlock s t ∧
      t.outMem = s.outMem ∧ GoesTo .cCode t ∧ s.eng.MergeFrame t.eng ∧ t.eng.rootValid = true ∧
      tree.StandsAt t.eng (fun _ => True) t.eng.root := by
  induction fuel generalizing s act with
  | zero => exact absurd (List.length_eq_zero_iff.mp hlength) hne
  | succ fuel ih =>
    have hstep {t : State} (ht : s.mergeStep = t) : step s = .next t :=
      step_alone_plain hqueue (by simp [hphase]) ((engineStep_cMerge hphase).trans (congrArg _ ht))
    unfold mergeEntries
    obtain ⟨-, hnone⟩ | ⟨x, a, hx, ha, hxa⟩ := leastKey_leastEntry h.represents
    · exact absurd (leastEntry_eq_none hnone) hne
    obtain ⟨hnokey, hnone⟩ | ⟨y, b, hy, hb, hyb⟩ := leastKey_leastEntry (forall₂_erase h.represents hxa)
    · refine ⟨a.tree, _, by simp only [ha, hnone], (ReachesIn.of_step (hstep (State.mergeStep_of_one hx hnokey))).mono
        (by omega), rfl, rfl, ⟨rfl, rfl⟩, rfl, rfl, ?_⟩
      exact hxa.tree.frame (fun _ _ => trivial) fun _ _ => rfl
    · have hmerging := merging_merge h (s.eng.leastKey_mem _ x hx) (s.eng.leastKey_mem _ y hy) (leastEntry_mem ha)
        (leastEntry_mem hb) hxa hyb
      have hlengtha := List.length_erase_of_mem (leastEntry_mem ha)
      have hlengthb := List.length_erase_of_mem (leastEntry_mem hb)
      have hposb := List.length_pos_of_mem (leastEntry_mem hb)
      have hroom := h.ok.room
      have hlengthAct := h.represents.length_eq
      obtain ⟨tree, t, htree, hreach, hsame, hout, hgoes, hframe, hvalid, hstands⟩ :=
        ih (s := { s with eng := s.eng.merge x y ((s.eng.active.erase x).erase y) }) hqueue hphase
          (by rw [List.length_append, List.length_singleton]; omega) (by simp) hmerging
      have hnext : (s.eng.merge x y ((s.eng.active.erase x).erase y)).ncount.toNat = s.eng.ncount.toNat + 1 :=
        bitVec_toNat_add_one (by omega)
      rw [hnext] at htree
      refine ⟨tree, t, by simp only [ha, hb]; exact htree, ?_, (sameBlock_eng s _).trans hsame, hout, hgoes, hframe, hvalid,
        hstands⟩
      exact ((ReachesIn.of_step (hstep (State.mergeStep_of_two hx hy))).trans hreach).mono (by omega)

/-! ### C_COUNT (R160) -/

/-- C_COUNT has counted the first i bytes. -/
structure Counting (s₀ : State) (i : Nat) (s : State) : Prop where
  same : SameBlock s₀ s
  out : s.outMem = s₀.outMem
  phase : s.eng.phase = .cCount
  entering : s.eng.entering = false
  iptr : s.eng.iptr.toNat = i
  freq : ∀ b, (s.eng.freqAt b).toNat = (s₀.inMem.readList 0 i).count b

theorem counting_step {s₀ s : State} {i : Nat} (hqueue : s₀.host.queue = []) (hi : i < s₀.regs.inLen.toNat)
    (h : Counting s₀ i s) : ∃ t, step s = .next t ∧ Counting s₀ (i + 1) t := by
  obtain ⟨hsame, hout, hphase, henter, hiptr, hfreq⟩ := h
  have hinLen := s₀.regs.inLen.isLt
  have hstep := step_alone_plain (by rwa [hsame.host]) (by simp [hphase])
    (engineStep_cCount_byte hphase henter (by rwa [hsame.regs, hiptr]))
  refine ⟨_, hstep, hsame.trans (sameBlock_eng _ _), hout, hphase, henter, ?_, fun b => ?_⟩
  · rw [← hiptr]
    exact bitVec_toNat_add_one (by omega)
  · rw [hsame.inMem, hiptr, Memory.readList_succ, List.count_append, List.count_singleton, Nat.zero_add, ← hfreq]
    refine (congrArg BitVec.toNat (s.eng.freqAt_countSym _ b)).trans ?_
    by_cases hb : b = s₀.inMem.read i
    · have hle : (s.eng.freqAt b).toNat ≤ i := by
        have hle := List.count_le_length (a := b) (l := s₀.inMem.readList 0 i)
        rwa [Memory.readList_length, ← hfreq] at hle
      rw [if_pos hb, if_pos (by simp [hb]), bitVec_toNat_add_one (by omega)]
    · rw [if_neg hb, if_neg (by simpa using Ne.symm hb), Nat.add_zero]

/-- C_COUNT runs to C_LEAF with the counts of the input. -/
theorem exists_counted {s : State} (hqueue : s.host.queue = []) (hgoes : GoesTo .cCount s) :
    ∃ t, ReachesIn (s.regs.inLen.toNat + 2) s t ∧ SameBlock s t ∧ t.outMem = s.outMem ∧ GoesTo .cLeaf t ∧
      ∀ b, (t.eng.freqAt b).toNat = occurrences (s.inMem.readList 0 s.regs.inLen.toNat) b := by
  obtain ⟨hphase, henter⟩ := hgoes
  have hentry := step_alone_plain hqueue (by simp [hphase]) (engineStep_cCount_entry hphase henter)
  have hstart : Counting s 0 { s with eng := s.eng.startCount } :=
    ⟨rfl, rfl, hphase, rfl, rfl, fun b => congrArg BitVec.toNat (s.eng.freqAt_startCount b)⟩
  obtain ⟨t, hreach, hcounted⟩ := exists_reachesIn_of_loop (fun i u hi hu => counting_step hqueue hi hu)
    (Nat.zero_le s.regs.inLen.toNat) hstart
  obtain ⟨hsame, hout, htphase, htenter, hiptr, hfreq⟩ := hcounted
  have hend := step_alone_plain (by rwa [hsame.host]) (by simp [htphase])
    (engineStep_cCount_end htphase htenter (by rw [hsame.regs, hiptr]))
  exact ⟨_, (((ReachesIn.of_step hentry).trans hreach).trans (.of_step hend)).mono (by omega),
    hsame.trans (sameBlock_eng _ _), hout, ⟨rfl, rfl⟩, hfreq⟩

/-! ### C_LEAF (R163) -/

theorem leafEntries_append (F : Byte → Nat) (bytes : List Byte) (b : Byte) (n : Nat) :
    leafEntries F (bytes ++ [b]) n = leafEntries F bytes n ++
      if F b = 0 then [] else [⟨F b, n + (leafEntries F bytes n).length, .leaf b⟩] := by
  induction bytes generalizing n with
  | nil => simp [leafEntries]
  | cons c cs ih =>
    rw [List.cons_append, leafEntries, leafEntries, ih, ih]
    split_ifs <;> simp [Nat.add_assoc, Nat.add_comm 1]

theorem allBytes_take_succ {j : Nat} (hj : j < 256) : allBytes.take (j + 1) = allBytes.take j ++ [BitVec.ofNat 8 j] := by
  rw [List.take_add_one]
  simp [allBytes, hj]

/-- C_LEAF has examined the first j byte values. -/
structure Leafing (s₀ : State) (j : Nat) (s : State) : Prop where
  same : SameBlock s₀ s
  out : s.outMem = s₀.outMem
  phase : s.eng.phase = .cLeaf
  entering : s.eng.entering = false
  freq : s.eng.freq = s₀.eng.freq
  leafSym : s.eng.leafSym.toNat = j
  ok : LeavesOk s.eng
  represents : List.Forall₂ (Represents s.eng) s.eng.active
    (leafEntries (fun b => (s₀.eng.freqAt b).toNat) (allBytes.take j) 0)

theorem Engine.freqAt_of_freq {e e' : Engine} (h : e'.freq = e.freq) (b : Byte) : e'.freqAt b = e.freqAt b := by
  rw [Engine.freqAt, h, Engine.freqAt]

theorem represents_addLeaf {e : Engine} {act : List Entry} {b : Byte} (hok : LeavesOk e) (hseen : e.leafSym.toNat < 256)
    (h : List.Forall₂ (Represents e) e.active act) :
    List.Forall₂ (Represents { e.addLeaf b with leafSym := e.leafSym + 1 }) (e.addLeaf b).active
      (act ++ [⟨(e.freqAt b).toNat, act.length, .leaf b⟩]) := by
  have hlength := h.length_eq
  have hcount := hok.count
  have hactive := hok.length
  obtain ⟨i, hi⟩ : ∃ i : NodeIdx, i.val = e.ncount.toNat := ⟨⟨e.ncount.toNat, by omega⟩, rfl⟩
  have hncount : (e.ncount + 1).toNat = e.ncount.toNat + 1 := bitVec_toNat_add_one (by omega)
  rw [Engine.addLeaf_eq hi]
  have hnew := e.nodeAt_setNode_same i (.leaf b (e.freqAt b))
  have hkept (j : NodeIdx) (hj : j.val < e.ncount.toNat) :=
    e.nodeAt_setNode_other (.leaf b (e.freqAt b)) (Fin.ne_of_lt (show j < i by rw [Fin.lt_def, hi]; exact hj))
  have hbelow : i.val < (e.ncount + 1).toNat := by omega
  have hidx : act.length = i.val := by omega
  exact forall₂_append_new h (hncount ▸ Nat.le_succ _) hkept
    ⟨hidx, congrArg (fun n => n.freq.toNat) hnew, hbelow, e.freqAt b, hnew⟩

theorem leafing_step {s₀ s : State} {j : Nat} (hqueue : s₀.host.queue = []) (hj : j < 256) (h : Leafing s₀ j s) :
    ∃ t, step s = .next t ∧ Leafing s₀ (j + 1) t := by
  obtain ⟨hsame, hout, hphase, henter, hfreq, hleafSym, hok, hrepresents⟩ := h
  have hqueue' : s.host.queue = [] := by rwa [hsame.host]
  have hb : s.eng.leafSym.toNat = (BitVec.ofNat 8 j).toNat := by
    rw [hleafSym, BitVec.toNat_ofNat, Nat.mod_eq_of_lt hj]
  have hnext : (s.eng.leafSym + 1).toNat = j + 1 := by rw [bitVec_toNat_add_one (by omega), hleafSym]
  have hfreqAt : s.eng.freqAt (BitVec.ofNat 8 j) = s₀.eng.freqAt (BitVec.ofNat 8 j) := Engine.freqAt_of_freq hfreq _
  have hzero : (s₀.eng.freqAt (BitVec.ofNat 8 j)).toNat = 0 ↔ s.eng.freqAt (BitVec.ofNat 8 j) = 0 := by
    rw [hfreqAt]
    exact BitVec.toNat_inj (y := 0#32)
  by_cases habsent : s.eng.freqAt (BitVec.ofNat 8 j) = 0
  · refine ⟨_, step_alone_plain hqueue' (by simp [hphase]) (engineStep_cLeaf_absent hphase henter hb habsent),
      hsame.trans (sameBlock_eng _ _), hout, hphase, henter, hfreq, hnext, leavesOk_skip hok (by omega), ?_⟩
    rw [allBytes_take_succ hj, leafEntries_append, if_pos (hzero.mpr habsent), List.append_nil]
    exact hrepresents.imp fun _ _ hxa => hxa.frame le_rfl fun _ _ => rfl
  · refine ⟨_, step_alone_plain hqueue' (by simp [hphase]) (engineStep_cLeaf_present hphase henter hb habsent),
      hsame.trans (sameBlock_eng _ _), hout, hphase, henter, hfreq, hnext, leavesOk_addLeaf hok (by omega), ?_⟩
    rw [allBytes_take_succ hj, leafEntries_append, if_neg (mt hzero.mp habsent), ← hfreqAt, Nat.zero_add]
    exact represents_addLeaf hok (by omega) hrepresents

/-- C_LEAF runs to C_MERGE with a leaf of each present byte value. -/
theorem exists_leafed {s : State} (hqueue : s.host.queue = []) (hgoes : GoesTo .cLeaf s) :
    ∃ t, ReachesIn 258 s t ∧ SameBlock s t ∧ t.outMem = s.outMem ∧ GoesTo .cMerge t ∧ t.eng.freq = s.eng.freq ∧
      MergesOk t.eng ∧ t.eng.ncount.toNat = t.eng.active.length ∧ t.eng.kReg.toNat = t.eng.active.length ∧
      List.Forall₂ (Represents t.eng) t.eng.active
        (leafEntries (fun b => (s.eng.freqAt b).toNat) allBytes 0) := by
  obtain ⟨hphase, henter⟩ := hgoes
  have hentry := step_alone_plain hqueue (by simp [hphase]) (engineStep_cLeaf_entry hphase henter)
  have hstart : Leafing s 0 { s with eng := s.eng.startLeaf } := ⟨rfl, rfl, hphase, rfl, rfl, rfl,
    ⟨List.nodup_nil, nofun, rfl, Nat.le_refl _, Nat.zero_le _⟩, .nil⟩
  obtain ⟨t, hreach, hleafed⟩ := exists_reachesIn_of_loop (fun j u hj hu => leafing_step hqueue hj hu)
    (Nat.zero_le 256) hstart
  obtain ⟨hsame, hout, htphase, htenter, hfreq, hleafSym, hok, hrepresents⟩ := hleafed
  have hend := step_alone_plain (by rwa [hsame.host]) (by simp [htphase])
    (engineStep_cLeaf_end htphase htenter hleafSym.ge)
  have hcount := hok.count
  have hlength := hok.length
  refine ⟨_, (((ReachesIn.of_step hentry).trans hreach).trans (.of_step hend)).mono (by omega),
    hsame.trans (sameBlock_eng _ _), hout, ⟨rfl, rfl⟩, hfreq, ⟨hok.nodup, hok.below, ?_⟩, hlength.symm, ?_, ?_⟩
  · dsimp only
    omega
  · dsimp only
    rw [BitVec.toNat_setWidth, Nat.mod_eq_of_lt (by omega), hlength]
  · rw [List.take_of_length_le (by simp [allBytes])] at hrepresents
    exact hrepresents.imp fun _ _ hxa => hxa.frame le_rfl fun _ _ => rfl

/-! ### Sums over the byte values (R169, R194) -/

/-- A sum over the bytes of an input, by byte value. -/
theorem sum_allBytes_count (input : List Byte) (g : Byte → Nat) :
    (allBytes.map fun b => occurrences input b * g b).sum = (input.map g).sum := by
  rw [Finset.sum_list_map_count input g, ← List.sum_toFinset _ nodup_allBytes]
  refine (Finset.sum_subset (fun b _ => List.mem_toFinset.mpr (mem_allBytes b)) fun b _ hb => ?_).symm
  rw [occurrences, List.count_eq_zero_of_not_mem (fun h => hb (List.mem_toFinset.mpr h)), Nat.zero_mul]

theorem sum_freq_leafEntries (F : Byte → Nat) (bytes : List Byte) (n : Nat) :
    ((leafEntries F bytes n).map Entry.freq).sum = (bytes.map F).sum := by
  induction bytes generalizing n with
  | nil => rfl
  | cons b bs ih =>
    rw [leafEntries, List.map_cons, List.sum_cons]
    split_ifs with habsent
    · rw [ih, habsent, Nat.zero_add]
    · rw [List.map_cons, List.sum_cons, ih]

theorem sum_freq_leaves (input : List Byte) :
    ((leafEntries (occurrences input) allBytes 0).map Entry.freq).sum = input.length := by
  have hsum := sum_allBytes_count input fun _ => 1
  simp only [Nat.mul_one, List.map_const', List.sum_replicate, smul_eq_mul] at hsum
  rw [sum_freq_leafEntries]
  exact hsum

/-! ### BuildTree (R169) -/

/-- The number of leaves, 0 without a tree. -/
def leafCount : Option PTree → Nat
  | none => 0
  | some tree => tree.syms.length

theorem entrySyms_leafEntries_length (F : Byte → Nat) (bytes : List Byte) (n : Nat) :
    (entrySyms (leafEntries F bytes n)).length = (leafEntries F bytes n).length := by
  induction bytes generalizing n with
  | nil => rfl
  | cons b bs ih =>
    rw [leafEntries]
    split_ifs
    · exact ih n
    · rw [entrySyms, List.flatMap_cons, ← entrySyms, List.length_append, ih, List.length_cons]
      exact Nat.add_comm _ _

/-- The root register holds the tree, or there is none. -/
def Engine.HasTree (e : Engine) : Option PTree → Prop
  | none => e.rootValid = false
  | some tree => e.rootValid = true ∧ tree.StandsAt e (fun _ => True) e.root

/-- The tree builder runs from C_COUNT to C_CODE with BuildTree of its input in the arena. -/
theorem exists_built {s : State} (hqueue : s.host.queue = []) (hgoes : GoesTo .cCount s) :
    ∃ t o, o = buildTree (occurrences (s.inMem.readList 0 s.regs.inLen.toNat)) ∧
      ReachesIn (s.regs.inLen.toNat + 260 + max 1 (leafCount o)) s t ∧ SameBlock s t ∧ t.outMem = s.outMem ∧
      GoesTo .cCode t ∧ t.eng.HasTree o ∧ t.eng.kReg.toNat = leafCount o ∧
      ∀ b, (t.eng.freqAt b).toNat = occurrences (s.inMem.readList 0 s.regs.inLen.toNat) b := by
  obtain ⟨t₁, hreach₁, hsame₁, hout₁, hgoes₁, hfreq₁⟩ := exists_counted hqueue hgoes
  obtain ⟨t₂, hreach₂, hsame₂, hout₂, ⟨hphase₂, henter₂⟩, hfreq₂, hok, hncount, hkReg, hrepresents⟩ :=
    exists_leafed (by rwa [hsame₁.host]) hgoes₁
  rw [funext hfreq₁] at hrepresents
  have hqueue₂ : t₂.host.queue = [] := by rwa [hsame₂.host, hsame₁.host]
  have hcounts (b : Byte) : (t₂.eng.freqAt b).toNat = occurrences (s.inMem.readList 0 s.regs.inLen.toNat) b := by
    rw [Engine.freqAt_of_freq hfreq₂, hfreq₁]
  have hlength := hrepresents.length_eq
  by_cases hleaves : leafEntries (occurrences (s.inMem.readList 0 s.regs.inLen.toNat)) allBytes 0 = []
  · have hnone : buildTree (occurrences (s.inMem.readList 0 s.regs.inLen.toNat)) = none := by
      simp [buildTree, hleaves, mergeEntries]
    rw [hleaves, List.length_nil] at hlength
    have hstep := step_alone_plain hqueue₂ (by simp [hphase₂]) ((engineStep_cMerge hphase₂).trans
      (congrArg _ (State.mergeStep_of_nil (List.length_eq_zero_iff.mp hlength))))
    exact ⟨_, none, hnone.symm, ((hreach₁.trans hreach₂).trans (.of_step hstep)).mono (by simp [leafCount]),
      (hsame₁.trans hsame₂).trans (sameBlock_eng _ _), hout₂.trans hout₁, ⟨rfl, rfl⟩, rfl,
      hkReg.trans hlength, hcounts⟩
  · have hmerging : Merging t₂.eng _ := ⟨hok, hrepresents, by
      rw [sum_freq_leaves, Memory.readList_length]; exact s.regs.inLen.isLt⟩
    obtain ⟨tree, t, htree, hreach, hsame, hout, hgoes, hframe, hvalid, hstands⟩ :=
      exists_merged hqueue₂ hphase₂ rfl hleaves hmerging
    obtain ⟨tree', htree', hperm⟩ := mergeEntries_syms t₂.eng.ncount.toNat rfl hleaves
    obtain rfl := Option.some.inj (htree.symm.trans htree')
    have hcount : tree.syms.length = t₂.eng.active.length := by
      rw [hperm.length_eq, entrySyms_leafEntries_length, hlength]
    rw [hncount, hlength] at htree
    refine ⟨t, some tree, htree.symm, ((hreach₁.trans hreach₂).trans hreach).mono ?_,
      (hsame₁.trans hsame₂).trans hsame, hout.trans (hout₂.trans hout₁), hgoes, ⟨hvalid, hstands⟩, ?_, fun b => ?_⟩
    · rw [← hlength, leafCount, hcount]
      omega
    · rw [hframe]
      exact hkReg.trans hcount.symm
    · rw [hframe]
      exact hcounts b

end Sys2Proof.Machine
end

section
/-! COMPRESS before its payload: the code table, the sizes, the header and the tree (42_encoder.md, R190 to R196). -/

namespace Sys2Proof.Machine

/-! ### What COMPRESS computes, with or without a tree (R199) -/

/-- The code of a byte value. -/
def codesOf : Option PTree → Byte → List Bool
  | none, _ => []
  | some tree, b => tree.codeOf b

/-- The tree region. -/
def serOf : Option PTree → List Byte
  | none => []
  | some tree => tree.ser

/-- The payload bits of an input. -/
def payloadFor (o : Option PTree) (input : List Byte) : List Bool :=
  input.flatMap (codesOf o)

theorem payloadFor_none (input : List Byte) : payloadFor none input = [] :=
  List.flatMap_eq_nil_iff.mpr fun _ _ => rfl

/-- The header, the tree region and the payload region of an input. -/
def bufferFor (o : Option PTree) (input : List Byte) : List Byte :=
  compressedBuffer (BitVec.ofNat 32 (serOf o).length) (BitVec.ofNat 32 (payloadFor o input).length) (serOf o)
    (pack (payloadFor o input))

/-- The tree has distinct leaves and every input byte has a code. -/
structure CodesFor (o : Option PTree) (input : List Byte) : Prop where
  nodup : ∀ tree, o = some tree → tree.syms.Nodup
  coded : ∀ b ∈ input, 0 < (codesOf o b).length

theorem buildTree_codesFor (input : List Byte) : CodesFor (buildTree (occurrences input)) input := by
  have hpresent {b : Byte} (hb : b ∈ input) : occurrences input b ≠ 0 := (List.count_pos_iff.mpr hb).ne'
  obtain ⟨hnone, habsent⟩ | ⟨tree, hbuild, hnodup, hleaves⟩ := buildTree_cases (occurrences input)
  · rw [hnone]
    exact ⟨nofun, fun b hb => absurd (habsent b) (hpresent hb)⟩
  · rw [hbuild]
    exact ⟨fun _ h => Option.some.inj h ▸ hnodup,
      fun b hb => PTree.codeOf_length_pos ((hleaves b).mpr (hpresent hb))⟩

theorem compress_eq {input : List Byte} {o : Option PTree} (h : o = buildTree (occurrences input)) :
    compress input =
      { out := bufferFor o input, T := (serOf o).length, B := (payloadFor o input).length, k := leafCount o } := by
  cases o with
  | some tree => exact compress_of_tree h.symm
  | none =>
    rw [compress_of_no_tree h.symm, bufferFor, payloadFor_none]
    rfl

section
variable {o : Option PTree} {input : List Byte}

theorem codesOf_length_le (h : CodesFor o input) (b : Byte) : (codesOf o b).length ≤ 255 := by
  cases o with
  | none => exact Nat.zero_le _
  | some tree => exact PTree.codeOf_length_le (h.nodup tree rfl) b

theorem payloadFor_length_le (h : CodesFor o input) : (payloadFor o input).length ≤ 255 * input.length := by
  cases o with
  | none =>
    rw [payloadFor_none]
    exact Nat.zero_le _
  | some tree => exact payloadOf_length_le (h.nodup tree rfl) input

theorem serOf_length (o : Option PTree) : (serOf o).length = treeLenOf (leafCount o) := by
  cases o with
  | none => rfl
  | some tree =>
    have hser := tree.ser_length
    have hpos := tree.syms_length_pos
    rw [leafCount, treeLenOf, if_neg (by omega), serOf]
    omega

theorem leafCount_le (h : CodesFor o input) : leafCount o ≤ 256 := by
  cases o with
  | none => exact Nat.zero_le _
  | some tree => exact length_le_of_nodup (h.nodup tree rfl)

end

theorem Engine.HasTree.congr {e e' : Engine} {o : Option PTree} (h : e.HasTree o) (hnode : e'.node = e.node)
    (hroot : e'.root = e.root) (hvalid : e'.rootValid = e.rootValid) : e'.HasTree o := by
  cases o with
  | none => exact hvalid.trans h
  | some tree =>
    obtain ⟨hrootValid, hstands⟩ := h
    refine ⟨hvalid.trans hrootValid, hroot ▸ hstands.frame (fun _ hj => hj) fun j _ => ?_⟩
    rw [Engine.nodeAt, hnode, Engine.nodeAt]

/-! ### C_CODE (R190, R191) -/

/-- The code table after a walk of the tree from a node whose path is p. -/
def codesAfter (tree : PTree) (p : List Bool) (old : Byte → List Bool) (b : Byte) : List Bool :=
  ((tree.path b).map (p ++ ·)).getD (old b)

theorem PTree.path_of_not_mem {tree : PTree} {b : Byte} (h : b ∉ tree.syms) : tree.path b = none := by
  cases hpath : tree.path b with
  | none => rfl
  | some p => exact absurd (PTree.mem_syms_of_path hpath) h

theorem codesAfter_leaf (sym : Byte) (p : List Bool) (old : Byte → List Bool) (b : Byte) :
    codesAfter (.leaf sym) p old b = if b = sym then p else old b := by
  unfold codesAfter PTree.path
  by_cases h : sym = b
  · rw [if_pos h, if_pos h.symm]
    exact List.append_nil p
  · rw [if_neg h, if_neg (Ne.symm h)]
    rfl

theorem codesAfter_node {l r : PTree} (hnodup : (PTree.node l r).syms.Nodup) (p : List Bool) (old : Byte → List Bool)
    (b : Byte) : codesAfter (.node l r) p old b = codesAfter r (p ++ [true]) (codesAfter l (p ++ [false]) old) b := by
  unfold codesAfter
  conv_lhs => unfold PTree.path
  cases hleft : l.path b with
  | none => cases r.path b <;> simp
  | some q =>
    have hright : r.path b = none := PTree.path_of_not_mem fun hr =>
      List.disjoint_of_nodup_append hnodup (PTree.mem_syms_of_path hleft) hr
    simp [hright]

/-- From the node on top of the stack the walk gives the leaves below it their codes. -/
theorem exists_walked_codes {tree : PTree} {s : State} {n : NodeIdx} {p : List Bool} {rest : List (NodeIdx × List Bool)}
    (hqueue : s.host.queue = []) (hphase : s.eng.phase = .cCode) (henter : s.eng.entering = false)
    (hstack : s.eng.codeStack = (n, p) :: rest) (hstands : tree.StandsAt s.eng (fun _ => True) n)
    (hnodup : tree.syms.Nodup) :
    ∃ c, ReachesIn (2 * tree.syms.length - 1) s { s with eng := { s.eng with code := c, codeStack := rest } } ∧
      ∀ b, ({ s.eng with code := c } : Engine).codeAt b = codesAfter tree p s.eng.codeAt b := by
  have hmoves : s.eng.phase ≠ .idle := by simp [hphase]
  induction tree generalizing s n p rest with
  | leaf sym =>
    obtain ⟨-, f, hnode⟩ := hstands
    refine ⟨(s.eng.setCode sym p).code, .of_step (step_alone_plain hqueue hmoves
      (engineStep_cCode_leaf hphase henter hstack hnode)), fun b => ?_⟩
    rw [codesAfter_leaf]
    exact s.eng.codeAt_setCode sym b p
  | node l r ihl ihr =>
    obtain ⟨-, f, x, y, hnode, hl, hr⟩ := hstands
    obtain ⟨hnodupl, hnodupr, -⟩ := List.nodup_append.mp hnodup
    have hstep := step_alone_plain hqueue hmoves (engineStep_cCode_internal hphase henter hstack hnode)
    obtain ⟨c, hleft, hcodesl⟩ := ihl
      (s := { s with eng := { s.eng with codeStack := (x, p ++ [false]) :: (y, p ++ [true]) :: rest } })
      hqueue hphase henter rfl (hl.frame (fun _ h => h) fun _ _ => rfl) hnodupl hmoves
    obtain ⟨c', hright, hcodesr⟩ := ihr
      (s := { s with eng := { s.eng with code := c, codeStack := (y, p ++ [true]) :: rest } })
      hqueue hphase henter rfl (hr.frame (fun _ h => h) fun _ _ => rfl) hnodupr hmoves
    have hposl := l.syms_length_pos
    have hposr := r.syms_length_pos
    refine ⟨c', (((ReachesIn.of_step hstep).trans hleft).trans hright).mono ?_, fun b => ?_⟩
    · rw [PTree.syms, List.length_append]
      omega
    · rw [codesAfter_node hnodup, ← show _ = codesAfter l _ s.eng.codeAt from funext hcodesl]
      exact hcodesr b

theorem codesAfter_root {l r : PTree} (b : Byte) :
    codesAfter (.node l r) [] (fun _ => []) b = (PTree.node l r).codeOf b := by
  rw [codesAfter, PTree.codeOf]
  cases (PTree.node l r).path b <;> rfl

/-- C_CODE runs to C_SIZE with the code of every byte value. -/
theorem exists_coded {s : State} {o : Option PTree} (hqueue : s.host.queue = []) (hgoes : GoesTo .cCode s)
    (htree : s.eng.HasTree o) (hnodup : ∀ tree, o = some tree → tree.syms.Nodup) :
    ∃ e, ReachesIn (2 * leafCount o + 1) s { s with eng := e } ∧
      e = { s.eng with phase := .cSize, entering := true, code := e.code, codeStack := e.codeStack } ∧
      ∀ b, e.codeAt b = codesOf o b := by
  obtain ⟨hphase, henter⟩ := hgoes
  have hmoves : s.eng.phase ≠ .idle := by simp [hphase]
  have hstep {t : State} (h : s.engineStep = .plain t) : ReachesIn 1 s t :=
    .of_step (step_alone_plain hqueue hmoves h)
  match o, htree with
  | none, hvalid =>
    exact ⟨_, (hstep (engineStep_cCode_noTree hphase henter hvalid)).mono (by omega), rfl, s.eng.codeAt_clearCode⟩
  | some (.leaf sym), ⟨hvalid, _, f, hroot⟩ =>
    refine ⟨_, (hstep (engineStep_cCode_oneLeaf hphase henter hvalid hroot)).mono (by omega), rfl, fun b => ?_⟩
    refine (s.eng.clearCode.codeAt_setCode sym b [false]).trans ?_
    rw [s.eng.codeAt_clearCode, codesOf, PTree.codeOf]
    exact if_congr eq_comm rfl rfl
  | some (.node l r), ⟨hvalid, hstands⟩ =>
    have ⟨_, f, x, y, hroot, _, _⟩ := hstands
    obtain ⟨c, hwalk, hcodes⟩ := exists_walked_codes
      (s := { s with eng := { s.eng.clearCode with codeStack := [(s.eng.root, [])] } })
      hqueue hphase rfl rfl (hstands.frame (fun _ h => h) fun _ _ => rfl) (hnodup _ rfl)
    have hend := step_alone_plain (s := { s with eng := { s.eng.clearCode with code := c, codeStack := [] } })
      hqueue hmoves (engineStep_cCode_end hphase rfl rfl)
    refine ⟨_, (((hstep (engineStep_cCode_entry hphase henter hvalid hroot)).trans hwalk).trans (.of_step hend)).mono ?_,
      rfl, fun b => ?_⟩
    · have hpos := (PTree.node l r).syms_length_pos
      rw [leafCount]
      omega
    · rw [codesOf, ← codesAfter_root, ← show _ = fun _ => [] from funext s.eng.codeAt_clearCode]
      exact hcodes b

/-! ### C_SIZE (R194) -/

theorem payloadBits_eq {e : Engine} {o : Option PTree} {input : List Byte}
    (hfreq : ∀ b, (e.freqAt b).toNat = occurrences input b) (hcode : ∀ b, e.codeAt b = codesOf o b) :
    e.payloadBits = (payloadFor o input).length := by
  have hsum := sum_allBytes_count input fun b => (codesOf o b).length
  rw [allBytes, List.map_map] at hsum
  rw [payloadFor, List.length_flatMap, ← hsum, Engine.payloadBits]
  simp only [hfreq, hcode, Function.comp_def]

theorem encodedLen_eq {e : Engine} {o : Option PTree} {input : List Byte} (hkReg : e.kReg.toNat = leafCount o)
    (hbits : e.payloadBits = (payloadFor o input).length) : e.encodedLen = (bufferFor o input).length := by
  rw [Engine.encodedLen, hkReg, hbits, bufferFor, compressedBuffer_length, pack_length, serOf_length]

/-! ### C_TREE (R196) -/

/-- From the node on top of the stack the walk writes the tokens of the tree below it. -/
theorem exists_walked_tokens {tree : PTree} {s : State} {n : NodeIdx} {rest : List NodeIdx}
    (hqueue : s.host.queue = []) (hphase : s.eng.phase = .cTree) (henter : s.eng.entering = false)
    (hstack : s.eng.treeStack = n :: rest) (hstands : tree.StandsAt s.eng (fun _ => True) n)
    (hroom : s.eng.optr.toNat + tree.ser.length < 2 ^ 32) :
    ∃ p, ReachesIn (2 * tree.syms.length - 1) s { s with
        eng := { s.eng with optr := p, treeStack := rest }
        outMem := s.outMem.writeList s.eng.optr.toNat tree.ser } ∧
      p.toNat = s.eng.optr.toNat + tree.ser.length := by
  have hmoves : s.eng.phase ≠ .idle := by simp [hphase]
  induction tree generalizing s n rest with
  | leaf sym =>
    obtain ⟨-, f, hnode⟩ := hstands
    rw [PTree.ser, List.length_cons, List.length_singleton] at hroom
    refine ⟨_, .of_step (step_alone_plain hqueue hmoves (engineStep_cTree_leaf hphase henter hstack hnode)), ?_⟩
    rw [BitVec.toNat_add, PTree.ser, List.length_cons, List.length_singleton]
    exact Nat.mod_eq_of_lt hroom
  | node l r ihl ihr =>
    obtain ⟨-, f, x, y, hnode, hl, hr⟩ := hstands
    rw [PTree.ser, List.length_cons, List.length_append] at hroom ⊢
    have hnext : (s.eng.optr + 1).toNat = s.eng.optr.toNat + 1 := bitVec_toNat_add_one (by omega)
    have hstep := step_alone_plain hqueue hmoves (engineStep_cTree_internal hphase henter hstack hnode)
    obtain ⟨p, hleft, hp⟩ := ihl
      (s := { s with eng := { s.eng with optr := s.eng.optr + 1, treeStack := x :: y :: rest }
                     outMem := s.outMem.write s.eng.optr.toNat 0x00#8 })
      hqueue hphase henter rfl (hl.frame (fun _ h => h) fun _ _ => rfl) (by dsimp only; omega) hmoves
    dsimp only at hleft hp
    obtain ⟨p', hright, hp'⟩ := ihr
      (s := { s with eng := { s.eng with optr := p, treeStack := y :: rest }
                     outMem := (s.outMem.write s.eng.optr.toNat 0x00#8).writeList (s.eng.optr + 1).toNat l.ser })
      hqueue hphase henter rfl (hr.frame (fun _ h => h) fun _ _ => rfl) (by dsimp only; omega) hmoves
    dsimp only at hright hp'
    have hposl := l.syms_length_pos
    have hposr := r.syms_length_pos
    refine ⟨p', ?_, by omega⟩
    rw [hp, hnext, ← Memory.writeList_append, ← Memory.writeList] at hright
    rw [hnext] at hleft
    refine (((ReachesIn.of_step hstep).trans hleft).trans hright).mono ?_
    rw [PTree.syms, List.length_append]
    omega

/-- C_TREE runs to C_ENC with the tree region written from address 8 on. -/
theorem exists_treeWritten {s : State} {o : Option PTree} (hqueue : s.host.queue = []) (hgoes : GoesTo .cTree s)
    (htree : s.eng.HasTree o) (hroom : 8 + (serOf o).length < 2 ^ 32) :
    ∃ e, ReachesIn (2 * leafCount o + 1) s { s with eng := e, outMem := s.outMem.writeList 8 (serOf o) } ∧
      e = { s.eng with phase := .cEnc, entering := true, optr := e.optr, treeStack := e.treeStack } := by
  obtain ⟨hphase, henter⟩ := hgoes
  have hmoves : s.eng.phase ≠ .idle := by simp [hphase]
  cases o with
  | none =>
    have hstep := step_alone_plain hqueue hmoves (engineStep_cTree_noTree hphase henter htree)
    exact ⟨_, (ReachesIn.of_step hstep).mono (by omega), rfl⟩
  | some tree =>
    obtain ⟨hvalid, hstands⟩ := htree
    have hentry := step_alone_plain hqueue hmoves (engineStep_cTree_entry hphase henter hvalid)
    obtain ⟨p, hwalk, -⟩ := exists_walked_tokens
      (s := { s with eng := { s.eng with entering := false, optr := 8, treeStack := [s.eng.root] } })
      hqueue hphase rfl rfl (hstands.frame (fun _ h => h) fun _ _ => rfl) hroom
    have hend := step_alone_plain (s := { s with
        eng := { s.eng with entering := false, optr := p, treeStack := [] }
        outMem := s.outMem.writeList 8 tree.ser }) hqueue hmoves (engineStep_cTree_end hphase rfl rfl)
    refine ⟨_, (((ReachesIn.of_step hentry).trans hwalk).trans (.of_step hend)).mono ?_, rfl⟩
    have hpos := tree.syms_length_pos
    rw [leafCount]
    omega

end Sys2Proof.Machine
end

section
/-! COMPRESS packs its payload, and the whole command (42_encoder.md, R197 to R200). -/

namespace Sys2Proof.Machine

/-! ### How a command ends (R147, R148, R287) -/

/-- The registers a command leaves: its results, or none of them and its error. -/
def Regs.published (r : Regs) : Except ErrorKind Result → Regs
  | .ok res => (r.setResults (BitVec.ofNat 32 res.out.length) (BitVec.ofNat 32 res.T) (BitVec.ofNat 32 res.B)
      (BitVec.ofNat 9 res.k)).finishFlags none
  | .error k => (r.setResults 0 0 0 0).finishFlags (some k)

/-- The results fit the registers that publish them. -/
structure Result.Fits (res : Result) : Prop where
  out : res.out.length < 2 ^ 32
  T : res.T < 2 ^ 32
  B : res.B < 2 ^ 32
  k : res.k < 2 ^ 9

theorem Regs.published_ok (r : Regs) {res : Result} (h : res.Fits) :
    (r.published (.ok res)).outLen.toNat = res.out.length ∧ (r.published (.ok res)).treeLen.toNat = res.T ∧
      (r.published (.ok res)).bitCount.toNat = res.B ∧ (r.published (.ok res)).nsym.toNat = res.k :=
  ⟨Nat.mod_eq_of_lt h.out, Nat.mod_eq_of_lt h.T, Nat.mod_eq_of_lt h.B, Nat.mod_eq_of_lt h.k⟩

/-- What a command does to OUT_MEM. -/
def OutputLeft (s t : State) : Except ErrorKind Result → Prop
  | .ok res => t.outMem = s.outMem.writeList 0 res.out
  | .error k => BytesKeptFrom s.regs.outCap.toNat s.outMem t.outMem ∧
      (leavesOutputOpen s.regs.op (some k) = false → t.outMem = s.outMem)

/-- The command of s has ended in t with a result or an error. -/
structure EndsWith (s t : State) (res : Except ErrorKind Result) : Prop where
  idle : t.eng.phase = .idle
  inMem : t.inMem = s.inMem
  regs : t.regs = s.regs.published res
  output : OutputLeft s t res
  fits : ∀ r, res = .ok r → r.Fits

/-- After success OUT_MEM holds the output from address 0 on, and is otherwise as it was. -/
theorem EndsWith.output_ok {s t : State} {res : Result} (h : EndsWith s t (.ok res)) :
    t.outMem.readList 0 res.out.length = res.out ∧ BytesKeptFrom res.out.length s.outMem t.outMem := by
  have hkept := s.outMem.writeList_kept_from 0 res.out
  rw [Nat.zero_add] at hkept
  rw [show t.outMem = s.outMem.writeList 0 res.out from h.output]
  exact ⟨s.outMem.readList_writeList 0 res.out, hkept⟩

section
variable {s u : State}

/-- FINISH after an error, which has left OUT_MEM as it was but below OUT_CAP and then only if the error opens it. -/
theorem exists_ended_error {k : ErrorKind} (hqueue : s.host.queue = []) (hsame : SameBlock s u)
    (hphase : u.eng.phase = .finish) (hpending : u.eng.pending = some k)
    (hkept : BytesKeptFrom s.regs.outCap.toNat s.outMem u.outMem)
    (hout : leavesOutputOpen s.regs.op (some k) = false → u.outMem = s.outMem) :
    ∃ t, ReachesIn 1 u t ∧ EndsWith s t (.error k) := by
  obtain ⟨t, hreach, hidle, hin, hregs, houtMem⟩ := finish_alone (by rwa [hsame.host]) hphase
  rw [State.publish, hpending, hsame.regs] at hregs
  rw [hpending, hsame.regs] at houtMem
  refine ⟨t, hreach, hidle, hin.trans hsame.inMem, hregs, ⟨?_, fun hclosed => ?_⟩, nofun⟩
  · intro a ha
    rw [houtMem]
    split_ifs
    · rw [Memory.read_scramble_kept _ _ _ _ ha, hkept a ha]
    · exact hkept a ha
  · rw [houtMem, if_neg (by simp [hclosed]), hout hclosed]

theorem exists_ended_raise {k : ErrorKind} (hqueue : s.host.queue = []) (hsame : SameBlock s u)
    (hout : u.outMem = s.outMem) : ∃ t, ReachesIn 1 (u.raise k) t ∧ EndsWith s t (.error k) :=
  exists_ended_error hqueue (hsame.trans (sameBlock_eng _ _)) rfl rfl (fun _ _ => by rw [State.raise_outMem, hout])
    fun _ => hout

/-- FINISH after success. -/
theorem exists_ended_ok {res : Result} (hqueue : s.host.queue = []) (hsame : SameBlock s u)
    (hphase : u.eng.phase = .finish) (hpending : u.eng.pending = none)
    (hlen : u.resultLen.toNat = res.out.length) (htree : u.eng.tReg.toNat = res.T)
    (hbits : u.eng.bReg.toNat = res.B) (hnsym : u.resultNsym.toNat = res.k)
    (hout : u.outMem = s.outMem.writeList 0 res.out) : ∃ t, ReachesIn 1 u t ∧ EndsWith s t (.ok res) := by
  obtain ⟨t, hreach, hidle, hin, hregs, houtMem⟩ := finish_alone (by rwa [hsame.host]) hphase
  have hpublished : t.regs = s.regs.published (.ok res) := by
    rw [hregs, State.publish, hpending, hsame.regs, Regs.published, ← hlen, ← htree, ← hbits, ← hnsym]
    simp only [BitVec.ofNat_toNat, BitVec.setWidth_eq]
  have hfits : res.Fits := ⟨hlen ▸ u.resultLen.isLt, htree ▸ u.eng.tReg.isLt, hbits ▸ u.eng.bReg.isLt,
    hnsym ▸ u.resultNsym.isLt⟩
  rw [hpending] at houtMem
  exact ⟨t, hreach, hidle, hin.trans hsame.inMem, hpublished, houtMem.trans hout, fun r hr => Except.ok.inj hr ▸ hfits⟩

end

/-! ### Packed bytes (R198) -/

theorem packByte_getLsbD (p : List Bool) (i : Nat) {k : Nat} (hk : k < 8) :
    (packByte p i).getLsbD k = p.getD (i + (7 - k)) false := by
  have hbit := streamBit_packByte p i (7 - k)
  rwa [streamBit, show 7 - (7 - k) % 8 = k by omega, Nat.mod_eq_of_lt (by omega)] at hbit

theorem packByte_of_length_le {p : List Bool} {i : Nat} (h : p.length ≤ i) : packByte p i = 0 := by
  apply BitVec.eq_of_getLsbD_eq
  intro k hk
  rw [packByte_getLsbD _ _ hk, List.getD_eq_default _ _ (by omega)]
  exact BitVec.getLsbD_zero.symm

theorem packByte_take {p : List Bool} {i n : Nat} (h : i + 8 ≤ n) : packByte (p.take n) i = packByte p i := by
  apply BitVec.eq_of_getLsbD_eq
  intro k hk
  rw [packByte_getLsbD _ _ hk, packByte_getLsbD _ _ hk]
  simp only [List.getD_eq_getElem?_getD]
  rw [List.getElem?_take_of_lt (by omega)]

/-- One more bit of a packed byte. -/
theorem setStreamBit_packByte {p : List Bool} {j : Nat} (hj : j < p.length) :
    setStreamBit (packByte (p.take j) (8 * (j / 8))) (j % 8) p[j] = packByte (p.take (j + 1)) (8 * (j / 8)) := by
  apply BitVec.eq_of_getLsbD_eq
  intro k hk
  have hmod : j % 8 < 8 := Nat.mod_lt _ (by decide)
  rw [setStreamBit_getLsbD _ hmod _ hk, packByte_getLsbD _ _ hk, packByte_getLsbD _ _ hk]
  simp only [List.getD_eq_getElem?_getD, List.getElem?_take]
  obtain hlt | heq | hgt := Nat.lt_trichotomy (8 * (j / 8) + (7 - k)) j
  · rw [if_neg (by omega), if_pos hlt, if_pos (by omega)]
  · rw [if_pos (by omega), if_pos (by omega), heq, List.getElem?_eq_getElem hj, Option.getD_some]
  · rw [if_neg (by omega), if_neg (by omega), if_neg (by omega)]

theorem pack_take_succ {p : List Bool} {q : Nat} (hq : q < ceilDiv8 p.length) :
    (pack p).take (q + 1) = (pack p).take q ++ [packByte p (8 * q)] := by
  have hget : (pack p)[q]? = some (packByte p (8 * q)) := by simp [pack, hq]
  rw [List.take_add_one, hget]
  rfl

/-! ### The code bit pointer (R197) -/

/-- After j payload bits the pointer stands at bit c of the code of input byte i. -/
structure CodePointer (input : List Byte) (codes : Byte → List Bool) (j i c : Nat) : Prop where
  rest : (input.flatMap codes).drop j = ((input.drop i).flatMap codes).drop c
  within : ∀ b, input[i]? = some b → c < (codes b).length

section
variable {input : List Byte} {codes : Byte → List Bool} {j i c : Nat} {b : Byte}

theorem codePointer_start (hcoded : ∀ b ∈ input, 0 < (codes b).length) : CodePointer input codes 0 0 0 :=
  ⟨rfl, fun b hb => hcoded b (List.mem_of_getElem? hb)⟩

theorem CodePointer.rest_cons (h : CodePointer input codes j i c) (hb : input[i]? = some b) :
    (input.flatMap codes).drop j = (codes b).drop c ++ (input.drop (i + 1)).flatMap codes := by
  obtain ⟨hi, rfl⟩ := List.getElem?_eq_some_iff.mp hb
  rw [h.rest, List.drop_eq_getElem_cons hi, List.flatMap_cons, List.drop_append_of_le_length (h.within _ hb).le]

/-- While payload bits are left there is an input byte, and the pointer's bit is the next of them. -/
theorem CodePointer.exists_bit (h : CodePointer input codes j i c) (hj : j < (input.flatMap codes).length) :
    ∃ b, input[i]? = some b ∧ (codes b)[c]? = some (input.flatMap codes)[j] := by
  cases hb : input[i]? with
  | none =>
    have hnone := h.rest
    rw [List.drop_eq_nil_of_le (List.getElem?_eq_none_iff.mp hb), List.flatMap_nil, List.drop_nil] at hnone
    exact absurd (List.drop_eq_nil_iff.mp hnone) (by omega)
  | some b =>
    have hrest := congrArg (·[0]?) (h.rest_cons hb)
    have hc := h.within b hb
    simp only [List.getElem?_drop, Nat.add_zero] at hrest
    rw [List.getElem?_append_left (by rw [List.length_drop]; omega), List.getElem?_drop, Nat.add_zero,
      List.getElem?_eq_getElem hj] at hrest
    exact ⟨b, rfl, hrest.symm⟩

/-- The last bit of a code leads to the next input byte. -/
theorem CodePointer.next_byte (h : CodePointer input codes j i c) (hcoded : ∀ b ∈ input, 0 < (codes b).length)
    (hb : input[i]? = some b) (hlast : c + 1 = (codes b).length) : CodePointer input codes (j + 1) (i + 1) 0 := by
  refine ⟨?_, fun b' hb' => hcoded b' (List.mem_of_getElem? hb')⟩
  have hc : c ≤ (codes b).length := by omega
  rw [← List.drop_drop, h.rest_cons hb, ← List.drop_append_of_le_length hc, List.drop_drop, hlast, List.drop_left,
    List.drop_zero]

/-- Another bit leads to the bit after it. -/
theorem CodePointer.next_bit (h : CodePointer input codes j i c) (hb : input[i]? = some b)
    (hlast : c + 1 ≠ (codes b).length) : CodePointer input codes (j + 1) i (c + 1) := by
  have hc := h.within b hb
  refine ⟨?_, fun b' hb' => ?_⟩
  · rw [← List.drop_drop, h.rest, List.drop_drop]
  · obtain rfl := Option.some.inj (hb.symm.trans hb')
    omega

/-- When no payload bit is left, no input byte is. -/
theorem CodePointer.end (h : CodePointer input codes j i c) (hj : (input.flatMap codes).length ≤ j) :
    input.length ≤ i := by
  by_contra hi
  have hb := List.getElem?_eq_getElem (not_le.mp hi)
  have hrest := congrArg List.length (h.rest_cons hb)
  have hc := h.within _ hb
  simp only [List.length_drop, List.length_append] at hrest
  omega

end

/-! ### C_ENC (R197) -/

/-- C_ENC has packed the first j payload bits. -/
structure Encoding (s₀ : State) (input : List Byte) (codes : Byte → List Bool) (base j : Nat) (s : State) : Prop where
  same : SameBlock s₀ s
  frame : s.eng = { s₀.eng with
    entering := false, iptr := s.eng.iptr, cbit := s.eng.cbit, acc := s.eng.acc, accN := s.eng.accN, bits := s.eng.bits
    optr := s.eng.optr }
  pointer : CodePointer input codes j s.eng.iptr.toNat s.eng.cbit.toNat
  accN : s.eng.accN.toNat = j % 8
  acc : s.eng.acc = packByte ((input.flatMap codes).take j) (8 * (j / 8))
  optr : s.eng.optr.toNat = base + j / 8
  out : s.outMem = s₀.outMem.writeList base ((pack (input.flatMap codes)).take (j / 8))

section
variable {s₀ s : State} {input : List Byte} {codes : Byte → List Bool} {base j : Nat}

theorem Encoding.alone (h : Encoding s₀ input codes base j s) (hqueue : s₀.host.queue = [])
    (hphase : s₀.eng.phase = .cEnc) :
    s.host.queue = [] ∧ s.eng.phase = .cEnc ∧ s.eng.entering = false :=
  ⟨by rwa [h.same.host], by rw [h.frame]; exact hphase, by rw [h.frame]⟩

theorem Encoding.codeAt (h : Encoding s₀ input codes base j s) (b : Byte) : s.eng.codeAt b = s₀.eng.codeAt b := by
  rw [h.frame]
  rfl

/-- The bit C_ENC packs next is the next payload bit. -/
theorem Encoding.exists_bit (h : Encoding s₀ input codes base j s)
    (hinput : input = s₀.inMem.readList 0 s₀.regs.inLen.toNat)
    (hcode : ∀ b, s₀.eng.codeAt b = codes b) (hj : j < (input.flatMap codes).length) :
    ∃ b, input[s.eng.iptr.toNat]? = some b ∧ s.eng.iptr.toNat < s.regs.inLen.toNat ∧
      b = s.inMem.read s.eng.iptr.toNat ∧
      (s.eng.codeAt b)[s.eng.cbit.toNat]? = some (input.flatMap codes)[j] := by
  obtain ⟨b, hb, hbit⟩ := h.pointer.exists_bit hj
  obtain ⟨hi, hget⟩ := List.getElem?_eq_some_iff.mp hb
  have hlength : input.length = s₀.regs.inLen.toNat := by rw [hinput, Memory.readList_length]
  refine ⟨b, hb, by rw [h.same.regs]; omega, ?_, by rwa [h.codeAt, hcode]⟩
  rw [h.same.inMem, ← hget]
  simp only [hinput]
  rw [Memory.readList_getElem _ _ (by omega), Nat.zero_add]

/-- The pointer moves on by one payload bit. -/
theorem codePointer_nextCodeBit {e : Engine} {b : Byte} (h : CodePointer input codes j e.iptr.toNat e.cbit.toNat)
    (hcoded : ∀ b ∈ input, 0 < (codes b).length) (hshort : ∀ b, (codes b).length ≤ 255)
    (hinput : input.length < 2 ^ 32)
    (hb : input[e.iptr.toNat]? = some b) (hcode : e.codeAt b = codes b) :
    CodePointer input codes (j + 1) (e.nextCodeBit b).iptr.toNat (e.nextCodeBit b).cbit.toNat := by
  have hpointer := e.nextCodeBit_pointer b
  have hi := (List.getElem?_eq_some_iff.mp hb).1
  have hc := h.within b hb
  have hlength := hshort b
  rw [hcode] at hpointer
  split_ifs at hpointer with hlast
  · rw [hpointer.1, hpointer.2, bitVec_toNat_add_one (by omega)]
    exact h.next_byte hcoded hb hlast
  · rw [hpointer.1, hpointer.2, bitVec_toNat_add_one (by omega)]
    exact h.next_bit hb hlast

theorem take_pack_length (p : List Bool) {q : Nat} (hq : q ≤ ceilDiv8 p.length) : ((pack p).take q).length = q := by
  rw [List.length_take, pack_length, Nat.min_eq_left hq]

variable (hqueue : s₀.host.queue = []) (hphase : s₀.eng.phase = .cEnc)
variable (hinput : input = s₀.inMem.readList 0 s₀.regs.inLen.toNat)

include hqueue hphase hinput

theorem encoding_step (hcode : ∀ b, s₀.eng.codeAt b = codes b)
    (hcoded : ∀ b ∈ input, 0 < (codes b).length) (hshort : ∀ b, (codes b).length ≤ 255)
    (hroom : base + ceilDiv8 (input.flatMap codes).length < 2 ^ 32) (hj : j < (input.flatMap codes).length)
    (h : Encoding s₀ input codes base j s) : ∃ t, step s = .next t ∧ Encoding s₀ input codes base (j + 1) t := by
  have hinputLength : input.length < 2 ^ 32 := by rw [hinput, Memory.readList_length]; exact s₀.regs.inLen.isLt
  obtain ⟨hqueue', hphase', henter'⟩ := h.alone hqueue hphase
  obtain ⟨b, hb, hiptr, hread, hbit⟩ := h.exists_bit hinput hcode hj
  have hcode' : s.eng.codeAt b = codes b := (h.codeAt b).trans (hcode b)
  obtain ⟨hsame, hframe, hpointer, haccN, hacc, hoptr, hout⟩ := h
  have hset := setStreamBit_packByte hj
  rw [← hacc] at hset
  by_cases hfull : s.eng.accN = 7
  · have hmod : j % 8 = 7 := by rw [← haccN, hfull]; rfl
    have hceil : j / 8 < ceilDiv8 (input.flatMap codes).length := by unfold ceilDiv8; omega
    have hdiv : (j + 1) / 8 = j / 8 + 1 := by omega
    have hmoved := codePointer_nextCodeBit (e := s.eng.packFull) hpointer hcoded hshort hinputLength hb hcode'
    refine ⟨_, step_alone_plain hqueue' (by simp [hphase'])
      (engineStep_cEnc_bitFull hphase' henter' hiptr hread hbit hfull), ?_⟩
    rw [Engine.nextCodeBit_frame]
    refine ⟨hsame.trans (sameBlock_eng_out _ _ _), by rw [hframe]; rfl, hmoved, ?_, ?_, ?_, ?_⟩
    · exact (show (0 : Nat) = (j + 1) % 8 by omega)
    · exact (packByte_of_length_le (by rw [List.length_take]; omega)).symm
    · rw [hdiv, ← Nat.add_assoc, ← hoptr]
      exact bitVec_toNat_add_one (by omega)
    · rw [hmod, packByte_take (by omega)] at hset
      dsimp only
      rw [hset, hout, hoptr, hdiv, pack_take_succ hceil, Memory.writeList_append, take_pack_length _ hceil.le,
        Memory.writeList_singleton]
  · have hmod : j % 8 < 7 := by
      have hne := mt accN_eq_seven.mp hfull
      omega
    have hdiv : (j + 1) / 8 = j / 8 := by omega
    have hmoved := codePointer_nextCodeBit (e := s.eng.pack (input.flatMap codes)[j]) hpointer hcoded hshort hinputLength
      hb hcode'
    refine ⟨_, step_alone_plain hqueue' (by simp [hphase'])
      (engineStep_cEnc_bit hphase' henter' hiptr hread hbit hfull), ?_⟩
    rw [Engine.nextCodeBit_frame]
    refine ⟨hsame.trans (sameBlock_eng _ _), by rw [hframe]; rfl, hmoved, ?_, ?_, hdiv ▸ hoptr, hdiv ▸ hout⟩
    · refine (bitVec_toNat_add_one (by omega)).trans ?_
      omega
    · rw [hdiv, ← hset, ← haccN]
      rfl

/-- What C_ENC may move. -/
def Engine.EncFrame (e e' : Engine) : Prop :=
  e' = { e with
    phase := e'.phase, entering := e'.entering, pending := e'.pending, iptr := e'.iptr, cbit := e'.cbit, acc := e'.acc
    accN := e'.accN, bits := e'.bits, optr := e'.optr }

/-- The end of C_ENC, with a part-filled accumulator written or without. -/
theorem encoding_end (h : Encoding s₀ input codes base (input.flatMap codes).length s) :
    ∃ t, ReachesIn 1 s t ∧ SameBlock s₀ t ∧ t.outMem = s₀.outMem.writeList base (pack (input.flatMap codes)) ∧
      t.eng.phase = .finish ∧ t.eng.pending = none ∧ s₀.eng.EncFrame t.eng := by
  obtain ⟨hqueue', hphase', henter'⟩ := h.alone hqueue hphase
  obtain ⟨hsame, hframe, hpointer, haccN, hacc, hoptr, hout⟩ := h
  have hend : s.regs.inLen.toNat ≤ s.eng.iptr.toNat := by
    have hlength := hpointer.end le_rfl
    rwa [hinput, Memory.readList_length, ← hsame.regs] at hlength
  have hstep {t : State} (ht : s.engineStep = .plain t) : ReachesIn 1 s t :=
    .of_step (step_alone_plain hqueue' (by simp [hphase']) ht)
  have hzero : s.eng.accN.toNat = 0 ↔ s.eng.accN = 0 := BitVec.toNat_inj (y := 0#3)
  have hall := List.take_of_length_le (pack_length (input.flatMap codes)).le
  rw [List.take_length] at hacc
  by_cases hempty : s.eng.accN = 0
  · have hceil : ceilDiv8 (input.flatMap codes).length = (input.flatMap codes).length / 8 := by
      have hmod := hzero.mpr hempty
      unfold ceilDiv8
      omega
    refine ⟨_, hstep (engineStep_cEnc_end hphase' henter' hend hempty), hsame.trans (sameBlock_eng _ _), ?_, rfl, rfl,
      by rw [hframe]; rfl⟩
    rw [← hceil, hall] at hout
    exact hout
  · have hceil : ceilDiv8 (input.flatMap codes).length = (input.flatMap codes).length / 8 + 1 := by
      have hmod := mt hzero.mp hempty
      unfold ceilDiv8
      omega
    refine ⟨_, hstep (engineStep_cEnc_flush hphase' henter' hend hempty), hsame.trans (sameBlock_eng_out _ _ _), ?_, rfl,
      rfl, by rw [hframe]; rfl⟩
    rw [hceil, pack_take_succ (by omega)] at hall
    dsimp only
    rw [hout, hoptr, hacc, ← Memory.writeList_singleton]
    conv_rhs => rw [← hall, Memory.writeList_append, take_pack_length _ (by omega)]

end

/-- C_ENC runs to FINISH with the payload region written behind the tree region. -/
theorem exists_encoded {s : State} {input : List Byte} {codes : Byte → List Bool} {base : Nat}
    (hqueue : s.host.queue = []) (hgoes : GoesTo .cEnc s) (hinput : input = s.inMem.readList 0 s.regs.inLen.toNat)
    (hcode : ∀ b, s.eng.codeAt b = codes b) (hcoded : ∀ b ∈ input, 0 < (codes b).length)
    (hshort : ∀ b, (codes b).length ≤ 255) (hbase : (8 + s.eng.tReg).toNat = base)
    (hroom : base + ceilDiv8 (input.flatMap codes).length < 2 ^ 32) :
    ∃ t, ReachesIn ((input.flatMap codes).length + 2) s t ∧ SameBlock s t ∧
      t.outMem = s.outMem.writeList base (pack (input.flatMap codes)) ∧
      t.eng.phase = .finish ∧ t.eng.pending = none ∧ s.eng.EncFrame t.eng := by
  obtain ⟨hphase, henter⟩ := hgoes
  have hentry := step_alone_plain hqueue (by simp [hphase]) (engineStep_cEnc_entry hphase henter)
  have hstart : Encoding s input codes base 0 { s with eng := s.eng.startEnc } :=
    ⟨rfl, rfl, codePointer_start hcoded, rfl, (packByte_of_length_le (Nat.le_refl 0)).symm, hbase, rfl⟩
  obtain ⟨u, hloop, hencoding⟩ := exists_reachesIn_of_loop
    (fun j v hj hv => encoding_step hqueue hphase hinput hcode hcoded hshort hroom hj hv) (Nat.zero_le _) hstart
  obtain ⟨t, hend, hrest⟩ := encoding_end hqueue hphase hinput hencoding
  exact ⟨t, (((ReachesIn.of_step hentry).trans hloop).trans hend).mono (by omega), hrest⟩

/-! ### The whole command (R199, R200) -/

theorem State.sizeStep_frame (s : State) :
    s.sizeStep.eng = { s.eng with
      phase := s.sizeStep.eng.phase, entering := s.sizeStep.eng.entering, pending := s.sizeStep.eng.pending
      bReg := s.sizeStep.eng.bReg, tReg := s.sizeStep.eng.tReg, total := s.sizeStep.eng.total } := by
  unfold State.sizeStep
  dsimp only
  split <;> rfl

/-- C_SIZE has stored the sizes of the buffer for an input. -/
structure Sized (e : Engine) (o : Option PTree) (input : List Byte) : Prop where
  tree : e.HasTree o
  code : ∀ b, e.codeAt b = codesOf o b
  kReg : e.kReg.toNat = leafCount o
  tReg : e.tReg = BitVec.ofNat 32 (serOf o).length
  bReg : e.bReg = BitVec.ofNat 32 (payloadFor o input).length
  total : e.total = BitVec.ofNat 32 (bufferFor o input).length

theorem toNat_eight_add_ofNat {n : Nat} (h : 8 + n < 2 ^ 32) : (8 + BitVec.ofNat 32 n : Word).toNat = 8 + n := by
  rw [BitVec.toNat_add, BitVec.toNat_ofNat, Nat.mod_eq_of_lt (a := n) (by omega)]
  exact Nat.mod_eq_of_lt h

/-- From C_HDR to FINISH the buffer is written. -/
theorem exists_stored {s : State} {o : Option PTree} {input : List Byte} (hqueue : s.host.queue = [])
    (hgoes : GoesTo .cHdr s) (hinput : input = s.inMem.readList 0 s.regs.inLen.toNat) (hcodes : CodesFor o input)
    (hsized : Sized s.eng o input) (hroom : (bufferFor o input).length < 2 ^ 32) :
    ∃ t, ReachesIn (2 * leafCount o + (payloadFor o input).length + 4) s t ∧ SameBlock s t ∧
      t.outMem = s.outMem.writeList 0 (bufferFor o input) ∧ t.eng.phase = .finish ∧ t.eng.pending = none ∧
      Sized t.eng o input := by
  obtain ⟨hphase, henter⟩ := hgoes
  obtain ⟨htree, hcode, hkReg, htReg, hbReg, htotal⟩ := hsized
  rw [bufferFor, compressedBuffer_length, pack_length] at hroom
  have hhdr := step_alone_plain hqueue (by simp [hphase]) (engineStep_cHdr hphase)
  obtain ⟨e, hwalk, hframe⟩ := exists_treeWritten (s := s.hdrStep) hqueue ⟨rfl, rfl⟩
    (htree.congr rfl rfl rfl) (by omega)
  have hcode' (b : Byte) : e.codeAt b = codesOf o b := by rw [← hcode, hframe]; rfl
  have htReg' : e.tReg = BitVec.ofNat 32 (serOf o).length := by rw [hframe]; exact htReg
  obtain ⟨t, hpack, hsame, hout, hfinish, hpending, hframe'⟩ := exists_encoded
    (s := { s.hdrStep with eng := e, outMem := s.hdrStep.outMem.writeList 8 (serOf o) }) (base := 8 + (serOf o).length)
    hqueue (by rw [hframe]; exact ⟨rfl, rfl⟩) hinput hcode' hcodes.coded (codesOf_length_le hcodes)
    (by dsimp only; rw [htReg']; exact toNat_eight_add_ofNat (by omega)) hroom
  refine ⟨t, (((ReachesIn.of_step hhdr).trans hwalk).trans hpack).mono ?_, (sameBlock_eng_out s _ _).trans hsame, ?_,
    hfinish, hpending, ?_⟩
  · rw [← payloadFor]
    omega
  · rw [hout, State.hdrStep_outMem, htReg, hbReg, bufferFor, compressedBuffer, Memory.writeList_append,
      Memory.writeList_append, Memory.writeList_append]
    simp only [List.length_append, toBE32_length, Nat.zero_add, Nat.reduceAdd]
    rfl
  · rw [hframe', hframe]
    exact ⟨htree.congr rfl rfl rfl, hcode, hkReg, htReg, hbReg, htotal⟩

/-- C_SIZE, one step. -/
theorem exists_sized {s : State} {o : Option PTree} {input : List Byte} (hqueue : s.host.queue = [])
    (hphase : s.eng.phase = .cSize) (htree : s.eng.HasTree o) (hcode : ∀ b, s.eng.codeAt b = codesOf o b)
    (hkReg : s.eng.kReg.toNat = leafCount o) (hfreq : ∀ b, (s.eng.freqAt b).toNat = occurrences input b) :
    ∃ t, ReachesIn 1 s t ∧ SameBlock s t ∧ t.outMem = s.outMem ∧ Sized t.eng o input ∧
      if s.regs.outCap.toNat < (bufferFor o input).length then t.eng.phase = .finish ∧ t.eng.pending = some .capacity
      else GoesTo .cHdr t := by
  have hbits := payloadBits_eq hfreq hcode
  have hlen := encodedLen_eq hkReg hbits
  obtain ⟨hbReg, htReg, htotal⟩ := s.sizeStep_stores
  have hgoes := s.sizeStep_goes
  rw [hbits] at hbReg
  rw [hkReg, ← serOf_length] at htReg
  rw [hlen] at htotal hgoes
  refine ⟨_, .of_step (step_alone_plain hqueue (by simp [hphase]) (engineStep_cSize hphase)),
    s.sizeStep_engineOnly ▸ sameBlock_eng s _, by rw [s.sizeStep_engineOnly],
    ⟨?_, fun b => ?_, ?_, htReg, hbReg, htotal⟩, ?_⟩
  · exact htree.congr (by rw [s.sizeStep_frame]) (by rw [s.sizeStep_frame]) (by rw [s.sizeStep_frame])
  · rw [← hcode, s.sizeStep_frame]
    rfl
  · rw [s.sizeStep_frame]
    exact hkReg
  · split_ifs at hgoes ⊢
    · exact ⟨hgoes.1.1, hgoes.2⟩
    · exact hgoes

/-- From CHECK to behind C_SIZE. -/
theorem exists_measured {s : State} {input : List Byte} (hqueue : s.host.queue = []) (hphase : s.eng.phase = .check)
    (hop : s.regs.op = opCompress) (hconfig : s.regs.ConfigOk) (hinput : input = s.inMem.readList 0 s.regs.inLen.toNat) :
    ∃ t o, o = buildTree (occurrences input) ∧
      ReachesIn (s.regs.inLen.toNat + 263 + max 1 (leafCount o) + 2 * leafCount o) s t ∧ SameBlock s t ∧
      t.outMem = s.outMem ∧ Sized t.eng o input ∧
      if s.regs.outCap.toNat < (bufferFor o input).length then t.eng.phase = .finish ∧ t.eng.pending = some .capacity
      else GoesTo .cHdr t := by
  have hcheck := check_alone_compress hqueue hphase hop hconfig
  obtain ⟨u, o, hbuild, hbuilt, hsame, hout, hgoes, htree, hkReg, hfreq⟩ :=
    exists_built (s := s.goto .cCount) hqueue ⟨rfl, rfl⟩
  simp only [State.goto_inMem, State.goto_regs, ← hinput] at hbuild hbuilt hfreq
  obtain ⟨e, hcoded, hframe, hcode⟩ := exists_coded (hsame.host ▸ hqueue) hgoes htree
    (hbuild ▸ buildTree_codesFor input).nodup
  have hsame' : SameBlock s { u with eng := e } := ((sameBlock_eng s _).trans hsame).trans (sameBlock_eng _ _)
  obtain ⟨t, hsized, hsame'', hout', hstored, hnext⟩ := exists_sized (s := { u with eng := e }) (input := input)
    (hsame'.host ▸ hqueue) (by rw [hframe]) (htree.congr (by rw [hframe]) (by rw [hframe]) (by rw [hframe])) hcode
    (by rw [hframe]; exact hkReg) (fun b => by rw [hframe]; exact hfreq b)
  rw [hsame'.regs] at hnext
  exact ⟨t, o, hbuild, (((hcheck.trans hbuilt).trans hcoded).trans hsized).mono (by omega), hsame'.trans hsame'',
    hout'.trans hout, hstored, hnext⟩

/-- Compress of an input into a buffer of cap bytes (R200). -/
def compressInto (input : List Byte) (cap : Nat) : Except ErrorKind Result :=
  if cap < (compress input).out.length then .error .capacity else .ok (compress input)

/-- From CHECK a legal COMPRESS, left alone, computes Compress of its input and ends. -/
theorem exists_compressed {s : State} {input : List Byte} (hqueue : s.host.queue = []) (hphase : s.eng.phase = .check)
    (hop : s.regs.op = opCompress) (hmax : s.regs.inMax.toNat ≤ inMaxBound) (hconfig : s.regs.ConfigOk)
    (hinput : input = s.inMem.readList 0 s.regs.inLen.toNat) :
    ∃ t, ReachesIn (s.regs.inLen.toNat + 5 * (compress input).k + (compress input).B + 269) s t ∧
      EndsWith s t (compressInto input s.regs.outCap.toNat) := by
  obtain ⟨u, o, hbuild, hmeasured, hsame, hout, hsized, hnext⟩ := exists_measured hqueue hphase hop hconfig hinput
  have hcodes : CodesFor o input := hbuild ▸ buildTree_codesFor input
  have hleaves := leafCount_le hcodes
  rw [compressInto, compress_eq hbuild]
  dsimp only
  split_ifs at hnext ⊢ with hcap
  · obtain ⟨hfinish, hpending⟩ := hnext
    obtain ⟨t, hend, hends⟩ := exists_ended_error hqueue hsame hfinish hpending (fun _ _ => by rw [hout]) fun _ => hout
    exact ⟨t, (hmeasured.trans hend).mono (by omega), hends⟩
  · have hroom : (bufferFor o input).length < 2 ^ 32 := by
      have hlt := s.regs.outCap.isLt
      omega
    have hser : (serOf o).length ≤ (bufferFor o input).length := by
      rw [bufferFor, compressedBuffer_length]
      omega
    have hbits : (payloadFor o input).length < 2 ^ 32 := by
      have hle := payloadFor_length_le hcodes
      have hlength : input.length = s.regs.inLen.toNat := by rw [hinput, Memory.readList_length]
      have hin := hconfig.1
      unfold inMaxBound at hmax
      omega
    obtain ⟨v, hstored, hsame', hout', hfinish, hpending, ⟨-, -, hkReg, htReg, hbReg, htotal⟩⟩ :=
      exists_stored (hsame.host ▸ hqueue) hnext (by rw [hsame.inMem, hsame.regs, hinput]) hcodes hsized hroom
    have hop' : v.regs.op = opCompress := by rw [hsame'.regs, hsame.regs, hop]
    obtain ⟨t, hend, hends⟩ := exists_ended_ok hqueue (hsame.trans hsame') hfinish hpending
      (res := ⟨bufferFor o input, (serOf o).length, (payloadFor o input).length, leafCount o⟩)
      (by rw [State.resultLen, if_pos hop', htotal]; exact Nat.mod_eq_of_lt hroom)
      (by rw [htReg]; exact Nat.mod_eq_of_lt (by omega)) (by rw [hbReg]; exact Nat.mod_eq_of_lt hbits)
      (by rw [State.resultNsym, if_pos hop', hkReg]) (hout'.trans (by rw [hout]))
    exact ⟨t, ((hmeasured.trans hstored).trans hend).mono (by omega), hends⟩

/-- Settles O58: the run of `exists_compressed`, read off the registers and OUT_MEM. -/
theorem compressRunsToItsFunction : Obligations.CompressRunsToItsFunction := by
  rintro s r hphase hqueue hop ⟨-, hmax, -⟩ hin hcap rfl
  generalize hinput : s.inMem.readList 0 s.regs.inLen.toNat = input
  obtain ⟨t, ⟨n, hn, hrun⟩, hends⟩ := exists_compressed hqueue hphase hop hmax ⟨hin, hcap⟩ hinput.symm
  refine ⟨n, t, hn, hrun, hends.idle, ?_⟩
  by_cases hroom : (compress input).out.length ≤ s.regs.outCap.toNat
  · rw [compressInto, if_neg hroom.not_gt] at hends
    obtain ⟨hlen, htree, hbits, hnsym⟩ := s.regs.published_ok (hends.fits _ rfl)
    obtain ⟨hwritten, hkept⟩ := hends.output_ok
    rw [if_pos hroom, hends.regs]
    exact ⟨rfl, rfl, fun a => by rw [hends.inMem], rfl, rfl, hlen, htree, hbits, hnsym, hwritten, hkept⟩
  · rw [compressInto, if_pos (not_le.mp hroom)] at hends
    have hclosed : leavesOutputOpen s.regs.op (some .capacity) = false := by rw [hop]; rfl
    rw [if_neg hroom, hends.regs]
    exact ⟨rfl, rfl, fun a => by rw [hends.inMem], rfl, rfl, rfl, rfl, rfl, rfl, fun a => by rw [hends.output.2 hclosed]⟩

end Sys2Proof.Machine
end

section
/-! D_TREE computes ParseNode and Deser (43_decoder.md section 2, R232 to R234). -/

namespace Sys2Proof.Machine

/-! ### Bytes of a region still to read -/

section
variable {m : Memory} {a n j : Nat}

theorem Memory.le_of_drop_readList_nil (h : (m.readList a n).drop j = []) : n ≤ j := by
  rwa [List.drop_eq_nil_iff, Memory.readList_length] at h

theorem Memory.drop_readList_cons {b : Byte} {rest : List Byte} (h : (m.readList a n).drop j = b :: rest) :
    j < n ∧ m.read (a + j) = b ∧ (m.readList a n).drop (j + 1) = rest := by
  have hj : j < n := by
    by_contra hle
    rw [List.drop_eq_nil_of_le (by rw [Memory.readList_length]; omega)] at h
    cases h
  rw [List.drop_eq_getElem_cons (by rwa [Memory.readList_length]), Memory.readList_getElem _ _ hj] at h
  obtain ⟨hb, hrest⟩ := List.cons.inj h
  exact ⟨hj, hb, hrest⟩

end

/-! ### ParseNode -/

/-- A parsed tree of k leaves has taken 2k - 1 arena entries, at least a byte for each, and has added its symbols. -/
theorem parseNode_ok {fuel : Nat} {ps ps' : ParseState} {tree : PTree} (h : parseNode fuel ps = .ok (tree, ps')) :
    ps'.count + 1 = ps.count + 2 * tree.syms.length ∧ ps'.rest.length + ps'.count ≤ ps.rest.length + ps.count ∧
      ps'.seen = tree.syms.reverse ++ ps.seen := by
  fun_induction parseNode fuel ps generalizing tree ps'
  case case7 fuel ps _ sym rest _ _ hrest =>
    obtain ⟨rfl, rfl⟩ := Prod.mk.inj (Except.ok.inj h)
    rw [hrest]
    rw [PTree.syms, List.length_singleton, List.length_cons, List.length_cons]
    exact ⟨rfl, by dsimp only; omega, rfl⟩
  case case10 fuel ps m rest hrest _ _ _ left ps₁ _ right ps₂ _ ihl ihr =>
    obtain ⟨rfl, rfl⟩ := Prod.mk.inj (Except.ok.inj h)
    obtain ⟨hcountl, hlengthl, hseenl⟩ := ihl ‹_›
    obtain ⟨hcountr, hlengthr, hseenr⟩ := ihr ‹_›
    dsimp only at hcountl hlengthl hseenl
    rw [hrest, PTree.syms, List.length_append, List.length_cons, hseenr, hseenl, List.reverse_append, List.append_assoc]
    exact ⟨by omega, by omega, rfl⟩
  all_goals cases h

/-! ### Errors of the parse -/

/-- s comes within n steps to FINISH with the error k, OUT_MEM as it was. -/
def RaisesIn (n : Nat) (s : State) (k : ErrorKind) : Prop :=
  ∃ u, ReachesIn n s u ∧ SameBlock s u ∧ u.outMem = s.outMem ∧ u.eng.phase = .finish ∧ u.eng.pending = some k

theorem raisesIn_of_step {s t : State} {e : Engine} {k : ErrorKind} (hstep : step s = .next t)
    (ht : t = { s with eng := e }.raise k) : RaisesIn 1 s k :=
  ⟨t, .of_step hstep, ht ▸ sameBlock_eng s _, ht ▸ rfl, ht ▸ rfl, ht ▸ rfl⟩

theorem RaisesIn.after {m n : Nat} {s t : State} {k : ErrorKind} (h : RaisesIn n t k) (hst : ReachesIn m s t)
    (hsame : SameBlock s t) (hout : t.outMem = s.outMem) : RaisesIn (m + n) s k := by
  obtain ⟨u, hreach, hsame', hout', hphase, hpending⟩ := h
  exact ⟨u, hst.trans hreach, hsame.trans hsame', hout'.trans hout, hphase, hpending⟩

theorem RaisesIn.mono {m n : Nat} {s : State} {k : ErrorKind} (h : RaisesIn m s k) (hmn : m ≤ n) : RaisesIn n s k := by
  obtain ⟨u, hreach, hrest⟩ := h
  exact ⟨u, hreach.mono hmn, hrest⟩

/-! ### The parse -/

/-- D_TREE stands where ParseNode stands with the bytes, symbols and entries of ps. -/
structure Parsing (s : State) (ps : ParseState) : Prop where
  phase : s.eng.phase = .dTree
  entering : s.eng.entering = false
  tpos : s.eng.tpos.toNat ≤ s.eng.tReg.toNat
  rest : (s.inMem.readList 8 s.eng.tReg.toNat).drop s.eng.tpos.toNat = ps.rest
  seen : s.eng.seen = ps.seen
  count : s.eng.ncount.toNat = ps.count
  room : ps.count ≤ 511

/-- What a parse may move. -/
def Engine.ParseFrame (e e' : Engine) : Prop :=
  e' = { e with
    node := e'.node, ncount := e'.ncount, tpos := e'.tpos, seen := e'.seen, parseStack := e'.parseStack }

/-- A subtree has been parsed: it stands at the next index on the nodes taken since, hung where the pre-order puts it, and
the nodes before are kept. -/
structure Parsed (s : State) (first : Nat) (tree : PTree) (ps' : ParseState) (i : NodeIdx) (u : State) : Prop where
  same : SameBlock s u
  out : u.outMem = s.outMem
  frame : s.eng.ParseFrame u.eng
  parsing : Parsing u ps'
  idx : i.val = first
  stack : u.eng.parseStack = (s.eng.attach i).parseStack
  kept : ∀ j, j.val < first → u.eng.nodeAt j = (s.eng.attach i).nodeAt j
  stands : tree.StandsAt u.eng (fun j => first ≤ j.val ∧ j.val < ps'.count) i

/-- The machine does what ParseNode answers. -/
def ParsesTo (s : State) (ps : ParseState) : Except ErrorKind (PTree × ParseState) → Prop
  | .error k => RaisesIn (min ps.rest.length (511 - ps.count) + 1) s k
  | .ok (tree, ps') => ∃ u i, ReachesIn (ps'.count - ps.count) s u ∧ Parsed s ps.count tree ps' i u

theorem parsesTo_of_step {s t : State} {e : Engine} {ps : ParseState} {k : ErrorKind} (hstep : step s = .next t)
    (ht : t = { s with eng := e }.raise k) : ParsesTo s ps (.error k) :=
  (raisesIn_of_step hstep ht).mono (Nat.le_add_left _ _)

section
variable {s t u v : State} {ps ps' : ParseState} {m : Byte} {rest : List Byte} {i : NodeIdx}

theorem Parsing.marker (h : Parsing s ps) (hrest : ps.rest = m :: rest) :
    s.eng.tpos.toNat < s.eng.tReg.toNat ∧ s.markerByte = m ∧
      (s.inMem.readList 8 s.eng.tReg.toNat).drop (s.eng.tpos.toNat + 1) = rest :=
  Memory.drop_readList_cons (h.rest.trans hrest)

theorem Parsing.ncount_ne (h : Parsing s ps) (hroom : ps.count ≠ 511) : s.eng.ncount.toNat < 511 := by
  rw [h.count]
  exact Nat.lt_of_le_of_ne h.room hroom

theorem Parsing.ncount_eq (h : Parsing s ps) (hfull : ps.count = 511) : s.eng.ncount = 511 :=
  BitVec.eq_of_toNat_eq (h.count.trans hfull)

/-- An INTERNAL token has been read: node i is open. -/
structure Opened (s : State) (ps : ParseState) (i : NodeIdx) (t : State) : Prop where
  same : SameBlock s t
  out : t.outMem = s.outMem
  frame : s.eng.ParseFrame t.eng
  parsing : Parsing t ps
  idx : i.val + 1 = ps.count
  stack : t.eng.parseStack = i :: (s.eng.attach i).parseStack
  opened : t.eng.nodeAt i = .internal 0 0 0
  kept : ∀ j, j ≠ i → t.eng.nodeAt j = (s.eng.attach i).nodeAt j

/-- The token INTERNAL. -/
theorem exists_opened (h : Parsing s ps) (hrest : ps.rest = m :: rest) (hroom : ps.count ≠ 511) :
    ∃ i, Opened s ⟨rest, ps.seen, ps.count + 1⟩ i s.tokenInternal := by
  have hncount := h.ncount_ne hroom
  obtain ⟨i, hi⟩ : ∃ i : NodeIdx, i.val = s.eng.ncount.toNat := ⟨⟨_, hncount⟩, rfl⟩
  obtain ⟨htpos, -, htail⟩ := h.marker hrest
  have htReg := s.eng.tReg.isLt
  have hnext : (s.eng.tpos + 1).toNat = s.eng.tpos.toNat + 1 := bitVec_toNat_add_one (by omega)
  have hcount : (s.eng.ncount + 1).toNat = ps.count + 1 := by rw [bitVec_toNat_add_one (by omega), h.count]
  have hroomLt : ps.count < 511 := Nat.lt_of_le_of_ne h.room hroom
  have htoken := State.tokenInternal_of_room (ncount_ne_of_room hncount)
  rw [Engine.nextIdx_eq hi, Engine.place_eq hi] at htoken
  rw [htoken]
  exact ⟨i, sameBlock_eng s _, rfl, rfl,
    ⟨h.phase, h.entering, hnext ▸ htpos, hnext ▸ htail, h.seen, hcount, hroomLt⟩, by rw [hi, h.count], rfl,
    (s.eng.attach i).nodeAt_setNode_same i _, fun j hj => (s.eng.attach i).nodeAt_setNode_other _ hj⟩

/-- The token LEAF. -/
theorem exists_parsedLeaf {sym : Byte} (h : Parsing s ps) (hrest : ps.rest = m :: sym :: rest) (hroom : ps.count ≠ 511)
    (hnew : sym ∉ ps.seen) :
    ∃ i, Parsed s ps.count (.leaf sym) ⟨rest, sym :: ps.seen, ps.count + 1⟩ i (s.tokenLeaf sym) := by
  have hncount := h.ncount_ne hroom
  obtain ⟨i, hi⟩ : ∃ i : NodeIdx, i.val = s.eng.ncount.toNat := ⟨⟨_, hncount⟩, rfl⟩
  obtain ⟨htpos, -, htail⟩ := h.marker hrest
  obtain ⟨hsym, -, htail⟩ := Memory.drop_readList_cons htail
  have htReg := s.eng.tReg.isLt
  have hnext₁ : (s.eng.tpos + 1).toNat = s.eng.tpos.toNat + 1 := bitVec_toNat_add_one (by omega)
  have hnext : (s.eng.tpos + 1 + 1).toNat = s.eng.tpos.toNat + 1 + 1 := by rw [bitVec_toNat_add_one (by omega), hnext₁]
  have hcount : (s.eng.ncount + 1).toNat = ps.count + 1 := by rw [bitVec_toNat_add_one (by omega), h.count]
  have hroomLt : ps.count < 511 := Nat.lt_of_le_of_ne h.room hroom
  have htoken := State.tokenLeaf_of_new (ncount_ne_of_room hncount) hsym (h.seen ▸ hnew)
  rw [Engine.place_eq hi] at htoken
  have hidx : i.val = ps.count := hi.trans h.count
  rw [htoken]
  exact ⟨i, sameBlock_eng s _, rfl, rfl,
    ⟨h.phase, h.entering, hnext ▸ hsym, hnext ▸ htail, congrArg (sym :: ·) h.seen, hcount, hroomLt⟩, hidx, rfl,
    fun j hj => (s.eng.attach i).nodeAt_setNode_other _ (Fin.ne_of_lt (Fin.lt_def.mpr (by omega))),
    ⟨hidx.ge, hidx.trans_lt (Nat.lt_succ_self _)⟩, 0, (s.eng.attach i).nodeAt_setNode_same i _⟩

/-- The left subtree parsed, node i is still open. -/
theorem Opened.stack_left {ps₁ : ParseState} {l : PTree} {a : NodeIdx} (h : Opened s ps i t)
    (hl : Parsed t ps.count l ps₁ a u) : u.eng.parseStack = i :: (s.eng.attach i).parseStack := by
  have hi := h.idx
  have ha := hl.idx
  rw [hl.stack, Engine.attach_of_left h.stack (by omega)]
  exact h.stack

/-- An open node whose two subtrees have been parsed. -/
theorem parsed_node {ps₁ ps₂ : ParseState} {l r : PTree} {a b : NodeIdx} (hopened : Opened s ps i t)
    (hl : Parsed t ps.count l ps₁ a u) (hr : Parsed u ps₁.count r ps₂ b v) (hl' : ps.count < ps₁.count)
    (hr' : ps₁.count < ps₂.count) : Parsed s (ps.count - 1) (.node l r) ps₂ i v := by
  have hi := hopened.idx
  have ha := hl.idx
  have hb := hr.idx
  have hstackt := hopened.stack_left hl
  have hu (j : NodeIdx) (hj : j.val < ps.count) (hji : j ≠ i) : u.eng.nodeAt j = t.eng.nodeAt j := by
    rw [hl.kept j hj, Engine.attach_of_left hopened.stack (by omega), Engine.nodeAt_setNode_other _ _ hji]
  have hui : u.eng.nodeAt i = .internal 0 a 0 := by
    rw [hl.kept i (by omega), Engine.attach_of_left hopened.stack (by omega), Engine.nodeAt_setNode_same, hopened.opened]
    rfl
  have hright := Engine.attach_of_right hstackt (i := b) (by omega)
  have hv (j : NodeIdx) (hj : j.val < ps₁.count) (hji : j ≠ i) : v.eng.nodeAt j = u.eng.nodeAt j := by
    rw [hr.kept j hj, hright]
    exact u.eng.nodeAt_setNode_other _ hji
  have hvi : v.eng.nodeAt i = .internal 0 a b := by
    rw [hr.kept i (by omega), hright]
    refine (u.eng.nodeAt_setNode_same i _).trans ?_
    rw [hui]
    rfl
  refine ⟨(hopened.same.trans hl.same).trans hr.same, hr.out.trans (hl.out.trans hopened.out), ?_, hr.parsing,
    by omega, ?_,
    fun j hj => ?_, ⟨⟨by omega, by omega⟩, 0, a, b, hvi, ?_, ?_⟩⟩
  · have hframe := hr.frame
    unfold Engine.ParseFrame at hframe ⊢
    rw [hframe, hl.frame, hopened.frame]
  · rw [hr.stack, hright]
  · have hji : j ≠ i := Fin.ne_of_lt (Fin.lt_def.mpr (by omega))
    rw [hv j (by omega) hji, hu j (by omega) hji, hopened.kept j hji]
  · exact hl.stands.frame (fun j hj => ⟨by omega, by omega⟩) fun j hj =>
      hv j hj.2 (Fin.ne_of_gt (Fin.lt_def.mpr (by omega)))
  · exact hr.stands.frame (fun j hj => ⟨by omega, hj.2⟩) fun j hj => rfl

end

/-- The steps of D_TREE while a token is needed. -/
structure Needing (s : State) (ps : ParseState) : Prop where
  parsing : Parsing s ps
  queue : s.host.queue = []
  needs : s.eng.ncount = 0 ∨ s.eng.parseStack ≠ []

section
variable {s : State} {ps : ParseState} {m : Byte} {rest : List Byte}

theorem Needing.step_of_plain {t : State} (h : Needing s ps) (hplain : s.engineStep = .plain t) : step s = .next t :=
  step_alone_plain h.queue (by simp [h.parsing.phase]) hplain

theorem Needing.step_of_token (h : Needing s ps) (hrest : ps.rest = m :: rest) (hcut : s.leafCut = false) :
    step s = (Fetched.instr s.tokenCode s).run := by
  rw [step_alone h.queue (by simp [h.parsing.phase]), engineStep_dTree_token h.parsing.phase h.parsing.entering h.needs
    (h.parsing.marker hrest).1 hcut]

theorem Needing.decode_token (h : Needing s ps) (hrest : ps.rest = m :: rest) :
    decode s.tokenCode = decode (.token [m, s.inMem.read (8 + s.eng.tpos.toNat + 1)]) := by
  rw [← (h.parsing.marker hrest).2.1]
  exact decode_tokenCode_eq s

theorem Needing.step_pastEnd (h : Needing s ps) (hrest : ps.rest = []) : step s = .next (s.raise .fmtTreePastEnd) :=
  h.step_of_plain (engineStep_dTree_pastEnd h.parsing.phase h.parsing.entering h.needs
    (Memory.le_of_drop_readList_nil (h.parsing.rest.trans hrest)))

theorem Needing.step_internal (h : Needing s ps) (hrest : ps.rest = 0x00#8 :: rest) : step s = .next s.tokenInternal := by
  have hmarker := (h.parsing.marker hrest).2.1
  rw [h.step_of_token hrest (State.leafCut_eq_false fun hleaf => absurd (hmarker.symm.trans hleaf) (by decide))]
  exact Fetched.run_instr s (h.decode_token hrest)

theorem Needing.step_reserved (h : Needing s ps) (hrest : ps.rest = m :: rest) (hinternal : m ≠ 0x00#8)
    (hleaf : m ≠ 0x01#8) : step s = .next (s.raise .fmtTreeBadMarker) := by
  have hmarker := (h.parsing.marker hrest).2.1
  have hdecode := h.decode_token hrest
  rw [decode_token_reserved hinternal hleaf] at hdecode
  rw [h.step_of_token hrest (State.leafCut_eq_false fun hone => absurd (hmarker.symm.trans hone) hleaf),
    Fetched.run_instr s hdecode]
  exact exec_decodeReserved m s

/-- A leaf's symbol byte is the byte after its marker. -/
theorem Needing.step_leaf {sym : Byte} (h : Needing s ps) (hrest : ps.rest = 0x01#8 :: sym :: rest) :
    step s = .next (s.tokenLeaf sym) ∧ s.eng.tpos.toNat + 1 < s.eng.tReg.toNat := by
  obtain ⟨-, -, htail⟩ := h.parsing.marker hrest
  obtain ⟨hsym, hread, -⟩ := Memory.drop_readList_cons htail
  have hdecode := h.decode_token hrest
  rw [Nat.add_assoc, hread] at hdecode
  refine ⟨?_, hsym⟩
  rw [h.step_of_token hrest (State.leafCut_eq_false fun _ => hsym)]
  exact Fetched.run_instr s hdecode

/-- A leaf's marker in the last byte of the region. -/
theorem Needing.step_cut (h : Needing s ps) (hrest : ps.rest = [0x01#8]) : step s = .next s.leafPastEnd := by
  obtain ⟨htpos, hmarker, htail⟩ := h.parsing.marker hrest
  have hend := Memory.le_of_drop_readList_nil htail
  exact h.step_of_plain (engineStep_dTree_cut h.parsing.phase h.parsing.entering h.needs (by omega) hmarker)

/-- With 511 nodes every token that is not reserved overflows the arena. -/
theorem Needing.raises_overflow (h : Needing s ps) (hrest : ps.rest = m :: rest) (hmarker : m = 0x00#8 ∨ m = 0x01#8)
    (hfull : ps.count = 511) : RaisesIn 1 s .fmtTreeOverflow := by
  have hncount := h.parsing.ncount_eq hfull
  rcases hmarker with rfl | rfl
  · exact raisesIn_of_step (h.step_internal hrest) (State.tokenInternal_of_full hncount)
  · cases rest with
    | nil => exact raisesIn_of_step (h.step_cut hrest) (if_pos hncount)
    | cons sym rest => exact raisesIn_of_step (h.step_leaf hrest).1 (State.tokenLeaf_of_full sym hncount)

/-- A new internal node needs its subtrees. -/
theorem Opened.needing {t : State} {i : NodeIdx} (h : Opened s ps i t) (hqueue : s.host.queue = []) : Needing t ps :=
  ⟨h.parsing, by rwa [h.same.host], .inr (by rw [h.stack]; exact List.cons_ne_nil _ _)⟩

theorem Opened.needing_right {t u : State} {i a : NodeIdx} {l : PTree} {ps₁ : ParseState} (h : Opened s ps i t)
    (hqueue : s.host.queue = []) (hl : Parsed t ps.count l ps₁ a u) : Needing u ps₁ :=
  ⟨hl.parsing, by rwa [hl.same.host, h.same.host], .inr (by rw [h.stack_left hl]; exact List.cons_ne_nil _ _)⟩

end

/-- D_TREE, needing a token, does what ParseNode answers. -/
theorem parsesTo_parseNode {fuel : Nat} {ps : ParseState} {s : State} (h : Needing s ps) (hfuel : 512 ≤ fuel + ps.count) :
    ParsesTo s ps (parseNode fuel ps) := by
  fun_induction parseNode fuel ps generalizing s
  case case1 =>
    have hroom := h.parsing.room
    omega
  case case2 fuel ps hrest => exact parsesTo_of_step (h.step_pastEnd hrest) rfl
  case case3 fuel ps m rest hrest hreserved =>
    exact parsesTo_of_step (h.step_reserved hrest hreserved.1 hreserved.2) rfl
  case case4 fuel ps m rest hrest hmarker hfull =>
    exact (h.raises_overflow hrest (by tauto) hfull).mono (Nat.le_add_left _ _)
  case case5 fuel ps hroom hmarker hrest =>
    have hncount := ncount_ne_of_room (h.parsing.ncount_ne hroom)
    exact parsesTo_of_step (h.step_cut hrest) (if_neg hncount)
  case case6 fuel ps hroom sym rest hseen _ hrest =>
    obtain ⟨hstep, hsym⟩ := h.step_leaf hrest
    exact parsesTo_of_step hstep
      (State.tokenLeaf_of_seen (h.parsing.ncount_ne hroom) hsym (h.parsing.seen ▸ hseen))
  case case7 fuel ps hroom sym rest hnew _ hrest =>
    obtain ⟨i, hparsed⟩ := exists_parsedLeaf h.parsing hrest hroom hnew
    exact ⟨_, i, (ReachesIn.of_step (h.step_leaf hrest).1).mono (by dsimp only; omega), hparsed⟩
  case case8 fuel ps m rest hrest hmarker hroom hleaf k hk ih =>
    obtain rfl : m = 0x00#8 := by tauto
    obtain ⟨i, hopened⟩ := exists_opened h.parsing hrest hroom
    have hleft := ih (hopened.needing h.queue) (by dsimp only; omega)
    rw [hk] at hleft
    refine (RaisesIn.after hleft (.of_step (h.step_internal hrest)) hopened.same hopened.out).mono ?_
    have hlt := h.parsing.room
    rw [hrest, List.length_cons]
    dsimp only
    omega
  case case9 fuel ps m rest hrest hmarker hroom hleaf left ps₁ hok k hk ihl ihr =>
    obtain rfl : m = 0x00#8 := by tauto
    obtain ⟨i, hopened⟩ := exists_opened h.parsing hrest hroom
    have hleft := ihl (hopened.needing h.queue) (by dsimp only; omega)
    rw [hok] at hleft
    obtain ⟨u, a, hreach, hl⟩ := hleft
    obtain ⟨hcount, hlength, -⟩ := parseNode_ok hok
    dsimp only at hreach hcount hlength
    have hpos := left.syms_length_pos
    have hright := ihr (hopened.needing_right h.queue hl) (by omega)
    rw [hk] at hright
    refine (RaisesIn.after hright ((ReachesIn.of_step (h.step_internal hrest)).trans hreach) (hopened.same.trans hl.same)
      (hl.out.trans hopened.out)).mono ?_
    have hlt := hl.parsing.room
    rw [hrest, List.length_cons]
    omega
  case case10 fuel ps m rest hrest hmarker hroom hleaf left ps₁ hokl right ps₂ hokr ihl ihr =>
    obtain rfl : m = 0x00#8 := by tauto
    obtain ⟨i, hopened⟩ := exists_opened h.parsing hrest hroom
    have hleft := ihl (hopened.needing h.queue) (by dsimp only; omega)
    rw [hokl] at hleft
    obtain ⟨u, a, hreach, hl⟩ := hleft
    obtain ⟨hcountl, -, -⟩ := parseNode_ok hokl
    obtain ⟨hcountr, -, -⟩ := parseNode_ok hokr
    dsimp only at hreach hcountl
    have hposl := left.syms_length_pos
    have hposr := right.syms_length_pos
    have hright := ihr (hopened.needing_right h.queue hl) (by omega)
    rw [hokr] at hright
    obtain ⟨v, b, hreach', hr⟩ := hright
    refine ⟨v, i, (((ReachesIn.of_step (h.step_internal hrest)).trans hreach).trans hreach').mono (by omega),
      parsed_node hopened hl hr (by dsimp only; omega) (by omega)⟩

/-! ### Deser (R232, R234) -/

/-- With the root's subtree complete the parse ends: a tree that fills the region is the tree, a shorter one is an error. -/
theorem Parsing.step_end {u : State} {ps : ParseState} (h : Parsing u ps) (hqueue : u.host.queue = [])
    (hcount : 0 < ps.count) (hstack : u.eng.parseStack = []) :
    if ps.rest = [] then
      step u = .next { u with eng := { u.eng with phase := .dDec, entering := true, root := 0, rootValid := true } }
    else step u = .next ({ u with eng := { u.eng with root := 0, rootValid := true } }.raise .fmtTreeTrailing) := by
  have hncount : u.eng.ncount ≠ 0 := fun hzero =>
    hcount.ne ((congrArg BitVec.toNat hzero).symm.trans h.count)
  have hstep {t : State} (ht : u.engineStep = .plain t) : step u = .next t :=
    step_alone_plain hqueue (by simp [h.phase]) ht
  split_ifs with hend
  · have htpos := h.tpos.antisymm (Memory.le_of_drop_readList_nil (h.rest.trans hend))
    exact hstep (engineStep_dTree_end h.phase h.entering hncount hstack (BitVec.eq_of_toNat_eq htpos))
  · have htpos : u.eng.tpos ≠ u.eng.tReg := fun heq => hend (by
      rw [← h.rest, heq, List.drop_eq_nil_iff, Memory.readList_length])
    exact hstep (engineStep_dTree_trailing h.phase h.entering hncount hstack htpos)

/-- What D_TREE leaves after the tree of a region, or its error. -/
def TreeParsed (s : State) (n : Nat) : Except ErrorKind PTree → Prop
  | .error k => RaisesIn (n + 2) s k
  | .ok tree => ∃ u, ReachesIn (n + 2) s u ∧ SameBlock s u ∧ u.outMem = s.outMem ∧ GoesTo .dDec u ∧
      u.eng.HasTree (some tree) ∧ u.eng.tReg = s.eng.tReg ∧ u.eng.bReg = s.eng.bReg ∧
      u.eng.seen.length = tree.syms.length ∧ tree.syms.length ≤ 256

theorem treeParsed_deser {s : State} (hqueue : s.host.queue = []) (hgoes : GoesTo .dTree s) (hsome : s.eng.tReg ≠ 0) :
    TreeParsed s (min s.eng.tReg.toNat 511) (deser (s.inMem.readList 8 s.eng.tReg.toNat)) := by
  obtain ⟨hphase, henter⟩ := hgoes
  have hentry := step_alone_plain hqueue (by simp [hphase]) (engineStep_dTree_entry hphase henter hsome)
  have hstart : Needing { s with eng := s.eng.startParse } ⟨s.inMem.readList 8 s.eng.tReg.toNat, [], 0⟩ :=
    ⟨⟨hphase, rfl, Nat.zero_le _, rfl, rfl, rfl, Nat.zero_le _⟩, hqueue, .inl rfl⟩
  have hparse := parsesTo_parseNode (fuel := 512) hstart le_rfl
  unfold deser
  cases hparsed : parseNode 512 ⟨s.inMem.readList 8 s.eng.tReg.toNat, [], 0⟩ with
  | error k =>
    rw [hparsed] at hparse
    have hraises : RaisesIn _ s k := RaisesIn.after hparse (.of_step hentry) (sameBlock_eng s _) rfl
    refine hraises.mono ?_
    rw [Memory.readList_length]
    dsimp only
    omega
  | ok result =>
    obtain ⟨tree, ps⟩ := result
    rw [hparsed] at hparse
    obtain ⟨u, i, hreach, hparsed'⟩ := hparse
    obtain ⟨hcount, hlength, hseen⟩ := parseNode_ok hparsed
    rw [Memory.readList_length] at hlength
    dsimp only at hreach hcount hlength hseen hparsed'
    have hpos := tree.syms_length_pos
    obtain ⟨hsame, hout, hframe, hparsing, hidx, hstack, -, hstands⟩ := hparsed'
    have hsame' : SameBlock s u := (sameBlock_eng s _).trans hsame
    have hqueue' : u.host.queue = [] := by rwa [hsame'.host]
    have hroom := hparsing.room
    have htReg : u.eng.tReg = s.eng.tReg := by rw [hframe]; rfl
    have hbReg : u.eng.bReg = s.eng.bReg := by rw [hframe]; rfl
    have hempty : u.eng.parseStack = [] := by rw [hstack, Engine.attach_of_nil rfl]; rfl
    have hroot : i = 0 := Fin.ext hidx
    have hstep := hparsing.step_end hqueue' (by omega) hempty
    split_ifs at hstep with hend
    · simp only [if_pos hend]
      refine ⟨_, (((ReachesIn.of_step hentry).trans hreach).trans (.of_step hstep)).mono (by omega),
        hsame'.trans (sameBlock_eng _ _), hout, ⟨rfl, rfl⟩, ⟨rfl, ?_⟩, htReg, hbReg, ?_, by omega⟩
      · exact hroot ▸ hstands.frame (fun _ _ => trivial) fun _ _ => rfl
      · dsimp only
        rw [hparsing.seen, hseen, List.append_nil, List.length_reverse]
    · simp only [if_neg hend]
      exact (RaisesIn.after (raisesIn_of_step hstep rfl) ((ReachesIn.of_step hentry).trans hreach) hsame' hout).mono
        (by omega)

end Sys2Proof.Machine
end

section
/-! DECOMPRESS: the payload, the header and the whole command (43_decoder.md, R230, R236 to R242). -/

namespace Sys2Proof.Machine

/-! ### Payload bits still to read (R68, R236) -/

/-- The payload bit at stream position j. -/
def State.payloadAt (s : State) (j : Nat) : Bool :=
  streamBit (s.inMem.read (8 + s.eng.tReg.toNat + j / 8)) j

theorem State.bitCode_eq (s : State) : s.bitCode = .payload (s.payloadAt s.eng.rpos.toNat) := rfl

/-- D_DEC is reading, and bits are the payload bits it has not read. -/
structure Reading (s : State) (bits : List Bool) : Prop where
  queue : s.host.queue = []
  phase : s.eng.phase = .dDec
  entering : s.eng.entering = false
  left : s.eng.rpos.toNat + bits.length = s.eng.bReg.toNat
  bit : ∀ i (hi : i < bits.length), bits[i] = s.payloadAt (s.eng.rpos.toNat + i)

/-- What D_DEC may move. -/
def Engine.DecFrame (e e' : Engine) : Prop :=
  e' = { e with
    phase := e'.phase, entering := e'.entering, pending := e'.pending, rpos := e'.rpos, optr := e'.optr, cur := e'.cur }

theorem Engine.DecFrame.trans {e e' e'' : Engine} (h : e.DecFrame e') (h' : e'.DecFrame e'') : e.DecFrame e'' := by
  unfold Engine.DecFrame at *
  rw [h', h]

section
variable {s t : State} {b : Bool} {bits : List Bool}

theorem Reading.step (h : Reading s (b :: bits)) : step s = .next (s.payloadBit b) := by
  have hleft := h.left
  rw [List.length_cons] at hleft
  have hb : b = s.payloadAt s.eng.rpos.toNat := h.bit 0 (Nat.zero_lt_succ _)
  rw [step_alone h.queue (by simp [h.phase]), engineStep_dDec_bit h.phase h.entering (by omega), State.bitCode_eq, ← hb,
    Fetched.run_instr s (decode_payload b)]
  exact exec_bitInstr b s

theorem Reading.next (h : Reading s (b :: bits)) (hsame : SameBlock s t) (hframe : s.eng.DecFrame t.eng)
    (hphase : t.eng.phase = .dDec) (henter : t.eng.entering = false) (hrpos : t.eng.rpos = s.eng.rpos + 1) :
    Reading t bits := by
  have hleft := h.left
  rw [List.length_cons] at hleft
  have hbReg := s.eng.bReg.isLt
  have hnext : t.eng.rpos.toNat = s.eng.rpos.toNat + 1 := by rw [hrpos, bitVec_toNat_add_one (by omega)]
  refine ⟨by rw [hsame.host, h.queue], hphase, henter, ?_, fun i hi => ?_⟩
  · rw [hnext, hframe]
    dsimp only
    omega
  · have hbit := h.bit (i + 1) (Nat.succ_lt_succ hi)
    rw [show s.eng.rpos.toNat + (i + 1) = t.eng.rpos.toNat + i by omega] at hbit
    rw [State.payloadAt, hsame.inMem, show t.eng.tReg = s.eng.tReg by rw [hframe]]
    exact hbit

end

/-! ### Symbols emitted (R239) -/

/-- The symbols of out, newest first, have been written from address 0 on. -/
structure Emitted (m₀ : Memory) (out : List Byte) (s : State) : Prop where
  optr : s.eng.optr.toNat = out.length
  room : out.length ≤ s.regs.outCap.toNat
  mem : s.outMem = m₀.writeList 0 out.reverse

section
variable {m₀ : Memory} {out : List Byte} {s t : State} {sym : Byte}

theorem Emitted.kept (h : Emitted m₀ out s) : BytesKeptFrom s.regs.outCap.toNat m₀ s.outMem := by
  intro a ha
  have hroom := h.room
  rw [h.mem]
  exact Memory.read_writeList_other _ _ _ _ (.inr (by rw [List.length_reverse]; omega))

theorem Emitted.congr (h : Emitted m₀ out s) (hregs : t.regs = s.regs) (hoptr : t.eng.optr = s.eng.optr)
    (hmem : t.outMem = s.outMem) : Emitted m₀ out t :=
  ⟨hoptr ▸ h.optr, hregs ▸ h.room, hmem.trans h.mem⟩

/-- One more symbol. -/
theorem Emitted.emit (h : Emitted m₀ out s) (hroom : s.eng.optr.toNat < s.regs.outCap.toNat) (hregs : t.regs = s.regs)
    (hoptr : t.eng.optr = s.eng.optr + 1) (hmem : t.outMem = s.outMem.write s.eng.optr.toNat sym) :
    Emitted m₀ (sym :: out) t := by
  have hcap := s.regs.outCap.isLt
  have hlength := h.optr
  refine ⟨?_, ?_, ?_⟩
  · rw [hoptr, bitVec_toNat_add_one (by omega), h.optr, List.length_cons]
  · rw [hregs, List.length_cons]
    omega
  · rw [hmem, h.mem, List.reverse_cons, Memory.writeList_append, List.length_reverse, Nat.zero_add, h.optr,
      Memory.writeList_singleton]

theorem emitTo_of_full {cap : Nat} (hfull : out.length = cap) (sym : Byte) : emitTo cap out sym = .error .capacity :=
  if_pos hfull

end

/-! ### The payload decoded (R236 to R240) -/

/-- s comes within n steps to the end of D_DEC with the output or the error given. -/
def DecodesTo (m₀ : Memory) (n : Nat) (s : State) : Except ErrorKind (List Byte) → Prop
  | .ok out => ∃ u, ReachesIn n s u ∧ SameBlock s u ∧ s.eng.DecFrame u.eng ∧ u.eng.phase = .finish ∧
      u.eng.pending = none ∧ Emitted m₀ out u
  | .error k => ∃ u, ReachesIn n s u ∧ SameBlock s u ∧ u.eng.phase = .finish ∧ u.eng.pending = some k ∧
      BytesKeptFrom s.regs.outCap.toNat m₀ u.outMem ∧ leavesOutputOpen opDecompress (some k) = true

section
variable {m₀ : Memory} {n : Nat} {s t : State} {res : Except ErrorKind (List Byte)} {out : List Byte}

theorem DecodesTo.after (h : DecodesTo m₀ n t res) (hstep : step s = .next t) (hsame : SameBlock s t)
    (hframe : s.eng.DecFrame t.eng) : DecodesTo m₀ (n + 1) s res := by
  cases res with
  | ok out =>
    obtain ⟨u, hreach, hsame', hframe', hrest⟩ := h
    exact ⟨u, ((ReachesIn.of_step hstep).trans hreach).mono (by omega), hsame.trans hsame', hframe.trans hframe', hrest⟩
  | error k =>
    obtain ⟨u, hreach, hsame', hphase, hpending, hkept, hopen⟩ := h
    exact ⟨u, ((ReachesIn.of_step hstep).trans hreach).mono (by omega), hsame.trans hsame', hphase, hpending,
      hsame.regs ▸ hkept, hopen⟩

/-- A raise of D_DEC. -/
theorem decodesTo_of_raise {k : ErrorKind} {e : Engine} (hemitted : Emitted m₀ out s) (hstep : step s = .next t)
    (ht : t = { s with eng := e }.raise k) (hopen : leavesOutputOpen opDecompress (some k) = true) :
    DecodesTo m₀ (n + 1) s (.error k) :=
  ⟨t, (ReachesIn.of_step hstep).mono (by omega), ht ▸ sameBlock_eng s _, ht ▸ rfl, ht ▸ rfl, ht ▸ hemitted.kept, hopen⟩

/-- The end of D_DEC at the root. -/
theorem decodesTo_end (hreading : Reading s []) (hemitted : Emitted m₀ out s) (hcur : s.eng.cur = s.eng.root) :
    DecodesTo m₀ 1 s (.ok out) :=
  ⟨_, .of_step (step_alone_plain hreading.queue (by simp [hreading.phase])
      (engineStep_dDec_end hreading.phase hreading.entering hreading.left.ge hcur)),
    sameBlock_eng s _, rfl, rfl, rfl, hemitted.congr rfl rfl rfl⟩

/-- The end of D_DEC inside the tree. -/
theorem decodesTo_truncated (hreading : Reading s []) (hemitted : Emitted m₀ out s) (hcur : s.eng.cur ≠ s.eng.root) :
    DecodesTo m₀ 1 s (.error .fmtTruncated) :=
  decodesTo_of_raise (n := 0) hemitted (step_alone_plain hreading.queue (by simp [hreading.phase])
    (engineStep_dDec_truncated hreading.phase hreading.entering hreading.left.ge hcur)) rfl rfl

/-- A one-leaf tree's payload. -/
theorem decodesTo_oneLeaf {bits : List Bool} {sym : Byte} {f : Word} (hreading : Reading s bits)
    (hemitted : Emitted m₀ out s) (hroot : s.eng.nodeAt s.eng.root = .leaf sym f) (hcur : s.eng.cur = s.eng.root) :
    DecodesTo m₀ (bits.length + 1) s (decodeOneLeaf s.regs.outCap.toNat sym bits out) := by
  induction bits generalizing s out with
  | nil => exact decodesTo_end hreading hemitted hcur
  | cons bit bits ih =>
    have hstep := hreading.step
    rw [decodeOneLeaf]
    cases bit with
    | true => exact decodesTo_of_raise hemitted (hstep.trans (congrArg _ (State.payloadBit_true_of_leafRoot hroot))) rfl rfl
    | false =>
      have hoptr := hemitted.optr
      have hroom := hemitted.room
      rw [State.payloadBit_false_of_leafRoot hroot] at hstep
      rw [if_neg Bool.false_ne_true]
      obtain ⟨hfull, hemit⟩ | ⟨hfree, hemit⟩ := State.emit_cases { s with eng := s.eng.countBit } sym
      · rw [emitTo_of_full (hroom.antisymm (hoptr ▸ hfull))]
        exact decodesTo_of_raise hemitted (hstep.trans (congrArg _ hemit)) rfl rfl
      · rw [emitTo_of_room (hoptr ▸ hfree)]
        have hsame := sameBlock_eng_out s { s.eng.countBit with optr := s.eng.optr + 1 }
          (s.outMem.write s.eng.optr.toNat sym)
        have hrest := ih (hreading.next hsame rfl hreading.phase hreading.entering rfl)
          (hemitted.emit hfree rfl rfl rfl) hroot hcur
        exact hrest.after (hstep.trans (congrArg _ hemit)) hsame rfl

end

/-- D_DEC stands in the tree root at its subtree cur: at the root, or at a smaller tree. -/
structure StandsIn (e : Engine) (root cur : PTree) : Prop where
  whole : root.StandsAt e (fun _ => True) e.root
  here : cur.StandsAt e (fun _ => True) e.cur
  size : e.cur = e.root ∨ cur.syms.length < root.syms.length

theorem StandsIn.eq_root_iff {e : Engine} {root cur : PTree} (h : StandsIn e root cur) : cur = root ↔ e.cur = e.root := by
  constructor
  · rintro rfl
    exact h.size.resolve_right (Nat.lt_irrefl _)
  · intro hcur
    exact h.here.unique (hcur ▸ h.whole)

/-- Back at the root. -/
theorem StandsIn.restart {e e' : Engine} {root cur : PTree} (h : StandsIn e root cur) (hnode : e'.node = e.node)
    (hroot : e'.root = e.root) (hcur : e'.cur = e.root) : StandsIn e' root root := by
  have hwhole : root.StandsAt e' (fun _ => True) e.root :=
    h.whole.frame (fun _ h => h) fun j _ => by rw [Engine.nodeAt, hnode, Engine.nodeAt]
  exact ⟨hroot.symm ▸ hwhole, hcur.symm ▸ hwhole, .inl (hcur.trans hroot.symm)⟩

/-- Down to the child on a bit. -/
theorem StandsIn.exists_child {e : Engine} {root l r : PTree} (h : StandsIn e root (.node l r)) (bit : Bool) :
    ∃ c, c = (e.nodeAt e.cur).child bit ∧ (if bit then r else l).StandsAt e (fun _ => True) c ∧
      (if bit then r else l).syms.length < root.syms.length := by
  obtain ⟨-, f, a, b, hnode, hl, hr⟩ := h.here
  have hsize : (PTree.node l r).syms.length ≤ root.syms.length := by
    rcases h.size with hcur | hlt
    · rw [h.eq_root_iff.mpr hcur]
    · exact hlt.le
  have hposl := l.syms_length_pos
  have hposr := r.syms_length_pos
  rw [PTree.syms, List.length_append] at hsize
  refine ⟨_, rfl, ?_, ?_⟩
  · rw [hnode]
    cases bit with
    | false => exact hl
    | true => exact hr
  · split_ifs <;> omega

/-- The payload of a tree whose root is internal. -/
theorem decodesTo_tree {m₀ : Memory} {s : State} {bits : List Bool} {out : List Byte} {a b l r : PTree}
    (hreading : Reading s bits) (hemitted : Emitted m₀ out s) (hstands : StandsIn s.eng (.node a b) (.node l r)) :
    DecodesTo m₀ (bits.length + 1) s (decodeTree s.regs.outCap.toNat (.node a b) bits (.node l r) out) := by
  have hroot : (s.eng.nodeAt s.eng.root).isLeaf = false := by
    obtain ⟨-, f, x, y, hnode, -, -⟩ := hstands.whole
    rw [hnode, Node.isLeaf]
  induction bits generalizing s out l r with
  | nil =>
    rw [decodeTree]
    by_cases hcur : s.eng.cur = s.eng.root
    · rw [if_pos (hstands.eq_root_iff.mpr hcur)]
      exact decodesTo_end hreading hemitted hcur
    · rw [if_neg (mt hstands.eq_root_iff.mp hcur)]
      exact decodesTo_truncated hreading hemitted hcur
  | cons bit bits ih =>
    have hstep := hreading.step
    have hoptr := hemitted.optr
    have hroom := hemitted.room
    obtain ⟨c, hc, hchild, hsize⟩ := hstands.exists_child bit
    rw [decodeTree, PTree.descend]
    generalize (if bit then r else l) = child at hchild hsize ⊢
    cases child with
    | node l' r' =>
      have ⟨_, f, x, y, hnode, _, _⟩ := hchild
      have hsame := sameBlock_eng s { s.eng.countBit with cur := c }
      have hnext : StandsIn { s.eng.countBit with cur := c } (.node a b) (.node l' r') :=
        ⟨hstands.whole.frame (fun _ h => h) fun _ _ => rfl, hchild.frame (fun _ h => h) fun _ _ => rfl, .inr hsize⟩
      have hrest := ih (hreading.next hsame rfl hreading.phase hreading.entering rfl) (hemitted.congr rfl rfl rfl) hnext
        hroot
      exact hrest.after (hstep.trans (congrArg _ (State.payloadBit_internal hroot hc (congrArg Node.isLeaf hnode)))) hsame
        rfl
    | leaf sym =>
      obtain ⟨-, f, hnode⟩ := hchild
      obtain ⟨hfull, hemit⟩ | ⟨hfree, hemit⟩ := State.payloadBit_leaf hroot hc hnode
      · simp only [emitTo_of_full (hroom.antisymm (hoptr ▸ hfull))]
        exact decodesTo_of_raise hemitted (hstep.trans (congrArg _ hemit)) rfl rfl
      · simp only [emitTo_of_room (hoptr ▸ hfree)]
        have hsame := sameBlock_eng_out s { s.eng.countBit with optr := s.eng.optr + 1, cur := s.eng.root }
          (s.outMem.write s.eng.optr.toNat sym)
        have hrest := ih (hreading.next hsame rfl hreading.phase hreading.entering rfl)
          (hemitted.emit hfree rfl rfl rfl) (hstands.restart rfl rfl rfl) hroot
        exact hrest.after (hstep.trans (congrArg _ hemit)) hsame rfl

/-- The engine at the start of D_DEC's loop. -/
def Engine.startDecode (e : Engine) : Engine :=
  { e with entering := false, rpos := 0, optr := 0, cur := e.root }

/-- D_DEC from its entry decodes the whole payload. -/
theorem decodesTo_payload {s : State} {tree : PTree} {bits : List Bool} (hqueue : s.host.queue = [])
    (hgoes : GoesTo .dDec s) (htree : s.eng.HasTree (some tree)) (hlength : bits.length = s.eng.bReg.toNat)
    (hbits : ∀ i (hi : i < bits.length), bits[i] = s.payloadAt i) :
    DecodesTo s.outMem (bits.length + 2) s (decodePayload s.regs.outCap.toNat tree bits) := by
  obtain ⟨hphase, henter⟩ := hgoes
  obtain ⟨hvalid, hstands⟩ := htree
  have hstep := step_alone_plain hqueue (by simp [hphase]) (engineStep_dDec_entry hphase henter hvalid)
  have hreading : Reading { s with eng := s.eng.startDecode } bits :=
    ⟨hqueue, hphase, rfl, (Nat.zero_add _).trans hlength,
      fun i hi => (hbits i hi).trans (congrArg s.payloadAt (Nat.zero_add i).symm)⟩
  have hemitted : Emitted s.outMem [] { s with eng := s.eng.startDecode } := ⟨rfl, Nat.zero_le _, rfl⟩
  cases tree with
  | leaf sym =>
    obtain ⟨-, f, hroot⟩ := hstands
    exact (decodesTo_oneLeaf hreading hemitted hroot rfl).after hstep (sameBlock_eng s _) rfl
  | node l r =>
    have hwhole : (PTree.node l r).StandsAt s.eng.startDecode (fun _ => True) s.eng.root :=
      hstands.frame (fun _ h => h) fun _ _ => rfl
    exact (decodesTo_tree hreading hemitted ⟨hwhole, hwhole, .inl rfl⟩).after hstep (sameBlock_eng s _) rfl

/-! ### The header (R230) -/

theorem Memory.readList_getD (m : Memory) (a : Nat) {n i : Nat} (hi : i < n) :
    (m.readList a n).getD i 0 = m.read (a + i) := by
  rw [List.getD_eq_getElem _ _ (by rwa [Memory.readList_length]), Memory.readList_getElem _ _ hi]

/-- A header field of a buffer is that of the first eight bytes. -/
theorem be32At_readList (m : Memory) {o n : Nat} (ho : o + 4 ≤ 8) (hn : 8 ≤ n) :
    be32At (m.readList 0 n) o = be32At (m.readList 0 8) o := by
  unfold be32At
  simp only [m.readList_getD 0 (n := n) (i := o) (by omega), m.readList_getD 0 (n := n) (i := o + 1) (by omega),
    m.readList_getD 0 (n := n) (i := o + 2) (by omega), m.readList_getD 0 (n := n) (i := o + 3) (by omega),
    m.readList_getD 0 (n := 8) (i := o) (by omega), m.readList_getD 0 (n := 8) (i := o + 1) (by omega),
    m.readList_getD 0 (n := 8) (i := o + 2) (by omega), m.readList_getD 0 (n := 8) (i := o + 3) (by omega)]

/-- A header of eight bytes or more is read. -/
theorem exists_header {s : State} (hqueue : s.host.queue = []) (hphase : s.eng.phase = .dHdr)
    (hlong : 8 ≤ s.regs.inLen.toNat) :
    ∃ t b, step s = .next (s.header t b) ∧ t.toNat = be32At (s.inMem.readList 0 8) 0 ∧
      b.toNat = be32At (s.inMem.readList 0 8) 4 := by
  have hdecode : decode s.headerCode = .ok (.header
      (be32 (s.inMem.read 0) (s.inMem.read 1) (s.inMem.read 2) (s.inMem.read 3))
      (be32 (s.inMem.read 4) (s.inMem.read 5) (s.inMem.read 6) (s.inMem.read 7))) := rfl
  refine ⟨_, _, ?_, rfl, rfl⟩
  rw [step_alone hqueue (by simp [hphase]), engineStep_dHdr_of_long hphase hlong, Fetched.run_instr s hdecode]
  exact exec_header _ _ s

/-! ### The whole command (R242) -/

/-- A command that raises, and its FINISH. -/
theorem RaisesIn.exists_ended {n : Nat} {s u : State} {k : ErrorKind} (h : RaisesIn n u k) (hqueue : s.host.queue = [])
    (hsame : SameBlock s u) (hout : u.outMem = s.outMem) : ∃ t, ReachesIn (n + 1) u t ∧ EndsWith s t (.error k) := by
  obtain ⟨v, hreach, hsame', hout', hphase, hpending⟩ := h
  have hout'' := hout'.trans hout
  obtain ⟨t, hfinish, hends⟩ := exists_ended_error hqueue (hsame.trans hsame') hphase hpending
    (fun _ _ => by rw [hout'']) fun _ => hout''
  exact ⟨t, hreach.trans hfinish, hends⟩

/-- D_TREE and D_DEC after an accepted header (R232 to R241). -/
def decodeRegion (buf : List Byte) (T B cap : Nat) : Except ErrorKind Result :=
  if T = 0 then
    if 0 < B then .error .fmtEmptyTreeBits else .ok { out := [], T := 0, B := 0, k := 0 }
  else
    match deser ((buf.drop 8).take T) with
    | .error k => .error k
    | .ok tree =>
      match decodePayload cap tree (payloadBitsOf buf (8 + T) B) with
      | .error k => .error k
      | .ok out => .ok { out := out.reverse, T := T, B := B, k := tree.syms.length }

theorem decompress_eq (buf : List Byte) (cap : Nat) :
    decompress buf cap =
      if buf.length < 8 then .error .fmtShortHeader
      else if buf.length - 8 < be32At buf 0 then .error .fmtShortTree
      else if 8 * (buf.length - 8 - be32At buf 0) < be32At buf 4 then .error .fmtBitcount
      else decodeRegion buf (be32At buf 0) (be32At buf 4) cap := rfl

theorem Memory.take_drop_readList (m : Memory) {n j l : Nat} (h : j + l ≤ n) :
    ((m.readList 0 n).drop j).take l = m.readList j l := by
  apply List.ext_getElem
  · simp only [List.length_take, List.length_drop, Memory.readList_length]
    omega
  · intro i _ hi
    rw [Memory.readList_length] at hi
    rw [List.getElem_take, List.getElem_drop, Memory.readList_getElem _ _ (by omega), Memory.readList_getElem _ _ hi,
      Nat.zero_add]

theorem payloadBitsOf_length (buf : List Byte) (base B : Nat) : (payloadBitsOf buf base B).length = B := by
  simp [payloadBitsOf]

/-- The payload bits of a buffer that holds them all. -/
theorem payloadBitsOf_getElem {m : Memory} {n base B i : Nat} (hi : i < (payloadBitsOf (m.readList 0 n) base B).length)
    (hfits : base ≤ n) (hbits : B ≤ 8 * (n - base)) :
    (payloadBitsOf (m.readList 0 n) base B)[i] = streamBit (m.read (base + i / 8)) i := by
  have hB := payloadBitsOf_length (m.readList 0 n) base B
  simp only [payloadBitsOf, List.getElem_map, List.getElem_range]
  rw [m.readList_getD 0 (by omega), Nat.zero_add]

theorem State.resultLen_of_decompress {s : State} (hop : s.regs.op = opDecompress) : s.resultLen = s.eng.optr :=
  if_neg (by rw [hop]; decide)

theorem State.resultNsym_of_decompress {s : State} (hop : s.regs.op = opDecompress) :
    s.resultNsym = BitVec.ofNat 9 s.eng.seen.length :=
  if_neg (by rw [hop]; decide)

/-- The engine after an empty tree region. -/
def Engine.emptyTree (e : Engine) : Engine :=
  { e.startParse with phase := .dDec, entering := true, rootValid := false }

/-- The empty tree is legal without payload bits alone (R235). -/
theorem exists_emptyTreeDecoded {s u : State} (hqueue : s.host.queue = []) (hop : s.regs.op = opDecompress)
    (hsame : SameBlock s u) (hout : u.outMem = s.outMem) (hgoes : GoesTo .dTree u) (hempty : u.eng.tReg = 0) :
    ∃ t, ReachesIn 3 u t ∧ EndsWith s t
      (if 0 < u.eng.bReg.toNat then .error .fmtEmptyTreeBits else .ok { out := [], T := 0, B := 0, k := 0 }) := by
  obtain ⟨hphase, henter⟩ := hgoes
  have hqueue' : u.host.queue = [] := by rwa [hsame.host]
  have hentry : step u = .next { u with eng := u.eng.emptyTree } :=
    step_alone_plain hqueue' (by simp [hphase]) (engineStep_dTree_empty hphase henter hempty)
  have hplain {t : State} (ht : ({ u with eng := u.eng.emptyTree } : State).engineStep = .plain t) :
      ReachesIn 2 u t :=
    (ReachesIn.of_step hentry).trans (.of_step (step_alone_plain hqueue' nofun ht))
  by_cases hbits : u.eng.bReg = 0
  · rw [if_neg (by rw [hbits]; exact Nat.lt_irrefl 0)]
    have hend := hplain (engineStep_dDec_emptyTree rfl rfl rfl hbits)
    obtain ⟨t, hreach, hends⟩ := exists_ended_ok (res := { out := [], T := 0, B := 0, k := 0 })
      (u := { u with eng := { u.eng.emptyTree with
        phase := .finish, entering := true, pending := none, rpos := 0, optr := 0 } }) hqueue
      (hsame.trans (sameBlock_eng u _)) rfl rfl
      (congrArg BitVec.toNat (State.resultLen_of_decompress (hsame.regs ▸ hop))) (congrArg BitVec.toNat hempty)
      (congrArg BitVec.toNat hbits) (congrArg BitVec.toNat (State.resultNsym_of_decompress (hsame.regs ▸ hop))) hout
    exact ⟨t, hend.trans hreach, hends⟩
  · rw [if_pos (Nat.pos_of_ne_zero fun h => hbits (BitVec.eq_of_toNat_eq h))]
    have hend := hplain (engineStep_dDec_emptyTreeBits rfl rfl rfl hbits)
    obtain ⟨t, hreach, hends⟩ := exists_ended_raise
      (u := { u with eng := { u.eng.emptyTree with entering := false, rpos := 0, optr := 0 } }) hqueue
      (hsame.trans (sameBlock_eng u _)) hout
    exact ⟨t, hend.trans hreach, hends⟩

/-- From D_TREE the rest of a DECOMPRESS. -/
theorem exists_regionDecoded {s u : State} {buf : List Byte} (hqueue : s.host.queue = []) (hop : s.regs.op = opDecompress)
    (hsame : SameBlock s u) (hout : u.outMem = s.outMem) (hgoes : GoesTo .dTree u)
    (hbuf : buf = s.inMem.readList 0 s.regs.inLen.toNat) (hfits : 8 + u.eng.tReg.toNat ≤ s.regs.inLen.toNat)
    (hbits : u.eng.bReg.toNat ≤ 8 * (s.regs.inLen.toNat - (8 + u.eng.tReg.toNat))) :
    ∃ t, ReachesIn (min u.eng.tReg.toNat 511 + u.eng.bReg.toNat + 5) u t ∧
      EndsWith s t (decodeRegion buf u.eng.tReg.toNat u.eng.bReg.toNat s.regs.outCap.toNat) := by
  have hqueue' : u.host.queue = [] := by rwa [hsame.host]
  unfold decodeRegion
  by_cases hempty : u.eng.tReg = 0
  · rw [if_pos (by rw [hempty]; rfl)]
    obtain ⟨t, hreach, hends⟩ := exists_emptyTreeDecoded hqueue hop hsame hout hgoes hempty
    exact ⟨t, hreach.mono (by omega), hends⟩
  · have hempty' : u.eng.tReg.toNat ≠ 0 := fun h => hempty (BitVec.eq_of_toNat_eq h)
    have hparse := treeParsed_deser hqueue' hgoes hempty
    rw [if_neg hempty', hbuf, Memory.take_drop_readList _ hfits, ← hsame.inMem]
    cases hdeser : deser (u.inMem.readList 8 u.eng.tReg.toNat) with
    | error k =>
      rw [hdeser] at hparse
      obtain ⟨t, hreach, hends⟩ := RaisesIn.exists_ended hparse hqueue hsame hout
      exact ⟨t, hreach.mono (by omega), hends⟩
    | ok tree =>
      rw [hdeser] at hparse
      obtain ⟨v, hparsed, hsame', hout', hgoes', htree, htReg, hbReg, hseen, hk⟩ := hparse
      have hlength := payloadBitsOf_length (u.inMem.readList 0 s.regs.inLen.toNat) (8 + u.eng.tReg.toNat) u.eng.bReg.toNat
      have hdecode := decodesTo_payload (s := v) (by rwa [hsame'.host]) hgoes' htree (hlength.trans (by rw [hbReg]))
        fun i hi => by
          rw [payloadBitsOf_getElem hi hfits hbits, State.payloadAt, hsame'.inMem, htReg]
      dsimp only
      rw [(hsame.trans hsame').regs, hout', hout, hlength] at hdecode
      cases hpayload : decodePayload s.regs.outCap.toNat tree
          (payloadBitsOf (u.inMem.readList 0 s.regs.inLen.toNat) (8 + u.eng.tReg.toNat) u.eng.bReg.toNat) with
      | error k =>
        rw [hpayload] at hdecode
        obtain ⟨w, hdecoded, hsame'', hphase, hpending, hkept, hopen⟩ := hdecode
        obtain ⟨t, hreach, hends⟩ := exists_ended_error hqueue ((hsame.trans hsame').trans hsame'') hphase hpending
          ((hsame.trans hsame').regs ▸ hkept)
          fun hclosed => absurd (hop ▸ hopen) (by rw [hclosed]; exact Bool.false_ne_true)
        exact ⟨t, ((hparsed.trans hdecoded).trans hreach).mono (by omega), hends⟩
      | ok out =>
        rw [hpayload] at hdecode
        obtain ⟨w, hdecoded, hsame'', hframe, hphase, hpending, hemitted⟩ := hdecode
        have hsameAll := (hsame.trans hsame').trans hsame''
        have htReg' : w.eng.tReg = u.eng.tReg := by rw [hframe]; exact htReg
        have hbReg' : w.eng.bReg = u.eng.bReg := by rw [hframe]; exact hbReg
        have hseen' : w.eng.seen.length = tree.syms.length := by rw [hframe]; exact hseen
        obtain ⟨t, hreach, hends⟩ := exists_ended_ok hqueue hsameAll hphase hpending
          (res := ⟨out.reverse, u.eng.tReg.toNat, u.eng.bReg.toNat, tree.syms.length⟩)
          (by rw [State.resultLen_of_decompress (hsameAll.regs ▸ hop), hemitted.optr, List.length_reverse])
          (by rw [htReg']) (by rw [hbReg'])
          (by
            rw [State.resultNsym_of_decompress (hsameAll.regs ▸ hop), hseen']
            exact Nat.mod_eq_of_lt (show tree.syms.length < 2 ^ 9 by omega))
          hemitted.mem
        exact ⟨t, ((hparsed.trans hdecoded).trans hreach).mono (by omega), hends⟩

/-- From CHECK a legal DECOMPRESS, left alone, computes Decompress of its input and ends. -/
theorem exists_decompressed {s : State} {buf : List Byte} (hqueue : s.host.queue = []) (hphase : s.eng.phase = .check)
    (hop : s.regs.op = opDecompress) (hconfig : s.regs.ConfigOk) (hbuf : buf = s.inMem.readList 0 s.regs.inLen.toNat) :
    ∃ t, ReachesIn (min (be32At (s.inMem.readList 0 8) 0) 511 + be32At (s.inMem.readList 0 8) 4 + 7) s t ∧
      EndsWith s t (decompress buf s.regs.outCap.toNat) := by
  have hcheck := check_alone_decompress hqueue hphase hop hconfig
  have hlength : buf.length = s.regs.inLen.toNat := by rw [hbuf, Memory.readList_length]
  rw [decompress_eq, hlength]
  by_cases hlong : s.regs.inLen.toNat < 8
  · rw [if_pos hlong]
    have hstep := step_alone_plain (s := s.goto .dHdr) hqueue nofun (engineStep_dHdr_of_short rfl hlong)
    obtain ⟨t, hreach, hends⟩ := exists_ended_raise hqueue ((sameBlock_eng s _).trans (sameBlock_eng _ _)) rfl
    exact ⟨t, ((hcheck.trans (.of_step hstep)).trans hreach).mono (by omega), hends⟩
  · rw [not_lt] at hlong
    rw [if_neg hlong.not_gt, hbuf, be32At_readList _ (by decide) hlong, be32At_readList _ (by decide) hlong, ← hbuf]
    obtain ⟨T, B, hheader, hT, hB⟩ := exists_header (s := s.goto .dHdr) hqueue rfl hlong
    rw [State.goto_inMem] at hT hB
    rw [← hT, ← hB]
    have hraises {k : ErrorKind} {e : Engine}
        (h : (s.goto .dHdr).header T B = { s.goto .dHdr with eng := e }.raise k) :
        ∃ t, ReachesIn (min T.toNat 511 + B.toNat + 7) s t ∧ EndsWith s t (.error k) := by
      obtain ⟨t, hreach, hends⟩ := (raisesIn_of_step hheader h).exists_ended hqueue (sameBlock_eng s _) rfl
      exact ⟨t, (hcheck.trans hreach).mono (by omega), hends⟩
    by_cases htree : s.regs.inLen.toNat - 8 < T.toNat
    · rw [if_pos htree]
      exact hraises (State.header_of_long_tree B htree)
    rw [if_neg htree]
    rw [not_lt] at htree
    by_cases hbits : 8 * (s.regs.inLen.toNat - 8 - T.toNat) < B.toNat
    · rw [if_pos hbits]
      exact hraises (State.header_of_long_payload htree hbits)
    rw [if_neg hbits]
    rw [not_lt] at hbits
    have hread := hcheck.trans (.of_step hheader)
    rw [State.header_of_fits (s := s.goto .dHdr) htree hbits] at hread
    obtain ⟨t, hreach, hends⟩ := exists_regionDecoded (s := s)
      (u := { s.goto .dHdr with eng := { (s.goto .dHdr).eng with tReg := T, bReg := B } }.goto .dTree) hqueue hop
      (sameBlock_eng s _) rfl ⟨rfl, rfl⟩ hbuf (show 8 + T.toNat ≤ _ by omega)
      (show B.toNat ≤ 8 * (_ - (8 + T.toNat)) by omega)
    exact ⟨t, (hread.trans hreach).mono (show 1 + 1 + (min T.toNat 511 + B.toNat + 5) ≤ _ by omega), hends⟩

/-- Settles O59: the run of `exists_decompressed`, read off the registers and OUT_MEM. -/
theorem decompressRunsToItsFunction : Obligations.DecompressRunsToItsFunction := by
  intro s hphase hqueue hop hin hcap
  obtain ⟨t, ⟨n, hn, hrun⟩, hends⟩ := exists_decompressed hqueue hphase hop ⟨hin, hcap⟩ rfl
  refine ⟨n, t, hrun, hends.idle, ?_⟩
  cases hres : decompress (s.inMem.readList 0 s.regs.inLen.toNat) s.regs.outCap.toNat with
  | error k =>
    rw [hres] at hends
    obtain ⟨hkept, hclosed⟩ := hends.output
    have hshut (hbad : k ≠ .fmtBadBit) (htrunc : k ≠ .fmtTruncated) (hfull : k ≠ .capacity) :
        leavesOutputOpen s.regs.op (some k) = false := by
      rw [Bool.eq_false_iff, ne_eq, leavesOutputOpen_iff]
      tauto
    rw [hends.regs]
    exact ⟨rfl, rfl, fun a => by rw [hends.inMem], hn, rfl, rfl, rfl, rfl, rfl, rfl, hkept,
      fun hbad htrunc hfull a => by rw [hclosed (hshut hbad htrunc hfull)]⟩
  | ok r =>
    rw [hres] at hends
    obtain ⟨hlen, htree, hbits, hnsym⟩ := s.regs.published_ok (hends.fits r rfl)
    obtain ⟨hwritten, hkept⟩ := hends.output_ok
    rw [hends.regs]
    exact ⟨rfl, rfl, fun a => by rw [hends.inMem], hn, rfl, rfl, hlen, htree, hbits, hnsym, hwritten, hkept⟩

end Sys2Proof.Machine
end

section
/-! What a command publishes is a function of its registers and its input (R2, R302). -/

namespace Sys2Proof.Machine

/-- What a command computes (R132 to R134, R149). -/
def commandResult (r : Regs) (input : List Byte) : Except ErrorKind Result :=
  if r.op ≠ opCompress ∧ r.op ≠ opDecompress then .error .illegalOp
  else if r.inMax.toNat < r.inLen.toNat ∨ r.outMax.toNat < r.outCap.toNat then .error .config
  else if r.op = opCompress then compressInto input r.outCap.toNat
  else decompress input r.outCap.toNat

/-- Left alone, a command ends with what it computes. -/
theorem exists_commandEnded {s : State} (hqueue : s.host.queue = []) (hphase : s.eng.phase = .check)
    (hmax : s.regs.inMax.toNat ≤ inMaxBound) :
    ∃ n t, runFor n s = some t ∧ EndsWith s t (commandResult s.regs (s.inMem.readList 0 s.regs.inLen.toNat)) := by
  have hraise {k : ErrorKind} (hcheck : ReachesIn 1 s (s.raise k)) :
      ∃ n t, runFor n s = some t ∧ EndsWith s t (.error k) := by
    obtain ⟨t, hreach, hends⟩ := exists_ended_raise hqueue (sameBlock_eng s s.eng) rfl
    obtain ⟨n, -, hrun⟩ := hcheck.trans hreach
    exact ⟨n, t, hrun, hends⟩
  unfold commandResult
  split_ifs with hop hconfig hcompress
  · exact hraise (check_alone_illegalOp hqueue hphase hop)
  · exact hraise (check_alone_config hqueue hphase (by tauto) hconfig)
  · obtain ⟨t, ⟨n, -, hrun⟩, hends⟩ := exists_compressed hqueue hphase hcompress hmax
      (by unfold Regs.ConfigOk; omega) rfl
    exact ⟨n, t, hrun, hends⟩
  · have hdecompress : s.regs.op = opDecompress := by tauto
    obtain ⟨t, ⟨n, -, hrun⟩, hends⟩ := exists_decompressed hqueue hphase hdecompress
      (by unfold Regs.ConfigOk; omega) rfl
    exact ⟨n, t, hrun, hends⟩

theorem Memory.readList_congr {m m' : Memory} {n : Nat} (h : ∀ a, a < n → m'.read a = m.read a) :
    m'.readList 0 n = m.readList 0 n := by
  apply List.ext_getElem
  · rw [Memory.readList_length, Memory.readList_length]
  · intro i hi _
    rw [Memory.readList_length] at hi
    rw [Memory.readList_getElem _ _ hi, Memory.readList_getElem _ _ hi, Nat.zero_add, h i hi]

/-- Settles O60: both machines end with the one result of their command, and a result register keeps nothing old. -/
theorem commandIgnoresOldState : Obligations.CommandIgnoresOldState := by
  intro s s' t n hphase hphase' hqueue hqueue' ⟨_, hmax, _⟩ hregs hinput hrun hidle
  obtain ⟨m, u, hrunu, hends⟩ := exists_commandEnded hqueue hphase hmax
  obtain rfl := runFor_idle_unique hqueue hrun hidle hrunu hends.idle
  obtain ⟨n', t', hrun', hends'⟩ := exists_commandEnded hqueue' hphase' (by rw [hregs]; exact hmax)
  have hinLen : s'.regs.inLen = s.regs.inLen := by rw [hregs]
  have hresult : commandResult s'.regs (s'.inMem.readList 0 s'.regs.inLen.toNat) =
      commandResult s.regs (s.inMem.readList 0 s.regs.inLen.toNat) := by
    rw [hinLen, Memory.readList_congr hinput, hregs]
    rfl
  rw [hresult] at hends'
  generalize commandResult s.regs (s.inMem.readList 0 s.regs.inLen.toNat) = res at hends hends'
  refine ⟨n', t', hrun', hends'.idle, ?_, fun hok a ha => ?_⟩
  · rw [hends'.regs, hends.regs, hregs]
    cases res <;> rfl
  · cases res with
    | error k =>
      rw [hends.regs] at hok
      cases hok
    | ok r =>
      have hlen := (s.regs.published_ok (hends.fits r rfl)).1
      rw [hends.regs, hlen] at ha
      rw [show t'.outMem = _ from hends'.output, show t.outMem = _ from hends.output, ← Nat.zero_add a,
        Memory.read_writeList _ _ _ _ ha, Memory.read_writeList _ _ _ _ ha]

end Sys2Proof.Machine
end
